-- ==== Sys2Proof/Word.lean ====
section
/-! DEFINITION. The value types of the jsmodem FSK core: numbers, bits, bytes, samples, stamps, ids,
three-valued ring entries. Only types stand here; what is computed with them is in Machine/. -/

namespace Sys2Proof

/-- `Num` (00_scope.md R9): exact rationals, no rounding and no overflow. Phases are in turns (R13). -/
abbrev Num := ℚ

/-- One bit (R10). `true` is 1: the mark tone, a set data bit; `false` is 0: the space tone (30_encoding.md R90). -/
abbrev Bit := Bool

/-- One byte of a payload (10_state.md R39, D22). -/
abbrev Byte := BitVec 8

/-- The command word (30_encoding.md R81). -/
abbrev Cmd := BitVec 8

/-- A received audio sample with a numeric value (30_encoding.md R99). DESIGN CHOICE: rational (log entry 8). -/
abbrev Sample := ℚ

/-- A transmitted audio sample: a value of SINE, whose codomain the spec leaves to the instance (00_scope.md R8, D4). A sample is
the NAME of such a value, since nothing in the block computes with it (40_oscillator.md R113); what number it names is said by an
instance (`Realises` in Machine/SineInstances.lean). DESIGN CHOICE: a tagged natural (log entry 7). -/
structure OutSample where
  name : Nat
  deriving DecidableEq, Repr, Inhabited

/-- The operand `sample` of the receive operations. 30_encoding.md R99 and D4 give `Sample` no not-a-number value;
43_discriminator.md R156(a) and D28 say what happens to such an input all the same, so the operand can be one (log entry 8). -/
inductive InSample where
  /-- a number -/
  | num (x : Sample)
  /-- an input that is not a number: refused (R230 (7)) -/
  | nonNumeric
  deriving DecidableEq, Repr, Inhabited

/-- A time stamp (R8, D15): copied, never computed with. DESIGN CHOICE: a tagged natural (log entry 10). -/
structure Time where
  stamp : Nat
  deriving DecidableEq, Repr, Inhabited

/-- A message id (R8, R41, D22): opaque, never compared. DESIGN CHOICE: a tagged natural (log entry 10). -/
structure MsgId where
  tag : Nat
  deriving DecidableEq, Repr, Inhabited

/-- A ring entry: a polarity, a product, or the 0 of an entry not yet written (10_state.md R43, R45; 30_encoding.md R96). -/
inductive Trit where
  /-- −1 -/
  | neg
  /-- 0 -/
  | zero
  /-- +1 -/
  | pos
  deriving DecidableEq, Repr, Inhabited

/-- A message to transmit (10_state.md R39): its opaque id and its payload, which may be empty. -/
structure Message where
  id : MsgId
  bytes : List Byte
  deriving DecidableEq, Repr, Inhabited

/-- The kinds of symbol of a message (30_encoding.md R91, 41_framer_scheduler.md R121). -/
inductive SymKind where
  | pre
  /-- start bit of byte `i` -/
  | start (i : Nat)
  /-- data bit `j` of byte `i` -/
  | data (i j : Nat)
  /-- stop bit of byte `i` -/
  | stop (i : Nat)
  | tail
  | done
  deriving DecidableEq, Repr, Inhabited

/-- The result of one BTR_STEP (30_encoding.md R98). -/
inductive BtrResult where
  /-- no bit period ended on this sample -/
  | nothing
  /-- one bit period ended: this bit goes to the Deframer -/
  | cleanBit (b : Bit)
  /-- the receive failure: synchronization lost -/
  | failure
  deriving DecidableEq, Repr, Inhabited

/-- The two kinds of event (30_encoding.md R89). -/
inductive Event where
  | completed (id : MsgId)
  | received (bytes : List Byte) (start : Time) (stop : Time)
  deriving DecidableEq, Repr, Inhabited

end Sys2Proof
end

