-- ==== Sys2Proof/Config.lean ====
section
/-! DEFINITION. What an implementation fixes: the build-time parameters of 00_scope.md R8, the sine function, the three
values the spec leaves free, and the preset rows the environment may use. -/

namespace Sys2Proof

/-- The OPEN build-time parameters of 00_scope.md R8 that a rule's effect depends on. A value of this type stands in State
as a strap that no operation writes (log entry 5). -/
structure Build where
  /-- UNIT_PORT: the unit-level operations are reachable (30_encoding.md R83, D9) -/
  unitPort : Bool
  /-- TXQ_DEPTH: capacity of the transmit queue; `none` is the unbounded queue of the spec's model (20_memory.md R62) -/
  txqDepth : Option Nat
  /-- TX_MAXLEN: longest payload in bytes; `none` is unbounded (D18, U7) -/
  txMaxLen : Option Nat
  /-- RX_MAXLEN: capacity of the receive byte buffer; `none` is the unbounded list of the spec's model (20_memory.md R63, D18, U6) -/
  rxMaxLen : Option Nat
  /-- PW: width of the phase accumulator; `none` keeps exact increments (10_state.md R29, 40_oscillator.md R112) -/
  phaseWidth : Option Nat
  /-- Q: fraction bits of a fixed-width build; `none` keeps exact constants (10_state.md R59, D1) -/
  fracWidth : Option Nat
  deriving DecidableEq, Repr, Inhabited

/-- The spec's own model: every operation reachable, no capacity, exact numbers. DESIGN CHOICE (log entry 5). -/
def Build.standard : Build :=
  { unitPort := true, txqDepth := none, txMaxLen := none, rxMaxLen := none, phaseWidth := none, fracWidth := none }

/-- SINE (40_oscillator.md R113): a function of the phase alone, fixed for the life of the block. No value of it is known
("a model must not assume any particular value"), nor of its codomain, which may be ℝ (R114). DESIGN CHOICE: it answers the name of a
value (log entry 7). -/
opaque Config.sine : Num → OutSample

/-- The increment that the `w` bits of `tx_inc` hold for an operand `inc` of OSC_STEP that is no multiple of `2^−w`: 10_state.md R59
gives the register its bits, and 40_oscillator.md R112 speaks of multiples only. A free value (log entry 26). -/
opaque Config.freeIncrement : (w : Nat) → Num → BitVec w

/-- SYM_TONE applied to DONE, which 41_framer_scheduler.md R122 calls undefined and never applied: a free value (log entry 13). -/
opaque Config.toneOfDone : Bit

/-- The start stamp of a message in progress that has none: 10_state.md R53 excludes it, so only a state that no run
reaches reads this free value (log entry 14). -/
opaque Config.staleStart : Time

/-- A row of the preset table (47_system_ops.md R215): data of the environment, not logic of the block. -/
structure Preset where
  baud : Num
  fMark : Num
  fSpace : Num
  deriving DecidableEq, Repr

/-- bell103 (R215): 300 baud, space 1070 Hz, mark 1270 Hz; its receive delay is not given. -/
def Preset.bell103 : Preset := { baud := 300, fMark := 1270, fSpace := 1070 }

/-- bell202 (R215): 1200 baud, space 2200 Hz, mark 1200 Hz; its receive delay is not given. -/
def Preset.bell202 : Preset := { baud := 1200, fMark := 1200, fSpace := 2200 }

end Sys2Proof
end

