-- ==== Sys2Proof/Syntax.lean ====
section
/-! DEFINITION. The instructions: one constructor per row of spec/opcode_table.json, with the operands of its format
(30_encoding.md R82, R83, R85, R86), and the request by which the environment presents one (R80). -/

namespace Sys2Proof

/-- Format FC, the operand of CONFIGURE (30_encoding.md R85). The defaults are operand fields of zeros. -/
structure Params where
  fs : Num := 0
  baud : Num := 0
  fMark : Num := 0
  fSpace : Num := 0
  preDur : Num := 0
  tailDur : Num := 0
  rxDelay : Option Num := none
  delayLen : Option Nat := none
  corrLen : Option Nat := none
  deriving DecidableEq, Repr, Inhabited

/-- The seventeen operations of 30_encoding.md R82 and R83. -/
inductive Instr where
  /-- 0x01, format F0 -/
  | reset
  /-- 0x02, format FC -/
  | configure (params : Params)
  /-- 0x03, format FM -/
  | txSchedule (id : MsgId) (bytes : List Byte)
  /-- 0x04, format F0 -/
  | txTick
  /-- 0x05, format FN -/
  | txBlock (n : Nat)
  /-- 0x06, format FS -/
  | rxTick (sample : InSample) (now : Time)
  /-- 0x07, format FB -/
  | rxBlock (pairs : List (InSample × Time))
  /-- 0x10, format FI -/
  | oscStep (inc : Num)
  /-- 0x11, format FT -/
  | toneSel (tone : Bit)
  /-- 0x12, format F0 -/
  | schedPop
  /-- 0x13, format F0 -/
  | framerNext
  /-- 0x14, format FX -/
  | discStep (sample : InSample)
  /-- 0x15, format FR -/
  | btrStep (raw : Bit)
  /-- 0x16, format FD -/
  | deframeBit (b : Bit) (now : Time)
  /-- 0x17, format FW -/
  | deframeFail (now : Time)
  /-- 0x18, format FW -/
  | deframeFlush (now : Time)
  /-- 0x19, format F0 -/
  | framerSym
  deriving DecidableEq, Repr, Inhabited

/-- The opcodes alone: what the command word selects (30_encoding.md R81: the opcode is `cmd[4:0]`). -/
inductive Opcode where
  | reset | configure | txSchedule | txTick | txBlock | rxTick | rxBlock
  | oscStep | toneSel | schedPop | framerNext | discStep | btrStep
  | deframeBit | deframeFail | deframeFlush | framerSym
  deriving DecidableEq, Repr, Inhabited

/-- The opcode of an instruction. -/
def Instr.opcode : Instr → Opcode
  | .reset => .reset
  | .configure _ => .configure
  | .txSchedule _ _ => .txSchedule
  | .txTick => .txTick
  | .txBlock _ => .txBlock
  | .rxTick _ _ => .rxTick
  | .rxBlock _ => .rxBlock
  | .oscStep _ => .oscStep
  | .toneSel _ => .toneSel
  | .schedPop => .schedPop
  | .framerNext => .framerNext
  | .discStep _ => .discStep
  | .btrStep _ => .btrStep
  | .deframeBit _ _ => .deframeBit
  | .deframeFail _ => .deframeFail
  | .deframeFlush _ => .deframeFlush
  | .framerSym => .framerSym

/-- Unit-level operations (30_encoding.md R83): present only in a build with UNIT_PORT. -/
def Opcode.isUnit : Opcode → Bool
  | .reset | .configure | .txSchedule | .txTick | .txBlock | .rxTick | .rxBlock => false
  | .oscStep | .toneSel | .schedPop | .framerNext | .discStep | .btrStep => true
  | .deframeBit | .deframeFail | .deframeFlush | .framerSym => true

/-- The operand fields beside the command word (30_encoding.md R80: typed values, not packed bits). A command takes the
fields of its own format and no other; the default of each field is its zero (log entry 18). -/
structure Operands where
  params : Params := {}
  id : MsgId := ⟨0⟩
  bytes : List Byte := []
  n : Nat := 0
  sample : InSample := .num 0
  now : Time := ⟨0⟩
  pairs : List (InSample × Time) := []
  inc : Num := 0
  tone : Bit := false
  raw : Bit := false
  b : Bit := false
  deriving DecidableEq, Repr, Inhabited

/-- One transaction as the environment presents it (30_encoding.md R80). -/
structure Request where
  cmd : Cmd
  operands : Operands := {}
  deriving DecidableEq, Repr, Inhabited

end Sys2Proof
end

