-- ==== Sys2Proof/Machine/State.lean ====
section
/-! DEFINITION. The state of the block (10_state.md): the parameter set, the `configured` flag, the transmit bank, the
receive bank; and the model's own fields: the build straps, the pending requests and the last response. -/

namespace Sys2Proof.Machine

/-- No operation of the block ends in a fault: "A model has no `stuck` or `fault` outcome" (60_exceptions.md R237), and the
configuration error of U2 is the status `refused`. The type has no constructor, so nobody raises one (safe). -/
inductive Fault
  deriving DecidableEq, Repr

/-- The refusals of the model, not of the block: the block's status `refused` is a next state (log entry 4). -/
inductive Refusal where
  /-- Raised by exec for an instruction that has no meaning yet; no arm raises it (safe). -/
  | notModelled (mnemonic : String)
  deriving DecidableEq, Repr

/-- The parameter set and the derived constants, the control registers of 10_state.md R21 to R33. -/
structure ParamRegs where
  /-- FS (R22) -/
  fs : Num
  /-- BAUD (R23) -/
  baud : Num
  /-- F_MARK (R24) -/
  fMark : Num
  /-- F_SPACE (R25) -/
  fSpace : Num
  /-- PRE_DUR (R26) -/
  preDur : Num
  /-- TAIL_DUR (R27) -/
  tailDur : Num
  /-- RX_DELAY (R28) -/
  rxDelay : Option Num
  /-- INC_MARK (R29) -/
  incMark : Num
  /-- INC_SPACE (R29) -/
  incSpace : Num
  /-- SYM_LEN (R30) -/
  symLen : Num
  /-- PRE_LEN (R30) -/
  preLen : Num
  /-- TAIL_LEN (R30) -/
  tailLen : Num
  /-- BIT_STEP (R30) -/
  bitStep : Num
  /-- DELAY_LEN (R31) -/
  delayLen : Nat
  /-- CORR_LEN (R32) -/
  corrLen : Nat
  /-- INVERT (R33) -/
  invert : Bool
  deriving DecidableEq, Repr

/-- The parameter registers before CONFIGURE. R58 gives them "no value" and lets no operation read them. DESIGN CHOICE:
zero, none, false (log entry 11). -/
def ParamRegs.cleared : ParamRegs :=
  { fs := 0, baud := 0, fMark := 0, fSpace := 0, preDur := 0, tailDur := 0, rxDelay := none,
    incMark := 0, incSpace := 0, symLen := 0, preLen := 0, tailLen := 0, bitStep := 0,
    delayLen := 0, corrLen := 0, invert := false }

/-- The transmit bank (10_state.md R35 to R42). -/
structure TxBank where
  /-- tx_phase, in turns (R35) -/
  txPhase : Num
  /-- tx_inc (R36) -/
  txInc : Num
  /-- tx_n (R37) -/
  txN : Nat
  /-- tx_boundary (R38) -/
  txBoundary : Num
  /-- tx_active (R39) -/
  txActive : Option Message
  /-- tx_pos (R42) -/
  txPos : Nat
  /-- tx_fifo, oldest first (R40) -/
  txFifo : List Message
  deriving DecidableEq, Repr

/-- The transmit bank after RESET and after CONFIGURE (10_state.md R58). -/
def TxBank.cleared : TxBank :=
  { txPhase := 0, txInc := 0, txN := 0, txBoundary := 0, txActive := none, txPos := 0, txFifo := [] }

/-- The receive bank (10_state.md R43 to R53). -/
structure RxBank where
  /-- delay_line (R43) -/
  delayLine : List Trit
  /-- dpos (R44) -/
  dpos : Nat
  /-- corr_ring (R45) -/
  corrRing : List Trit
  /-- cpos (R46) -/
  cpos : Nat
  /-- corr_sum (R47) -/
  corrSum : Int
  /-- prev_bit (R48) -/
  prevBit : Option Bit
  /-- emitted_bits (R49) -/
  emittedBits : Num
  /-- symbol_buffer (R50) -/
  symbolBuffer : BitVec 10
  /-- symbol_count (R51) -/
  symbolCount : Nat
  /-- rx_bytes (R52) -/
  rxBytes : List Byte
  /-- rx_start (R53) -/
  rxStart : Option Time
  deriving DecidableEq, Repr

/-- The receive bank with all-zero rings of the given lengths and every other register at the value of 10_state.md R58:
lengths DELAY_LEN and CORR_LEN after CONFIGURE, no entries after RESET. -/
def RxBank.cleared (delayLen corrLen : Nat) : RxBank :=
  { delayLine := List.replicate delayLen .zero, dpos := 0, corrRing := List.replicate corrLen .zero, cpos := 0,
    corrSum := 0, prevBit := none, emittedBits := 0, symbolBuffer := 0, symbolCount := 0, rxBytes := [], rxStart := none }

/-- What an operation returns (30_encoding.md R82, R83, R87). Every constructor but `refused` carries the status `ok` and the
result fields of one format. -/
inductive Response where
  /-- status `refused`, no other result, no state change (R87) -/
  | refused
  /-- status `ok` alone -/
  | ok
  /-- TX_TICK -/
  | txTick (sample : Option OutSample) (events : List Event)
  /-- TX_BLOCK -/
  | txBlock (samples : List OutSample) (events : List Event)
  /-- RX_TICK, RX_BLOCK, DEFRAME_BIT, DEFRAME_FAIL, DEFRAME_FLUSH -/
  | events (events : List Event)
  /-- OSC_STEP -/
  | sample (s : OutSample)
  /-- TONE_SEL -/
  | inc (inc : Num)
  /-- DISC_STEP -/
  | raw (raw : Bit)
  /-- BTR_STEP -/
  | btr (res : BtrResult)
  /-- FRAMER_SYM -/
  | symbol (kind : SymKind) (tone : Option Bit) (len : Option Num)
  deriving DecidableEq, Repr

/-- The machine. `build`, `port` and `resp` are the model's own fields (10_state.md R57; log entries 1, 2, 5). -/
structure State where
  /-- build-time parameters: no operation writes them -/
  build : Build
  /-- `configured` (R34) -/
  configured : Bool
  /-- the parameter set and derived constants (R21 to R33) -/
  params : ParamRegs
  /-- the transmit bank (R35 to R42) -/
  tx : TxBank
  /-- the receive bank (R43 to R53) -/
  rx : RxBank
  /-- requests the environment has presented and the block has not yet taken, oldest first (20_memory.md R70) -/
  port : List Request
  /-- what the last operation returned; taken back at the next step (70_reset_and_hazards.md R264) -/
  resp : Option Response
  deriving DecidableEq, Repr

/-- The machine right after reset or power-on (10_state.md R58, 70_reset_and_hazards.md R250). -/
def State.reset : State :=
  { build := Build.standard, configured := false, params := ParamRegs.cleared, tx := TxBank.cleared,
    rx := RxBank.cleared 0 0, port := [], resp := none }

end Sys2Proof.Machine
end

