-- ==== Sys2Proof/Machine/Operands.lean ====
section
/-! DEFINITION. How operands and derived values are computed: rounding, quantisation, the phase wrap, polarity and product,
the payload bit, the shift register. -/

namespace Sys2Proof.Machine

/-- `round(x) = floor(x + 1/2)`, half up (00_scope.md R9, D5). -/
def roundHalfUp (x : Num) : Int := ⌊x + 1 / 2⌋

/-- A derived constant as a build holds it: exact, or rounded once to `w` fraction bits (10_state.md R29 states the formula
for the increments; DEDUCED for the other constants, log entry 16). -/
def quantise (width : Option Nat) (x : Num) : Num :=
  match width with
  | none => x
  | some w => (roundHalfUp (x * 2 ^ w) : Num) / 2 ^ w

/-- The phase in turns that a PW-bit accumulator stands for: `P = tx_phase × 2^PW` (40_oscillator.md R112). -/
def phaseOfAcc {pw : Nat} (acc : BitVec pw) : Num := (acc.toNat : Num) / 2 ^ pw

/-- `x` is a multiple of `2^−w`: `w` fraction bits hold it exactly (10_state.md R59). -/
def onGrid (w : Nat) (x : Num) : Bool := decide (quantise (some w) x = x)

/-- The increment by which OSC_STEP advances the phase. With an exact phase, and for a multiple of `2^−PW`, it is `inc`
(40_oscillator.md R111, R112). For another `inc` the spec says neither what PW bits hold nor that they round it: DESIGN CHOICE, a free
value of PW bits (log entry 26). -/
def heldIncrement (width : Option Nat) (inc : Num) : Num :=
  match width with
  | none => inc
  | some w => if onGrid w inc then inc else phaseOfAcc (Config.freeIncrement w inc)

/-- "if phase exceeds 2π, subtract 2π": a single subtraction, at `>= 1` turn (40_oscillator.md R111, C1, D2). -/
def wrapPhase (x : Num) : Num := if 1 ≤ x then x - 1 else x

/-- `polarity = sign(sample)`: "(≥0 → +1, else −1)" (30_encoding.md R96). -/
def polarity (x : Sample) : Trit := if 0 ≤ x then .pos else .neg

/-- The integer a ring entry stands for (30_encoding.md R96). -/
def tritInt : Trit → Int
  | .neg => -1
  | .zero => 0
  | .pos => 1

/-- The product of a polarity and a delay-line entry (30_encoding.md R96). -/
def tritMul : Trit → Trit → Trit
  | .pos, t => t
  | .zero, _ => .zero
  | .neg, .pos => .neg
  | .neg, .zero => .zero
  | .neg, .neg => .pos

/-- `bit(c)` (00_scope.md R10). -/
def bitOf (c : Bool) : Bit := c

/-- Data bit `j` of a byte: `(B >> j) & 1` (30_encoding.md R95). -/
def byteBit (byte : Byte) (j : Nat) : Bit := ((byte >>> j) &&& 1#8) == 1#8

/-- Data bit `j` of byte `i` of a payload (41_framer_scheduler.md R122). -/
def payloadBit (bytes : List Byte) (i j : Nat) : Bit := byteBit (bytes.getD i 0#8) j

/-- A clean bit enters the shift register: `(b << 9) | (symbol_buffer >> 1)` (30_encoding.md R93). -/
def shiftIn (b : Bit) (buf : BitVec 10) : BitVec 10 :=
  ((BitVec.ofBool b).zeroExtend 10 <<< 9) ||| (buf >>> 1)

/-- The data byte of a window: `(symbol_buffer >> 1) & 0xFF` (30_encoding.md R95). -/
def windowByte (buf : BitVec 10) : Byte := ((buf >>> 1) &&& 0xFF#10).truncate 8

/-- The samples of a block, when every one is a number (43_discriminator.md R156(a)). -/
def numericPairs : List (InSample × Time) → Option (List (Sample × Time))
  | [] => some []
  | (.num x, now) :: rest => (numericPairs rest).map fun r => (x, now) :: r
  | (.nonNumeric, _) :: _ => none

end Sys2Proof.Machine
end

