-- ==== Sys2Proof/Machine/Flags.lean ====
section
/-! DEFINITION. The predicates that steer operations (10_state.md R54, R55): there is no condition-code register. -/

namespace Sys2Proof.Machine

/-- The framing check: `(symbol_buffer & 0x201) == 0x200` (30_encoding.md R94). -/
def validFrame (buf : BitVec 10) : Bool := (buf &&& 0x201#10) == 0x200#10

/-- The classification `(corr_sum ≥ 0) XOR INVERT` (43_discriminator.md R156). -/
def classify (corrSum : Int) (invert : Bool) : Bit := bitOf (xor (decide (0 ≤ corrSum)) invert)

/-- The Scheduler is idle (42_modulator.md R143). -/
def TxBank.idle (t : TxBank) : Bool := t.txActive.isNone && t.txFifo.isEmpty

/-- "A message is in progress" (10_state.md R54). -/
def RxBank.inProgress (r : RxBank) : Bool := !r.rxBytes.isEmpty

/-- The receive warm-up: zeros are still in the delay line (60_exceptions.md R240). -/
def RxBank.warmingUp (r : RxBank) : Bool := r.delayLine.contains .zero

/-- The timing failure: `emitted_bits < 1` at a transition (44_bit_timing.md R171, C8). -/
def tooFast (emittedBits : Num) : Bool := decide (emittedBits < 1)

/-- A bit period ended: the floor moved in this step (44_bit_timing.md R171). -/
def periodEnded (old new : Num) : Bool := ⌊new⌋ != ⌊old⌋

/-- TXQ is full: only in a build with a capacity (20_memory.md R62). -/
def queueFull (b : Build) (t : TxBank) : Bool :=
  match b.txqDepth with
  | none => false
  | some d => decide (d ≤ t.txFifo.length)

/-- The payload does not fit the build's store (93_implementation_defined.md U7). -/
def payloadTooLong (b : Build) (bytes : List Byte) : Bool :=
  match b.txMaxLen with
  | none => false
  | some d => decide (d < bytes.length)

/-- The receive byte buffer is full: only in a build with a capacity (20_memory.md R63). -/
def storeFull (b : Build) (r : RxBank) : Bool :=
  match b.rxMaxLen with
  | none => false
  | some d => decide (d ≤ r.rxBytes.length)

end Sys2Proof.Machine
end

