-- ==== Sys2Proof/Machine/Ops.lean ====
section
/-! DEFINITION. The shared operations: ring access, how an operation answers, and the state change of the error classes. -/

namespace Sys2Proof.Machine

/-- `MemRead(space, i)` (20_memory.md R61): an entry not written since CONFIGURE reads 0, and so does an index outside the
ring, which no rule uses (log entry 15). -/
def ringRead (ring : List Trit) (pos : Nat) : Trit := ring.getD pos .zero

/-- `MemWrite(space, i, v)` (20_memory.md R61): exactly one entry. -/
def ringWrite (ring : List Trit) (pos : Nat) (v : Trit) : List Trit := ring.set pos v

/-- `pos <- (pos + 1) mod length` (20_memory.md R61). -/
def ringNext (pos length : Nat) : Nat := (pos + 1) % length

/-- The operation ends with status `ok` and these results (30_encoding.md R87). -/
def answer (r : Response) (s : State) : Host.Outcome State Fault Refusal := .next { s with resp := some r }

/-- `refuse`: status `refused`, every register unchanged (00_scope.md R12, 30_encoding.md R87). The block goes on. -/
def refuse (s : State) : Host.Outcome State Fault Refusal := .next { s with resp := some .refused }

/-- A unit-level operation while not configured is refused (47_system_ops.md R213). -/
def whenConfigured (s : State) (run : Host.Outcome State Fault Refusal) : Host.Outcome State Fault Refusal :=
  if s.configured then run else refuse s

/-- The transmit bank after an operation. -/
def State.withTx (s : State) (t : TxBank) : State := { s with tx := t }

/-- The receive bank after an operation. -/
def State.withRx (s : State) (r : RxBank) : State := { s with rx := r }

/-- "flush the in-progress message (emit it … if non-empty) and clear the byte list" (45_deframer.md R187). The start stamp is
present whenever the list is not empty (10_state.md R53); where it is not, it is a free value (log entry 14). -/
def flushMessage (now : Time) (r : RxBank) : List Event × RxBank :=
  match r.rxBytes with
  | [] => ([], r)
  | _ :: _ =>
    ([.received r.rxBytes (r.rxStart.getD Config.staleStart) now], { r with rxBytes := [], rxStart := none })

/-- The four error classes of the block (60_exceptions.md R225). -/
inductive ErrorClass where
  /-- (a) configuration error -/
  | configuration
  /-- (b) framing mismatch -/
  | framing
  /-- (c) timing desynchronization -/
  | timing
  /-- (d) not yet configured -/
  | notConfigured
  deriving DecidableEq, Repr

/-- "Trap entry" (60_exceptions.md R233): the state change an error class makes to the Deframer, and the events it emits. No
register is saved, no mode changes, control goes nowhere. Classes (a) and (d) change nothing (R226, R229); (b) flushes and
keeps the count (R227); (c) flushes and zeroes the count (R228). The resynchronisation of `prev_bit` and `emitted_bits` in
class (c) is BTR_STEP's own (44_bit_timing.md R171). -/
def takeError (c : ErrorClass) (now : Time) (r : RxBank) : List Event × RxBank :=
  match c with
  | .configuration => ([], r)
  | .notConfigured => ([], r)
  | .framing => flushMessage now r
  | .timing =>
    let f := flushMessage now r
    (f.1, { f.2 with symbolCount := 0 })

end Sys2Proof.Machine
end

