-- ==== Sys2Proof/Machine/BitTiming.lean ====
section
/-! DEFINITION. Bit Timing Recovery (44_bit_timing.md): BTR_STEP. -/

namespace Sys2Proof.Machine

/-- BTR_STEP (44_bit_timing.md R171). With `prev_bit = none` the transition branch is taken (R172). -/
def btrStep (c : ParamRegs) (raw : Bit) (r : RxBank) : BtrResult × RxBank :=
  if r.prevBit = some raw then
    let new := r.emittedBits + c.bitStep
    (if periodEnded r.emittedBits new then .cleanBit raw else .nothing, { r with emittedBits := new })
  else
    (if tooFast r.emittedBits then .failure else .nothing, { r with prevBit := some raw, emittedBits := 1 / 2 })

/-- BTR_STEP at the unit port (R171). -/
def execBtrStep (raw : Bit) (s : State) : Host.Outcome State Fault Refusal :=
  whenConfigured s
    (let b := btrStep s.params raw s.rx
    answer (.btr b.1) (s.withRx b.2))

end Sys2Proof.Machine
end

