-- ==== Sys2Proof/Machine/Deframer.lean ====
section
/-! DEFINITION. The Byte Deframer (45_deframer.md): DEFRAME_BIT, DEFRAME_FAIL, DEFRAME_FLUSH. -/

namespace Sys2Proof.Machine

/-- A decoded byte joins the message; the start stamp is captured with the first one (45_deframer.md R186, R190). -/
def appendByte (byte : Byte) (now : Time) (r : RxBank) : RxBank :=
  { r with
    rxStart := if r.rxBytes = [] then some now else r.rxStart
    rxBytes := r.rxBytes ++ [byte]
    symbolCount := 0 }

/-- DEFRAME_BIT (R186): shift in, count, and from the tenth bit on check the window. A mismatch flushes and leaves the count
(R189). -/
def deframeBit (b : Bit) (now : Time) (r : RxBank) : List Event × RxBank :=
  let r1 := { r with symbolBuffer := shiftIn b r.symbolBuffer, symbolCount := r.symbolCount + 1 }
  if 10 ≤ r1.symbolCount then
    if validFrame r1.symbolBuffer then ([], appendByte (windowByte r1.symbolBuffer) now r1)
    else takeError .framing now r1
  else ([], r1)

/-- The byte DEFRAME_BIT decodes from the clean bit `b`, if it does: from the tenth bit on, the data byte of a valid window (R186,
30_encoding.md R94, R95). -/
def decodedByte (b : Bit) (r : RxBank) : Option Byte :=
  if 10 ≤ r.symbolCount + 1 ∧ validFrame (shiftIn b r.symbolBuffer) = true then
    some (windowByte (shiftIn b r.symbolBuffer))
  else none

/-- A byte has been decoded and the build's byte store has no room for it: the RX_MAXLEN+1-th byte of 20_memory.md R63. -/
def overflows (build : Build) (byte : Option Byte) (r : RxBank) : Bool := byte.isSome && storeFull build r

/-- DEFRAME_FAIL (R188): error class (c). -/
def deframeFail (now : Time) (r : RxBank) : List Event × RxBank := takeError .timing now r

/-- DEFRAME_FLUSH (R187). -/
def deframeFlush (now : Time) (r : RxBank) : List Event × RxBank := flushMessage now r

/-- DEFRAME_BIT at the unit port (R186). In a build with RX_MAXLEN a byte that does not fit is answered `refused`, with no state
change: 20_memory.md R63 gives the case no meaning and says to treat it as `refuse` (U6; DEDUCED, log entry 6). -/
def execDeframeBit (b : Bit) (now : Time) (s : State) : Host.Outcome State Fault Refusal :=
  whenConfigured s
    (if overflows s.build (decodedByte b s.rx) s.rx then refuse s
    else
      let d := deframeBit b now s.rx
      answer (.events d.1) (s.withRx d.2))

/-- DEFRAME_FAIL at the unit port (R188). -/
def execDeframeFail (now : Time) (s : State) : Host.Outcome State Fault Refusal :=
  whenConfigured s
    (let d := deframeFail now s.rx
    answer (.events d.1) (s.withRx d.2))

/-- DEFRAME_FLUSH at the unit port (R187). -/
def execDeframeFlush (now : Time) (s : State) : Host.Outcome State Fault Refusal :=
  whenConfigured s
    (let d := deframeFlush now s.rx
    answer (.events d.1) (s.withRx d.2))

end Sys2Proof.Machine
end

