-- ==== Sys2Proof/Machine/Discriminator.lean ====
section
/-! DEFINITION. The Frequency Discriminator (43_discriminator.md): DISC_STEP. -/

namespace Sys2Proof.Machine

/-- DISC_STEP (43_discriminator.md R156), in the source's order of statements. The raw bit is classified from `corr_sum` after
this tick's update. -/
def discStep (c : ParamRegs) (x : Sample) (r : RxBank) : Bit × RxBank :=
  let pol := polarity x
  let product := tritMul pol (ringRead r.delayLine r.dpos)
  let sum := r.corrSum + tritInt product - tritInt (ringRead r.corrRing r.cpos)
  (classify sum c.invert,
    { r with
      corrSum := sum
      corrRing := ringWrite r.corrRing r.cpos product
      cpos := ringNext r.cpos c.corrLen
      delayLine := ringWrite r.delayLine r.dpos pol
      dpos := ringNext r.dpos c.delayLen })

/-- DISC_STEP at the unit port (R156): a sample that is not a number is refused (D28). -/
def execDiscStep (sample : InSample) (s : State) : Host.Outcome State Fault Refusal :=
  whenConfigured s
    (match sample with
    | .nonNumeric => refuse s
    | .num x =>
      let d := discStep s.params x s.rx
      answer (.raw d.1) (s.withRx d.2))

end Sys2Proof.Machine
end

