-- ==== Sys2Proof/Machine/Demodulator.lean ====
section
/-! DEFINITION. The Demodulator (46_demodulator.md): RX_TICK, RX_BLOCK. -/

namespace Sys2Proof.Machine

/-- RX_TICK on a configured block (46_demodulator.md R200): Discriminator, Bit Timing Recovery, and at most one operation of
the Deframer. -/
def rxTick (c : ParamRegs) (x : Sample) (now : Time) (r : RxBank) : List Event × RxBank :=
  let d := discStep c x r
  let t := btrStep c d.1 d.2
  match t.1 with
  | .cleanBit b => deframeBit b now t.2
  | .failure => deframeFail now t.2
  | .nothing => ([], t.2)

/-- The byte a tick decodes, if it does: that of DEFRAME_BIT on the clean bit that Bit Timing Recovery returns (R200). -/
def tickByte (c : ParamRegs) (x : Sample) (r : RxBank) : Option Byte :=
  let d := discStep c x r
  let t := btrStep c d.1 d.2
  match t.1 with
  | .cleanBit b => decodedByte b t.2
  | .failure => none
  | .nothing => none

/-- RX_BLOCK on a configured block (R201): the ticks in order. -/
def rxBlock (c : ParamRegs) : List (Sample × Time) → RxBank → List Event × RxBank
  | [], r => ([], r)
  | (x, now) :: rest, r =>
    let k := rxTick c x now r
    let e := rxBlock c rest k.2
    (k.1 ++ e.1, e.2)

/-- Some tick of the block decodes a byte that the build's byte store has no room for (20_memory.md R63). -/
def blockOverflows (build : Build) (c : ParamRegs) : List (Sample × Time) → RxBank → Bool
  | [], _ => false
  | (x, now) :: rest, r =>
    overflows build (tickByte c x r) r || blockOverflows build c rest (rxTick c x now r).2

/-- RX_TICK (R200; R204 while not configured: `ok`, no events, nothing changes). A sample that is not a number is refused
(D28), but not before the block is configured: class (d) is tested first (60_exceptions.md R232 (3)). A tick that decodes a byte
the build has no room for is refused whole (20_memory.md R63, U6; DEDUCED, log entry 6). -/
def execRxTick (sample : InSample) (now : Time) (s : State) : Host.Outcome State Fault Refusal :=
  if s.configured then
    match sample with
    | .nonNumeric => refuse s
    | .num x =>
      if overflows s.build (tickByte s.params x s.rx) s.rx then refuse s
      else
        let k := rxTick s.params x now s.rx
        answer (.events k.1) (s.withRx k.2)
  else answer (.events []) s

/-- RX_BLOCK (R201; R204 while not configured). A block that holds a sample that is not a number is refused whole, since a
refused operation has changed no state (30_encoding.md R87; DEDUCED, log entry 9); and so is a block with a tick that decodes a byte
the build has no room for (20_memory.md R63, U6; DEDUCED, log entry 6). -/
def execRxBlock (pairs : List (InSample × Time)) (s : State) : Host.Outcome State Fault Refusal :=
  if s.configured then
    match numericPairs pairs with
    | none => refuse s
    | some ps =>
      if blockOverflows s.build s.params ps s.rx then refuse s
      else
        let k := rxBlock s.params ps s.rx
        answer (.events k.1) (s.withRx k.2)
  else answer (.events []) s

end Sys2Proof.Machine
end

