-- ==== Sys2Proof/Machine/FramerScheduler.lean ====
section
/-! DEFINITION. The Symbol Framer and the Transmit Scheduler (41_framer_scheduler.md): TX_SCHEDULE, SCHED_POP, FRAMER_NEXT,
FRAMER_SYM and the pure functions SYM_KIND, SYM_TONE, SYM_DUR. -/

namespace Sys2Proof.Machine

/-- The position of DONE: `2 + 10·N` (41_framer_scheduler.md R121). -/
def donePos (m : Message) : Nat := 2 + 10 * m.bytes.length

/-- SYM_KIND (R121). A position past DONE, which no run reaches (10_state.md R42), is DONE too (log entry 12). -/
def symKind (m : Message) (k : Nat) : SymKind :=
  if k = 0 then .pre
  else if k = 1 + 10 * m.bytes.length then .tail
  else if donePos m ≤ k then .done
  else
    let i := (k - 1) / 10
    let j := (k - 1) % 10
    if j = 0 then .start i
    else if j = 9 then .stop i
    else .data i (j - 1)

/-- SYM_TONE (R122): 1 is mark. It is never applied to DONE. -/
def symTone (m : Message) (k : Nat) : Option Bit :=
  match symKind m k with
  | .pre => some true
  | .start _ => some false
  | .data i j => some (payloadBit m.bytes i j)
  | .stop _ => some true
  | .tail => some true
  | .done => none

/-- SYM_DUR (R123), in samples, not rounded. DONE has no length. -/
def symDur (c : ParamRegs) (m : Message) (k : Nat) : Option Num :=
  match symKind m k with
  | .pre => some c.preLen
  | .start _ => some c.symLen
  | .data _ _ => some c.symLen
  | .stop _ => some c.symLen
  | .tail => some c.tailLen
  | .done => none

/-- FRAMER_NEXT (R124): the next position, and its end added to the running boundary. -/
def framerNext (c : ParamRegs) (m : Message) (t : TxBank) : TxBank :=
  match symDur c m (t.txPos + 1) with
  | none => { t with txPos := t.txPos + 1 }
  | some d => { t with txPos := t.txPos + 1, txBoundary := t.txBoundary + d }

/-- SCHED_POP (R127) of message `m`, with `q` left in the queue. -/
def activate (c : ParamRegs) (m : Message) (q : List Message) (t : TxBank) : TxBank :=
  { t with txActive := some m, txFifo := q, txPos := 0, txN := 0, txBoundary := c.preLen }

/-- TX_SCHEDULE (R126): appends to the queue. Refused while not configured (D20), on a full queue (20_memory.md R62) and for a
payload longer than the build's store (U7). -/
def execTxSchedule (id : MsgId) (bytes : List Byte) (s : State) : Host.Outcome State Fault Refusal :=
  whenConfigured s
    (if queueFull s.build s.tx || payloadTooLong s.build bytes then refuse s
    else answer .ok (s.withTx { s.tx with txFifo := s.tx.txFifo ++ [{ id := id, bytes := bytes }] }))

/-- SCHED_POP at the unit port (R127): refused while a message is active or with an empty queue. -/
def execSchedPop (s : State) : Host.Outcome State Fault Refusal :=
  whenConfigured s
    (match s.tx.txActive, s.tx.txFifo with
    | none, m :: q => answer .ok (s.withTx (activate s.params m q s.tx))
    | none, [] => refuse s
    | some _, _ => refuse s)

/-- FRAMER_NEXT at the unit port (R124): refused with no active message and at DONE. -/
def execFramerNext (s : State) : Host.Outcome State Fault Refusal :=
  whenConfigured s
    (match s.tx.txActive with
    | none => refuse s
    | some m => if donePos m ≤ s.tx.txPos then refuse s else answer .ok (s.withTx (framerNext s.params m s.tx)))

/-- FRAMER_SYM (R125): reads the current symbol; tone and length are `none` at DONE. Writes nothing. -/
def execFramerSym (s : State) : Host.Outcome State Fault Refusal :=
  whenConfigured s
    (match s.tx.txActive with
    | none => refuse s
    | some m =>
      answer (.symbol (symKind m s.tx.txPos) (symTone m s.tx.txPos) (symDur s.params m s.tx.txPos)) s)

end Sys2Proof.Machine
end

