-- ==== Sys2Proof/WellFormed.lean ====
section
/-! DEFINITION. Well-formed instructions: every operand is a value its format admits. The checks are about syntax alone;
an instruction that fails one still has a meaning (the status `refused`), see log entry 25. -/

namespace Sys2Proof

/-- `Sample` has no not-a-number value (30_encoding.md R99). -/
def InSample.isNumeric : InSample → Bool
  | .num _ => true
  | .nonNumeric => false

/-- The operand range of OSC_STEP: `0 <= inc < 1` (40_oscillator.md R111, opcode_table.json). -/
abbrev IncInRange (inc : Num) : Prop := 0 ≤ inc ∧ inc < 1

/-- The required fields of format FC: `delay_len` is required when `rx_delay` is none (30_encoding.md R85). -/
def Params.hasDelay (p : Params) : Bool := p.rxDelay.isSome || p.delayLen.isSome

/-- Every operand is a value its format admits. -/
def Instr.wf : Instr → Bool
  | .configure p => p.hasDelay
  | .rxTick x _ => x.isNumeric
  | .rxBlock pairs => pairs.all fun p => p.1.isNumeric
  | .oscStep inc => decide (IncInRange inc)
  | .discStep x => x.isNumeric
  | .reset => true
  | .txSchedule _ _ => true
  | .txTick => true
  | .txBlock _ => true
  | .toneSel _ => true
  | .schedPop => true
  | .framerNext => true
  | .btrStep _ => true
  | .deframeBit _ _ => true
  | .deframeFail _ => true
  | .deframeFlush _ => true
  | .framerSym => true

end Sys2Proof
end

