-- ==== Sys2Proof/Machine/Oscillator.lean ====
section
/-! DEFINITION. The Tone Oscillator (40_oscillator.md): OSC_STEP. -/

namespace Sys2Proof.Machine

/-- OSC_STEP (40_oscillator.md R111): the sample is taken from the phase before the advance. -/
def oscStep (inc : Num) (t : TxBank) : OutSample × TxBank :=
  (Config.sine t.txPhase, { t with txPhase := wrapPhase (t.txPhase + inc) })

/-- OSC_STEP at the unit port: refused unless `0 <= inc < 1` (R111, D7). In a build with a PW-bit phase an `inc` that is no multiple
of `2^−PW` is a point the spec leaves open (10_state.md R59, R112): DESIGN CHOICE (log entry 26), the operation completes, and the phase
advances by a free value of PW bits (`heldIncrement`), so that it stays a value of PW bits. -/
def execOscStep (inc : Num) (s : State) : Host.Outcome State Fault Refusal :=
  whenConfigured s
    (if IncInRange inc then
      let o := oscStep (heldIncrement s.build.phaseWidth inc) s.tx
      answer (.sample o.1) (s.withTx o.2)
    else refuse s)

end Sys2Proof.Machine
end

