-- ==== Sys2Proof/Machine/Modulator.lean ====
section
/-! DEFINITION. The Modulator (42_modulator.md): TONE_SEL, TX_TICK, TX_BLOCK. -/

namespace Sys2Proof.Machine

/-- TONE_SEL (42_modulator.md R140): the tone mux. -/
def toneSel (c : ParamRegs) (tone : Bit) : Num := if tone then c.incMark else c.incSpace

/-- The inner loop of TX_TICK (R142): while the symbol has ended, FRAMER_NEXT. `fuel` bounds the passes (R146: each raises
`tx_pos`, which is at most `2 + 10·N`). -/
def passSymbols (c : ParamRegs) (m : Message) : Nat → TxBank → TxBank
  | 0, t => t
  | fuel + 1, t =>
    if t.txPos < donePos m ∧ t.txBoundary ≤ (t.txN : Num) then passSymbols c m fuel (framerNext c m t) else t

/-- The inner loop with the passes that are left until DONE: enough of them (`settle_done` in Laws/Transmit.lean). -/
def settle (c : ParamRegs) (m : Message) (t : TxBank) : TxBank := passSymbols c m (donePos m - t.txPos) t

/-- `tx_active <- none` (R142, 41_framer_scheduler.md R130): the message is complete. -/
def release (t : TxBank) : TxBank := { t with txActive := none }

/-- The outer loop of TX_TICK (R142) with no message active: take messages from the queue until one owns the next sample or
the queue is empty. A message whose tail has ended is completed at once. -/
def takeFrom (c : ParamRegs) : List Message → TxBank → TxBank × List Event
  | [], t => (t, [])
  | m :: q, t =>
    let t1 := settle c m (activate c m q t)
    if donePos m ≤ t1.txPos then
      let r := takeFrom c q (release t1)
      (r.1, .completed m.id :: r.2)
    else (t1, [])

/-- The outer loop of TX_TICK (R142): bring the Scheduler and the Framer to the symbol that owns sample `tx_n`. Afterwards
`tx_active` is `none` exactly when the Scheduler is idle. -/
def bringUp (c : ParamRegs) (t : TxBank) : TxBank × List Event :=
  match t.txActive with
  | none => takeFrom c t.txFifo t
  | some m =>
    let t1 := settle c m t
    if donePos m ≤ t1.txPos then
      let r := takeFrom c t1.txFifo (release t1)
      (r.1, .completed m.id :: r.2)
    else (t1, [])

/-- What one transmit tick leaves and returns. -/
structure TickResult where
  bank : TxBank
  sample : Option OutSample
  events : List Event
  deriving DecidableEq, Repr

/-- TX_TICK on a configured block (R142): bring up, then either idle (R143: the phase is zeroed, no sample) or select the
increment of the symbol's tone, step the oscillator, count the sample. -/
def txTick (c : ParamRegs) (t : TxBank) : TickResult :=
  let u := bringUp c t
  match u.1.txActive with
  | none => { bank := { u.1 with txPhase := 0 }, sample := none, events := u.2 }
  | some m =>
    let inc := toneSel c ((symTone m u.1.txPos).getD Config.toneOfDone)
    let o := oscStep inc { u.1 with txInc := inc }
    { bank := { o.2 with txN := o.2.txN + 1 }, sample := some o.1, events := u.2 }

/-- What a transmit block leaves and returns. -/
structure BlockResult where
  bank : TxBank
  samples : List OutSample
  events : List Event
  deriving DecidableEq, Repr

/-- TX_BLOCK on a configured block (R145): `n` ticks in order. -/
def txBlock (c : ParamRegs) : Nat → TxBank → BlockResult
  | 0, t => { bank := t, samples := [], events := [] }
  | n + 1, t =>
    let k := txTick c t
    let rest := txBlock c n k.bank
    { bank := rest.bank, samples := k.sample.toList ++ rest.samples, events := k.events ++ rest.events }

/-- TONE_SEL at the unit port (R140). Writes nothing. -/
def execToneSel (tone : Bit) (s : State) : Host.Outcome State Fault Refusal :=
  whenConfigured s (answer (.inc (toneSel s.params tone)) s)

/-- TX_TICK (R142; R148 while not configured: `ok`, no sample, no events, nothing changes). -/
def execTxTick (s : State) : Host.Outcome State Fault Refusal :=
  if s.configured then
    let k := txTick s.params s.tx
    answer (.txTick k.sample k.events) (s.withTx k.bank)
  else answer (.txTick none []) s

/-- TX_BLOCK (R145; R148 while not configured). -/
def execTxBlock (n : Nat) (s : State) : Host.Outcome State Fault Refusal :=
  if s.configured then
    let k := txBlock s.params n s.tx
    answer (.txBlock k.samples k.events) (s.withTx k.bank)
  else answer (.txBlock [] []) s

end Sys2Proof.Machine
end

