-- ==== Sys2Proof/Machine/SystemOps.lean ====
section
/-! DEFINITION. The system operations (47_system_ops.md): RESET, CONFIGURE, and the validity of a parameter set. -/

namespace Sys2Proof.Machine

/-- DELAY_LEN of a parameter record (10_state.md R31, 30_encoding.md R85): the direct field wins, else
`round(RX_DELAY × FS) − 1`, else absent. An integer here, because the rounding may give −1. -/
def delayLenOf (p : Params) : Option Int :=
  match p.delayLen with
  | some d => some (d : Int)
  | none => p.rxDelay.map fun d => roundHalfUp (d * p.fs) - 1

/-- CORR_LEN of a parameter record (10_state.md R32): the direct field, else `round((6/8) × FS / BAUD)`. -/
def corrLenOf (p : Params) : Int :=
  match p.corrLen with
  | some n => (n : Int)
  | none => roundHalfUp (6 / 8 * p.fs / p.baud)

/-- The parameter set and the derived constants CONFIGURE writes (47_system_ops.md R211, 10_state.md R22 to R33), quantised
once in a fixed-width build (R29, R211 (d); log entry 16). -/
def deriveRegs (b : Build) (p : Params) : ParamRegs :=
  { fs := p.fs, baud := p.baud, fMark := p.fMark, fSpace := p.fSpace, preDur := p.preDur, tailDur := p.tailDur,
    rxDelay := p.rxDelay
    incMark := quantise b.phaseWidth (p.fMark / p.fs)
    incSpace := quantise b.phaseWidth (p.fSpace / p.fs)
    symLen := quantise b.fracWidth (p.fs / p.baud)
    preLen := quantise b.fracWidth (p.preDur * p.fs)
    tailLen := quantise b.fracWidth (p.tailDur * p.fs)
    bitStep := quantise b.fracWidth (p.baud / p.fs)
    delayLen := ((delayLenOf p).getD 0).toNat
    corrLen := (corrLenOf p).toNat
    invert := decide (p.fMark < p.fSpace) }

/-- ValidConfig (47_system_ops.md R212), every row of its table, on the quantised values (R211 (d)). -/
def validConfig (b : Build) (p : Params) : Bool :=
  decide (0 < p.fs) && decide (0 < p.baud) && decide (0 < p.fMark) && decide (0 < p.fSpace)
    && decide (p.fMark ≠ p.fSpace)
    && decide (0 ≤ p.preDur) && decide (0 ≤ p.tailDur)
    && decide ((deriveRegs b p).incMark < 1) && decide ((deriveRegs b p).incSpace < 1)
    && decide (0 < (delayLenOf p).getD 0)
    && decide (0 < corrLenOf p)
    && p.rxDelay.all (fun d => decide (0 < d))

/-- The machine a successful CONFIGURE leaves (R211, 10_state.md R58). -/
def State.configuredWith (s : State) (p : Params) : State :=
  let c := deriveRegs s.build p
  { s with configured := true, params := c, tx := TxBank.cleared, rx := RxBank.cleared c.delayLen c.corrLen }

/-- The machine RESET leaves (R210): every register at its value after reset. The model's own fields are not registers of the
block: the straps and the requests still pending stay (log entry 24). -/
def State.afterReset (s : State) : State :=
  { s with configured := false, params := ParamRegs.cleared, tx := TxBank.cleared, rx := RxBank.cleared 0 0 }

/-- RESET (R210): never refused. -/
def execReset (s : State) : Host.Outcome State Fault Refusal := answer .ok s.afterReset

/-- CONFIGURE (R211): refused when configured (R214) and when the parameter set is invalid (R212, class (a) of R226). -/
def execConfigure (params : Params) (s : State) : Host.Outcome State Fault Refusal :=
  if s.configured then refuse s
  else if validConfig s.build params then answer .ok (s.configuredWith params)
  else refuse s

end Sys2Proof.Machine
end

