-- ==== Sys2Proof/Machine/Dispatch.lean ====
section
/-! DEFINITION. One arm per operation of the opcode table, each a call of its meaning. -/

namespace Sys2Proof.Machine

def exec (i : Instr) (s : State) : Host.Outcome State Fault Refusal :=
  match i with
  | .reset => Sys2Proof.Machine.execReset s
  | .configure params => Sys2Proof.Machine.execConfigure params s
  | .txSchedule id bytes => Sys2Proof.Machine.execTxSchedule id bytes s
  | .txTick => Sys2Proof.Machine.execTxTick s
  | .txBlock n => Sys2Proof.Machine.execTxBlock n s
  | .rxTick sample now => Sys2Proof.Machine.execRxTick sample now s
  | .rxBlock pairs => Sys2Proof.Machine.execRxBlock pairs s
  | .oscStep inc => Sys2Proof.Machine.execOscStep inc s
  | .toneSel tone => Sys2Proof.Machine.execToneSel tone s
  | .schedPop => Sys2Proof.Machine.execSchedPop s
  | .framerNext => Sys2Proof.Machine.execFramerNext s
  | .discStep sample => Sys2Proof.Machine.execDiscStep sample s
  | .btrStep raw => Sys2Proof.Machine.execBtrStep raw s
  | .deframeBit b now => Sys2Proof.Machine.execDeframeBit b now s
  | .deframeFail now => Sys2Proof.Machine.execDeframeFail now s
  | .deframeFlush now => Sys2Proof.Machine.execDeframeFlush now s
  | .framerSym => Sys2Proof.Machine.execFramerSym s

end Sys2Proof.Machine
end

