-- ==== Sys2Proof/Decode.lean ====
section
/-! DEFINITION. The decoder of the command word (30_encoding.md R81 to R84), total on every word, and after it the encoder. -/

namespace Sys2Proof

/-- Why a command word is reserved (30_encoding.md R84). The block answers each with status `refused`. -/
inductive DecodeError where
  /-- bits 7:5 are not 000 -/
  | zeroField (cmd : Cmd)
  /-- no operation has this selector: 0x00, 0x08 to 0x0F, 0x1A to 0x1F -/
  | unassigned (cmd : Cmd)
  /-- 0x10 to 0x19 in a build with UNIT_PORT = false -/
  | unitPortAbsent (cmd : Cmd)
  deriving DecidableEq, Repr

/-- Bits 7:5 of the command word (R81). -/
def cmdZero (cmd : Cmd) : BitVec 3 := cmd.extractLsb' 5 3

/-- Bit 4 of the command word (R81). -/
def cmdUnit (cmd : Cmd) : Bool := cmd.getLsbD 4

/-- Bits 3:0 of the command word (R81). -/
def cmdSel (cmd : Cmd) : BitVec 4 := cmd.extractLsb' 0 4

/-- The top-level group, `unit = 0` (R82). -/
def topLevelOp (sel : BitVec 4) : Option Opcode :=
  match sel.toNat with
  | 0x1 => some .reset
  | 0x2 => some .configure
  | 0x3 => some .txSchedule
  | 0x4 => some .txTick
  | 0x5 => some .txBlock
  | 0x6 => some .rxTick
  | 0x7 => some .rxBlock
  | _ => none

/-- The unit-level group, `unit = 1` (R83). -/
def unitLevelOp (sel : BitVec 4) : Option Opcode :=
  match sel.toNat with
  | 0x0 => some .oscStep
  | 0x1 => some .toneSel
  | 0x2 => some .schedPop
  | 0x3 => some .framerNext
  | 0x4 => some .discStep
  | 0x5 => some .btrStep
  | 0x6 => some .deframeBit
  | 0x7 => some .deframeFail
  | 0x8 => some .deframeFlush
  | 0x9 => some .framerSym
  | _ => none

/-- The operation a command word selects, or why the word is reserved (R81 to R84). -/
def decodeCmd (unitPort : Bool) (cmd : Cmd) : Except DecodeError Opcode :=
  if cmdZero cmd ≠ 0 then .error (.zeroField cmd)
  else if cmdUnit cmd then
    match unitLevelOp (cmdSel cmd) with
    | none => .error (.unassigned cmd)
    | some op => if unitPort then .ok op else .error (.unitPortAbsent cmd)
  else
    match topLevelOp (cmdSel cmd) with
    | none => .error (.unassigned cmd)
    | some op => .ok op

/-- An operation with the operand fields of its format (R82, R83, R85, R86). -/
def withOperands (o : Operands) : Opcode → Instr
  | .reset => .reset
  | .configure => .configure o.params
  | .txSchedule => .txSchedule o.id o.bytes
  | .txTick => .txTick
  | .txBlock => .txBlock o.n
  | .rxTick => .rxTick o.sample o.now
  | .rxBlock => .rxBlock o.pairs
  | .oscStep => .oscStep o.inc
  | .toneSel => .toneSel o.tone
  | .schedPop => .schedPop
  | .framerNext => .framerNext
  | .discStep => .discStep o.sample
  | .btrStep => .btrStep o.raw
  | .deframeBit => .deframeBit o.b o.now
  | .deframeFail => .deframeFail o.now
  | .deframeFlush => .deframeFlush o.now
  | .framerSym => .framerSym

/-- The instruction a request stands for. A reserved word is refused before any operand is looked at (60_exceptions.md R232 (6)). -/
def decode (unitPort : Bool) (r : Request) : Except DecodeError Instr :=
  match decodeCmd unitPort r.cmd with
  | .error e => .error e
  | .ok op => .ok (withOperands r.operands op)

/-- The command word of an operation (R82, R83). -/
def encodeCmd : Opcode → Cmd
  | .reset => 0x01#8
  | .configure => 0x02#8
  | .txSchedule => 0x03#8
  | .txTick => 0x04#8
  | .txBlock => 0x05#8
  | .rxTick => 0x06#8
  | .rxBlock => 0x07#8
  | .oscStep => 0x10#8
  | .toneSel => 0x11#8
  | .schedPop => 0x12#8
  | .framerNext => 0x13#8
  | .discStep => 0x14#8
  | .btrStep => 0x15#8
  | .deframeBit => 0x16#8
  | .deframeFail => 0x17#8
  | .deframeFlush => 0x18#8
  | .framerSym => 0x19#8

/-- The operand fields of an instruction's format, the other fields at their zeros. -/
def operandsOf : Instr → Operands
  | .configure p => { params := p }
  | .txSchedule id bytes => { id := id, bytes := bytes }
  | .txBlock n => { n := n }
  | .rxTick x now => { sample := x, now := now }
  | .rxBlock pairs => { pairs := pairs }
  | .oscStep inc => { inc := inc }
  | .toneSel tone => { tone := tone }
  | .discStep x => { sample := x }
  | .btrStep raw => { raw := raw }
  | .deframeBit b now => { b := b, now := now }
  | .deframeFail now => { now := now }
  | .deframeFlush now => { now := now }
  | .reset => {}
  | .txTick => {}
  | .schedPop => {}
  | .framerNext => {}
  | .framerSym => {}

/-- The request that presents an instruction. -/
def encode (i : Instr) : Request := { cmd := encodeCmd i.opcode, operands := operandsOf i }

/-- The instruction the decoder reads from a row of the opcode table: one command word of 8 bits (R81, R82, R83), in a build
with the unit port, with operand fields of zeros. There is one instruction length, so any other `nbits` is no instruction. -/
def decodeTableWord (nbits w : Nat) : Option Instr :=
  if nbits = 8 ∧ w < 256 then
    match decode true { cmd := BitVec.ofNat 8 w } with
    | .ok i => some i
    | .error _ => none
  else none

end Sys2Proof
end

