-- ==== Sys2Proof/Machine/Fetch.lean ====
section
/-! DEFINITION. Taking the next request from the command port (30_encoding.md R80). -/

namespace Sys2Proof.Machine

/-- What the port holds for the next step. -/
inductive Fetched where
  /-- nothing is pending -/
  | idle
  /-- a reserved command word (30_encoding.md R84) -/
  | reserved (e : DecodeError)
  /-- an operation -/
  | op (i : Instr)
  deriving DecidableEq, Repr

/-- The oldest pending request, decoded for this build (30_encoding.md R81 to R84). -/
def fetch (s : State) : Fetched :=
  match s.port with
  | [] => .idle
  | r :: _ =>
    match decode s.build.unitPort r with
    | .error e => .reserved e
    | .ok i => .op i

/-- The state the operation starts from: its request taken from the port, the last response taken back (R264). -/
def State.accept (s : State) : State := { s with port := s.port.tail, resp := none }

/-- A request for a command word of the opcode table with operand fields of zeros. -/
def tableRequest (w : Nat) : Request := { cmd := BitVec.ofNat 8 w }

end Sys2Proof.Machine
end

