-- ==== Sys2Proof/Machine/Step.lean ====
section
/-! DEFINITION. One step: one transaction from its command word to its response (30_encoding.md R80), or nothing when the
environment has presented none (20_memory.md R66). -/

namespace Sys2Proof.Machine

/-- One step. A reserved command word is answered `refused` and changes no register (30_encoding.md R84); with nothing
pending the block does nothing (60_exceptions.md R245; log entry 3). -/
def step (s : State) : Host.Outcome State Fault Refusal :=
  match fetch s with
  | .idle => .next s.accept
  | .reserved _ => refuse s.accept
  | .op i => exec i s.accept

/-- `s` with the command word `w` presented as the next request, its operand fields at their zeros. Every command word has 8
bits (R81), so `nbits` selects nothing. -/
def State.withFetchWord (s : State) (_nbits w : Nat) : State := { s with port := tableRequest w :: s.port }

end Sys2Proof.Machine
end

