-- ==== Sys2Proof/Machine/FixedWidth.lean ====
section
/-! DEFINITION. What a fixed-width build holds in place of the exact registers: the phase accumulator (40_oscillator.md R112),
the timing fraction and its sticky bit (70_reset_and_hazards.md R262), the saturating bit count (10_state.md R51) and the
internal codes (30_encoding.md R96 to R98, D25). None of it changes a rule (10_state.md R59). -/

namespace Sys2Proof.Machine

/-- The accumulator step: `P <- (P + FTW) mod 2^PW` (R112), the carry dropped. -/
def accStep {pw : Nat} (acc ftw : BitVec pw) : BitVec pw := acc + ftw

/-- The registers a Q-bit build keeps for Bit Timing Recovery (70_reset_and_hazards.md R262). -/
structure BtrFixed (q : Nat) where
  prev : Option Bit
  /-- `F`, the fractional part of `emitted_bits` -/
  frac : BitVec q
  /-- `ge1`, sticky: `emitted_bits ≥ 1` -/
  ge1 : Bool
  deriving DecidableEq, Repr

/-- The reset value of R262: `F = 0`, `ge1 = false`. -/
def BtrFixed.cleared (q : Nat) : BtrFixed q := { prev := none, frac := 0, ge1 := false }

/-- BTR_STEP in a Q-bit build with the quantised constant `bitStep` (R262). -/
def btrStepFixed {q : Nat} (bitStep : BitVec q) (raw : Bit) (f : BtrFixed q) : BtrResult × BtrFixed q :=
  if f.prev = some raw then
    let carry := BitVec.carry q f.frac bitStep false
    (if carry then .cleanBit raw else .nothing, { f with frac := f.frac + bitStep, ge1 := f.ge1 || carry })
  else
    (if !f.ge1 then .failure else .nothing, { prev := some raw, frac := BitVec.twoPow q (q - 1), ge1 := false })

/-- The registers of R262 stand for the exact ones: same previous bit, `F` the fraction, `ge1` the comparison with 1. -/
def BtrFixed.StandsFor {q : Nat} (f : BtrFixed q) (r : RxBank) : Prop :=
  f.prev = r.prevBit ∧ (f.frac.toNat : Num) / 2 ^ q = Int.fract r.emittedBits ∧ f.ge1 = decide (1 ≤ r.emittedBits)

/-- The bank as a build with a saturating count holds it: `min(symbol_count, 10)` (10_state.md R51, D21). -/
def RxBank.saturated (r : RxBank) : RxBank := { r with symbolCount := min r.symbolCount 10 }

/-- The machine as a build with a saturating count holds it (10_state.md R51, D21). -/
def State.saturated (s : State) : State := { s with rx := s.rx.saturated }

/-- Polarity and product in 2-bit two's complement: 01, 11, 00 (30_encoding.md R96). -/
def tritCode : Trit → BitVec 2
  | .pos => 0b01#2
  | .neg => 0b11#2
  | .zero => 0b00#2

/-- `prev_bit` in 2 bits, bit 1 = valid: 00, 10, 11 (30_encoding.md R97). -/
def prevBitCode : Option Bit → BitVec 2
  | none => 0b00#2
  | some false => 0b10#2
  | some true => 0b11#2

/-- BtrResult in 2 bits: 00, 10, 11, 01 (30_encoding.md R98). -/
def btrResultCode : BtrResult → BitVec 2
  | .nothing => 0b00#2
  | .cleanBit false => 0b10#2
  | .cleanBit true => 0b11#2
  | .failure => 0b01#2

/-- The width of `tx_pos`: `ceil(log2(3 + 10 × TX_MAXLEN))` (10_state.md R59), for the positions 0 to `2 + 10·N` (R42). -/
def txPosWidth (txMaxLen : Nat) : Nat := Nat.clog 2 (3 + 10 * txMaxLen)

/-- The length in samples of a message of `n` bytes, not rounded: `PRE_LEN + 10·n·SYM_LEN + TAIL_LEN` (41_framer_scheduler.md R128). -/
def messageEnd (c : ParamRegs) (n : Nat) : Num := c.preLen + (10 * n : Nat) * c.symLen + c.tailLen

/-- "longest message in samples" (10_state.md R59): the samples of a message of TX_MAXLEN bytes (41_framer_scheduler.md R128). -/
def longestMessage (c : ParamRegs) (txMaxLen : Nat) : Nat := ⌈messageEnd c txMaxLen⌉₊

/-- The width of `tx_n`: `ceil(log2(1 + longest message in samples))` (10_state.md R59). -/
def txNWidth (c : ParamRegs) (txMaxLen : Nat) : Nat := Nat.clog 2 (1 + longestMessage c txMaxLen)

/-- The width of `tx_boundary`: as `tx_n`, plus Q fractional bits (10_state.md R59). -/
def txBoundaryWidth (c : ParamRegs) (txMaxLen q : Nat) : Nat := txNWidth c txMaxLen + q

/-- The number that a register of `w` bits stands for when its lowest `q` bits are fractional (10_state.md R59). -/
def ofFixed (q : Nat) {w : Nat} (v : BitVec w) : Num := (v.toNat : Num) / 2 ^ q

/-- The width of `dpos` and of `cpos`: `ceil(log2(length of the ring))` (10_state.md R59). -/
def ringPosWidth (length : Nat) : Nat := Nat.clog 2 length

/-- The width of `symbol_count`: 4 bits, saturating at 10 (10_state.md R59). -/
def symbolCountWidth : Nat := 4

/-- The width a signed `corr_sum` register needs: `1 + ceil(log2(CORR_LEN + 1))` (10_state.md R47, R59). -/
def corrSumWidth (corrLen : Nat) : Nat := 1 + Nat.clog 2 (corrLen + 1)

end Sys2Proof.Machine
end

