-- ==== Sys2Proof/Machine/Pseudo.lean ====
section
/-! DEFINITION. The source's own names for operations and their expansion (30_encoding.md R102, 41_framer_scheduler.md R129). They
are not operations of the block: the environment issues what they expand to. -/

namespace Sys2Proof.Machine

/-- The calls of the source's interface (R102). -/
inductive Pseudo where
  | configure (params : Params)
  /-- `process(buffer)` on the Modulator -/
  | processTx (bufferLen : Nat)
  /-- `process(buffer)` on the Demodulator -/
  | processRx (buffer : List (InSample × Time))
  | schedule (id : MsgId) (bytes : List Byte)
  /-- `advance()` of the Scheduler -/
  | advance
  deriving DecidableEq, Repr

/-- `advance()`: SCHED_POP when no message is active (nothing when the queue is empty too), else FRAMER_NEXT (R129). -/
def advanceOp (t : TxBank) : Option Instr :=
  match t.txActive with
  | some _ => some .framerNext
  | none => if t.txFifo.isEmpty then none else some .schedPop

/-- The operation a call expands to, where it expands to one (R102). -/
def Pseudo.expand (t : TxBank) : Pseudo → Option Instr
  | .configure p => some (.configure p)
  | .processTx n => some (.txBlock n)
  | .processRx pairs => some (.rxBlock pairs)
  | .schedule id bytes => some (.txSchedule id bytes)
  | .advance => advanceOp t

end Sys2Proof.Machine
end

