-- ==== Sys2Proof/Machine/SineInstances.lean ====
section
/-! DEFINITION. The named instances of SINE and their properties (40_oscillator.md R114 to R116). The machine uses none of
them: its SINE is Config.sine, of which nothing is known (R113). -/

namespace Sys2Proof.Machine

/-- The values that the names of samples stand for make SINE the instance `f`. A claim that depends on sample values has such a
hypothesis, for the instance it assumes (R113); `f` may be valued in ℝ, as SINE_ideal is. -/
def Realises {α : Type} (val : OutSample → α) (f : Num → α) : Prop :=
  ∀ p : Num, 0 ≤ p → p < 1 → val (Config.sine p) = f p

/-- The ideal instance: `SINE_ideal(p) = sin(2π·p)` as a real number (R114). -/
noncomputable def sineIdeal (p : Num) : ℝ := Real.sin (2 * Real.pi * (p : ℝ))

/-- The truncating lookup instance: `T[floor(p × 2^AW)]` (40_oscillator.md R116). -/
def lutSine (aw : Nat) (table : List Int) (p : Num) : Int := table.getD ⌊p * 2 ^ aw⌋.toNat 0

/-- The table of R116 for AW = 4, SW = 8. -/
def sineTable16 : List Int := [0, 49, 90, 117, 127, 117, 90, 49, 0, -49, -90, -117, -127, -117, -90, -49]

/-- The instance of the test vectors (R116): AW = 4, SW = 8. -/
def sineLut16 (p : Num) : Int := lutSine 4 sineTable16 p

/-- An instance is sign-exact when `SINE(p) ≥ 0` exactly for `p ≤ 1/2`, on `[0, 1)`, and so negative exactly above it (R115). -/
def SignExact {α : Type} [LinearOrder α] [Zero α] (sine : Num → α) : Prop :=
  ∀ p : Num, 0 ≤ p → p < 1 → (0 ≤ sine p ↔ p ≤ 1 / 2)

/-- An instance, scaled to the amplitude `amp`, has the error bound `err`, the SINE_ERR of R114. -/
def SineErrorBound (amp err : ℝ) (sine : Num → ℝ) : Prop :=
  ∀ p : Num, 0 ≤ p → p < 1 → |sine p - amp * sineIdeal p| ≤ err

/-- `n` is `x` rounded to the nearest integer, halves away from zero (R116). -/
def IsRoundedHalfAway (n : Int) (x : ℝ) : Prop :=
  |(n : ℝ) - x| < 1 / 2 ∨ |(n : ℝ) - x| = 1 / 2 ∧ |x| < |(n : ℝ)|

/-- The table of R116 for the address width `aw` and the sample width `sw`. -/
def IsSineTable (aw sw : Nat) (table : List Int) : Prop :=
  table.length = 2 ^ aw ∧
    ∀ i : Nat, i < 2 ^ aw →
      IsRoundedHalfAway (table.getD i 0) ((2 ^ (sw - 1) - 1) * Real.sin (2 * Real.pi * i / 2 ^ aw))

end Sys2Proof.Machine
end

