-- ==== Sys2Proof/Safety.lean ====
section
/-! DEFINITION. The terms claims are stated in: the invariant of the machine, the two paths, and runs of one component. -/

namespace Sys2Proof.Machine

/-- Where symbol `k` of a message ends, in samples from its activation: `PRE_LEN`, then `SYM_LEN` for each bit symbol, then
`TAIL_LEN`, with no rounding (41_framer_scheduler.md R124, R131: the boundary B_k). DONE leaves it at the end of the tail. -/
def symbolEnd (c : ParamRegs) (m : Message) (k : Nat) : Num :=
  c.preLen + (min k (10 * m.bytes.length) : Nat) * c.symLen + (if 1 + 10 * m.bytes.length ≤ k then c.tailLen else 0)

/-- The invariant of the transmit bank. -/
structure TxBank.Inv (b : Build) (c : ParamRegs) (t : TxBank) : Prop where
  /-- 10_state.md R35 -/
  phase_nonneg : 0 ≤ t.txPhase
  /-- 10_state.md R35 -/
  phase_lt_one : t.txPhase < 1
  /-- 10_state.md R42 -/
  pos_le_done : ∀ m, t.txActive = some m → t.txPos ≤ donePos m
  /-- 10_state.md R36 -/
  inc_nonneg : 0 ≤ t.txInc
  /-- 10_state.md R59: 0 < INC < 1, and 0 before the first tone -/
  inc_lt_one : t.txInc < 1
  /-- 10_state.md R59: PW bits, all fractional -/
  phase_on_grid : ∀ w, b.phaseWidth = some w → onGrid w t.txPhase = true
  /-- 10_state.md R59: PW bits -/
  inc_on_grid : ∀ w, b.phaseWidth = some w → onGrid w t.txInc = true
  /-- 10_state.md R38 -/
  boundary_nonneg : 0 ≤ t.txBoundary
  /-- 10_state.md R59: Q fractional bits -/
  boundary_on_grid : ∀ q, b.fracWidth = some q → onGrid q t.txBoundary = true
  /-- 10_state.md R42, R59 -/
  pos_fits : ∀ d, b.txMaxLen = some d → t.txPos ≤ 2 + 10 * d
  /-- 10_state.md R38, R59 -/
  boundary_fits : ∀ d, b.txMaxLen = some d → t.txBoundary ≤ messageEnd c d
  /-- 10_state.md R37, R59 -/
  count_fits : ∀ d, b.txMaxLen = some d → t.txN ≤ longestMessage c d
  /-- 41_framer_scheduler.md R131 -/
  boundary_exact : ∀ m, t.txActive = some m → t.txBoundary = symbolEnd c m t.txPos
  /-- 20_memory.md R62 -/
  queue_fits : ∀ d, b.txqDepth = some d → t.txFifo.length ≤ d
  /-- 93_implementation_defined.md U7 -/
  payloads_fit : ∀ d, b.txMaxLen = some d → ∀ m ∈ t.txFifo, m.bytes.length ≤ d
  /-- 93_implementation_defined.md U7 -/
  active_fits : ∀ d, b.txMaxLen = some d → ∀ m, t.txActive = some m → m.bytes.length ≤ d

/-- The invariant of the receive bank. -/
structure RxBank.Inv (c : ParamRegs) (r : RxBank) : Prop where
  /-- 10_state.md R43 -/
  delay_length : r.delayLine.length = c.delayLen
  /-- 10_state.md R45 -/
  ring_length : r.corrRing.length = c.corrLen
  /-- 10_state.md R44 (and 0 while there are no entries, R58) -/
  dpos_lt : r.dpos < c.delayLen ∨ c.delayLen = 0 ∧ r.dpos = 0
  /-- 10_state.md R46 (and 0 while there are no entries, R58) -/
  cpos_lt : r.cpos < c.corrLen ∨ c.corrLen = 0 ∧ r.cpos = 0
  /-- 10_state.md R47, 43_discriminator.md R159 (a) -/
  sum_exact : r.corrSum = (r.corrRing.map tritInt).sum
  /-- 10_state.md R48, R49: before the first raw bit -/
  emitted_fresh : r.prevBit = none → r.emittedBits = 0
  /-- 44_bit_timing.md R171: after the first raw bit -/
  emitted_running : r.prevBit ≠ none → 1 / 2 ≤ r.emittedBits
  /-- 10_state.md R53 -/
  start_iff : r.rxStart.isSome = true ↔ r.rxBytes ≠ []

/-- The invariant of the machine: it holds at reset and every step keeps it. -/
structure State.Inv (s : State) : Prop where
  /-- while not configured every register holds its value after RESET (10_state.md R58) -/
  unconfigured : s.configured = false →
    s.params = ParamRegs.cleared ∧ s.tx = TxBank.cleared ∧ s.rx = RxBank.cleared 0 0
  /-- the parameter set is one that CONFIGURE accepted, and its derived constants (10_state.md R21, R29 to R33) -/
  configured : s.configured = true → ∃ p, validConfig s.build p = true ∧ s.params = deriveRegs s.build p
  tx : s.tx.Inv s.build s.params
  rx : s.rx.Inv s.params
  /-- 20_memory.md R63, with log entry 6 -/
  received_fit : ∀ d, s.build.rxMaxLen = some d → s.rx.rxBytes.length ≤ d
  /-- 10_state.md R59, 70_reset_and_hazards.md R262: Q fractional bits, at least the one that 1/2 needs -/
  emitted_on_grid : ∀ q, s.build.fracWidth = some (q + 1) → onGrid (q + 1) s.rx.emittedBits = true

end Sys2Proof.Machine

namespace Sys2Proof

/-- The operations of the transmit path (10_state.md R56). -/
def Instr.isTransmit : Instr → Bool
  | .txSchedule _ _ | .txTick | .txBlock _ | .oscStep _ | .toneSel _ | .schedPop | .framerNext | .framerSym => true
  | .reset | .configure _ | .rxTick _ _ | .rxBlock _ | .discStep _ | .btrStep _ => false
  | .deframeBit _ _ | .deframeFail _ | .deframeFlush _ => false

/-- The operations of the receive path (10_state.md R56). -/
def Instr.isReceive : Instr → Bool
  | .rxTick _ _ | .rxBlock _ | .discStep _ | .btrStep _ | .deframeBit _ _ | .deframeFail _ | .deframeFlush _ => true
  | .reset | .configure _ | .txSchedule _ _ | .txTick | .txBlock _ => false
  | .oscStep _ | .toneSel _ | .schedPop | .framerNext | .framerSym => false

/-- The id an event reports complete, if it is a completion. -/
def Event.completedId : Event → Option MsgId
  | .completed id => some id
  | .received _ _ _ => none

/-- The bytes an event delivers, if it is a received message. -/
def Event.receivedBytes : Event → List Byte
  | .completed _ => []
  | .received bytes _ _ => bytes

end Sys2Proof

namespace Sys2Proof.Machine

/-- The ids still to be completed, in order: the active message's and the queue's (41_framer_scheduler.md R130). -/
def pendingIds (t : TxBank) : List MsgId := (t.txActive.toList ++ t.txFifo).map Message.id

/-- The events a response carries (30_encoding.md R87). -/
def Response.eventList : Response → List Event
  | .txTick _ ev => ev
  | .txBlock _ ev => ev
  | .events ev => ev
  | .refused | .ok | .sample _ | .inc _ | .raw _ | .btr _ | .symbol _ _ _ => []

/-- The events the last operation returned. -/
def State.lastEvents (s : State) : List Event := (s.resp.map Response.eventList).getD []

/-- The bytes that the ticks of a block decode, in order (46_demodulator.md R201). -/
def blockBytes (c : ParamRegs) : List (Sample × Time) → RxBank → List Byte
  | [], _ => []
  | (x, now) :: rest, r => (tickByte c x r).toList ++ blockBytes c rest (rxTick c x now r).2

/-- The bytes that an operation decodes on a configured block (45_deframer.md R186, 46_demodulator.md R200, R201): DEFRAME_BIT the byte
of its window, the receive ticks those of the clean bits they pass on, every other operation none. -/
def decodedBytes (s : State) : Instr → List Byte
  | .deframeBit b _ => (decodedByte b s.rx).toList
  | .rxTick (.num x) _ => (tickByte s.params x s.rx).toList
  | .rxBlock pairs => blockBytes s.params ((numericPairs pairs).getD []) s.rx
  | .rxTick .nonNumeric _ | .reset | .configure _ | .txSchedule _ _ | .txTick | .txBlock _ | .oscStep _ | .toneSel _ => []
  | .schedPop | .framerNext | .framerSym | .discStep _ | .btrStep _ | .deframeFail _ | .deframeFlush _ => []

/-- Oscillator steps with the given increments (40_oscillator.md R117): the samples, and the bank afterwards. -/
def oscRun : List Num → TxBank → List OutSample × TxBank
  | [], t => ([], t)
  | inc :: rest, t =>
    let o := oscStep inc t
    let e := oscRun rest o.2
    (o.1 :: e.1, e.2)

/-- Samples through the Discriminator alone: the raw bits, and the bank afterwards. -/
def discRun (c : ParamRegs) : List Sample → RxBank → List Bit × RxBank
  | [], r => ([], r)
  | x :: xs, r =>
    let d := discStep c x r
    let e := discRun c xs d.2
    (d.1 :: e.1, e.2)

/-- Raw bits through Bit Timing Recovery alone: the results, and the bank afterwards. -/
def btrRun (c : ParamRegs) : List Bit → RxBank → List BtrResult × RxBank
  | [], r => ([], r)
  | b :: bs, r =>
    let d := btrStep c b r
    let e := btrRun c bs d.2
    (d.1 :: e.1, e.2)

/-- Clean bits with their stamps through the Deframer alone (45_deframer.md R193): the events, and the bank afterwards. -/
def deframeRun : List (Bit × Time) → RxBank → List Event × RxBank
  | [], r => ([], r)
  | (b, now) :: rest, r =>
    let d := deframeBit b now r
    let e := deframeRun rest d.2
    (d.1 ++ e.1, e.2)

/-- The tones of the symbols of a message between the preamble and the tail: positions `1` to `10·N` (41_framer_scheduler.md
R122), in order. -/
def frameBits (m : Message) : List Bit :=
  (List.range (10 * m.bytes.length)).map fun k => (symTone m (k + 1)).getD Config.toneOfDone

end Sys2Proof.Machine
end

