-- ==== Sys2Proof/Certificates/Slice0/Obligations.lean ====
section
/-! DEFINITION. The statements for the provers, from the numbered rules of spec/. -/

open Sys2Proof Sys2Proof.Machine

/-! ### Decoding and the step -/

/-- Decode and encode agree (30_encoding.md R81 to R86): a request decodes to `i` exactly when its command word is `i`'s, its
build has the operation, and `i` takes its operands from the request; and every well-formed instruction is decoded from its
encoding, operands and all. -/
def Obligations.DecodeEncodeAgree : Prop :=
  (∀ (unitPort : Bool) (r : Request) (i : Instr),
    decode unitPort r = .ok i ↔
      r.cmd = encodeCmd i.opcode ∧ (i.opcode.isUnit = true → unitPort = true) ∧ i = withOperands r.operands i.opcode) ∧
  (∀ (unitPort : Bool) (i : Instr), i.wf = true → (i.opcode.isUnit = true → unitPort = true) →
    decode unitPort (encode i) = .ok i)

/-- The words of 30_encoding.md R82 and R83, written out, decode to the operations they stand for. -/
def Obligations.CommandWordsDecode : Prop :=
  decodeTableWord 8 0b00000001 = some .reset ∧ decodeTableWord 8 0b00000010 = some (.configure {}) ∧
  decodeTableWord 8 0b00000011 = some (.txSchedule ⟨0⟩ []) ∧ decodeTableWord 8 0b00000100 = some .txTick ∧
  decodeTableWord 8 0b00000110 = some (.rxTick (.num 0) ⟨0⟩) ∧ decodeTableWord 8 0b00010000 = some (.oscStep 0) ∧
  decodeTableWord 8 0b00010010 = some .schedPop ∧ decodeTableWord 8 0b00010100 = some (.discStep (.num 0)) ∧
  decodeTableWord 8 0b00010101 = some (.btrStep false) ∧ decodeTableWord 8 0b00010110 = some (.deframeBit false ⟨0⟩) ∧
  decodeTableWord 8 0b00011001 = some .framerSym

/-- Every reserved command word of 30_encoding.md R84, whatever its operands: the step answers `refused` and changes no register. -/
def Obligations.ReservedWordsRefused : Prop :=
  ∀ (s : State) (r : Request) (rest : List Request), s.port = r :: rest →
    (0x20 ≤ r.cmd.toNat ∨ r.cmd.toNat = 0 ∨ (0x08 ≤ r.cmd.toNat ∧ r.cmd.toNat ≤ 0x0F) ∨
      (0x1A ≤ r.cmd.toNat ∧ r.cmd.toNat ≤ 0x1F) ∨
      (s.build.unitPort = false ∧ 0x10 ≤ r.cmd.toNat ∧ r.cmd.toNat ≤ 0x19)) →
    step s = .next { s with port := rest, resp := some .refused }

/-- A step runs the decoded instruction, one with an operand its format does not admit too (30_encoding.md R80): it takes the request from the port and the last response back. -/
def Obligations.StepRunsDecoded : Prop :=
  ∀ (s : State) (r : Request) (rest : List Request) (i : Instr), s.port = r :: rest →
    decode s.build.unitPort r = .ok i →
    step s = exec i { s with port := rest, resp := none }

/-- With nothing presented a step changes no register (60_exceptions.md R245). That such a step exists, and that it takes the
last response back, is the model's choice (log entries 2 and 3). -/
def Obligations.StepIdleChangesNothing : Prop :=
  ∀ s : State, s.port = [] → step s = .next { s with resp := none }

/-- Every step answers a next state, takes one request from the port, and leaves the build straps. 60_exceptions.md R237 says so of
the operations of a configured block; that it holds of every state is the model's: the port and the rule that a step takes a request
from it (log entry 1), the response that the next step takes back (log entry 2), the step with an empty port (log entry 3), the status
`refused` as a next state and not a stop (log entry 4), and the straps that no step writes (log entry 5). -/
def Obligations.StepAlwaysAnswers : Prop :=
  ∀ s : State, ∃ t, step s = .next t ∧ t.build = s.build ∧ t.port = s.port.tail ∧ (t.resp = none ↔ s.port = [])

/-! ### The invariant and reset -/

/-- Every step keeps the invariant (10_state.md R35, R42 to R47, R49, R53, R58, R59; 20_memory.md R62, R63; 41_framer_scheduler.md R131;
43_discriminator.md R159; 44_bit_timing.md R171; 93_implementation_defined.md U6, U7). Its clause on a block that is not configured says
that the parameter registers hold zeros: R58 gives them no value, so that clause is the model's choice (log entry 11, unsafe). The
capacities are straps of the model (log entry 5), that of the receive byte buffer with the reading of log entry 6, the bits of the phase
with that of log entry 26. -/
def Obligations.StepKeepsInv : Prop :=
  ∀ s t : State, s.Inv → step s = .next t → t.Inv

/-- The invariant holds at reset (10_state.md R58). Its clauses that the parameter registers are zero, and that the rings have the lengths
DELAY_LEN = CORR_LEN = 0, are the model's choice: R58 gives those registers no value (log entry 11, unsafe). -/
def Obligations.ResetHasInv : Prop := State.reset.Inv

/-- The values 10_state.md R58 gives after RESET. -/
def Obligations.ResetLeavesTableValues : Prop :=
  State.reset.configured = false ∧ State.reset.tx.txPhase = 0 ∧ State.reset.tx.txInc = 0 ∧ State.reset.tx.txN = 0 ∧
  State.reset.tx.txBoundary = 0 ∧ State.reset.tx.txActive = none ∧ State.reset.tx.txPos = 0 ∧
  State.reset.tx.txFifo = [] ∧ State.reset.rx.delayLine = [] ∧ State.reset.rx.dpos = 0 ∧ State.reset.rx.corrRing = [] ∧
  State.reset.rx.cpos = 0 ∧ State.reset.rx.corrSum = 0 ∧ State.reset.rx.prevBit = none ∧
  State.reset.rx.emittedBits = 0 ∧ State.reset.rx.symbolBuffer = 0 ∧ State.reset.rx.symbolCount = 0 ∧
  State.reset.rx.rxBytes = [] ∧ State.reset.rx.rxStart = none

/-! ### System operations -/

/-- RESET is never refused and puts every register at its value after reset (47_system_ops.md R210). The zeros of the parameter
registers are the model's choice (log entry 11); that the straps and the pending requests stay is too (log entry 24). -/
def Obligations.ResetRestoresEverything : Prop :=
  ∀ s : State, exec .reset s = .next { State.reset with build := s.build, port := s.port, resp := some .ok }

/-- A CONFIGURE of a parameter set that meets every row of 47_system_ops.md R212 is accepted (R211, 10_state.md R22 to R33): the parameter set, the derived constants and both
banks. In a fixed-width build the increments are quantised as R29 states; that the other constants are quantised the same way
is the model's reading (log entry 16). -/
def Obligations.ConfigureWritesParameters : Prop :=
  ∀ (s : State) (p : Params), s.configured = false →
    0 < p.fs → 0 < p.baud → 0 < p.fMark → 0 < p.fSpace → p.fMark ≠ p.fSpace → 0 ≤ p.preDur → 0 ≤ p.tailDur →
    (s.build.phaseWidth = none → p.fMark < p.fs ∧ p.fSpace < p.fs) →
    (∀ w, s.build.phaseWidth = some w →
      (⌊p.fMark / p.fs * 2 ^ w + 1 / 2⌋ : ℚ) / 2 ^ w < 1 ∧ (⌊p.fSpace / p.fs * 2 ^ w + 1 / 2⌋ : ℚ) / 2 ^ w < 1) →
    (∀ d, p.delayLen = some d → 0 < d) → (p.delayLen = none → ∃ d, p.rxDelay = some d ∧ 3 / 2 ≤ d * p.fs) →
    (∀ n, p.corrLen = some n → 0 < n) → (p.corrLen = none → 2 / 3 ≤ p.fs / p.baud) →
    (∀ d, p.rxDelay = some d → 0 < d) →
    ∃ t, exec (.configure p) s = .next t ∧ t.configured = true ∧
      t.params.fs = p.fs ∧ t.params.baud = p.baud ∧ t.params.fMark = p.fMark ∧ t.params.fSpace = p.fSpace ∧
      t.params.preDur = p.preDur ∧ t.params.tailDur = p.tailDur ∧ t.params.rxDelay = p.rxDelay ∧
      (s.build.phaseWidth = none → t.params.incMark = p.fMark / p.fs ∧ t.params.incSpace = p.fSpace / p.fs) ∧
      (∀ w, s.build.phaseWidth = some w →
        t.params.incMark = (⌊p.fMark / p.fs * 2 ^ w + 1 / 2⌋ : ℚ) / 2 ^ w ∧
        t.params.incSpace = (⌊p.fSpace / p.fs * 2 ^ w + 1 / 2⌋ : ℚ) / 2 ^ w) ∧
      (s.build.fracWidth = none → t.params.symLen = p.fs / p.baud ∧ t.params.preLen = p.preDur * p.fs ∧
        t.params.tailLen = p.tailDur * p.fs ∧ t.params.bitStep = p.baud / p.fs) ∧
      (∀ d, p.delayLen = some d → t.params.delayLen = d) ∧
      (∀ d, p.delayLen = none → p.rxDelay = some d → (t.params.delayLen : Int) = ⌊d * p.fs + 1 / 2⌋ - 1) ∧
      (∀ n, p.corrLen = some n → t.params.corrLen = n) ∧
      (p.corrLen = none → (t.params.corrLen : Int) = ⌊6 / 8 * p.fs / p.baud + 1 / 2⌋) ∧
      (t.params.invert = true ↔ p.fMark < p.fSpace) ∧
      t.tx = { txPhase := 0, txInc := 0, txN := 0, txBoundary := 0, txActive := none, txPos := 0, txFifo := [] } ∧
      t.rx = { delayLine := List.replicate t.params.delayLen .zero, dpos := 0,
               corrRing := List.replicate t.params.corrLen .zero, cpos := 0, corrSum := 0, prevBit := none,
               emittedBits := 0, symbolBuffer := 0, symbolCount := 0, rxBytes := [], rxStart := none } ∧
      t.build = s.build ∧ t.port = s.port ∧ t.resp = some .ok

/-- A CONFIGURE whose parameter set breaks a row of 47_system_ops.md R212 is refused and writes nothing (60_exceptions.md R226), in
every build: a tone at or above FS, and in a build with a PW-bit phase one that rounds up to it (R211 (d), 10_state.md R29). That
the last row holds beside a direct `delay_len` too is the model's reading (log entry 17). -/
def Obligations.InvalidConfigureRefused : Prop :=
  ∀ (s : State) (p : Params), s.configured = false →
    (p.fs ≤ 0 ∨ p.baud ≤ 0 ∨ p.fMark ≤ 0 ∨ p.fSpace ≤ 0 ∨ p.fMark = p.fSpace ∨ p.preDur < 0 ∨ p.tailDur < 0 ∨
      p.fs ≤ p.fMark ∨ p.fs ≤ p.fSpace ∨
      (∃ w, s.build.phaseWidth = some w ∧
        (1 ≤ (⌊p.fMark / p.fs * 2 ^ w + 1 / 2⌋ : ℚ) / 2 ^ w ∨ 1 ≤ (⌊p.fSpace / p.fs * 2 ^ w + 1 / 2⌋ : ℚ) / 2 ^ w)) ∨
      (p.delayLen = none ∧ p.rxDelay = none) ∨ p.delayLen = some 0 ∨
      (p.delayLen = none ∧ ∃ d, p.rxDelay = some d ∧ d * p.fs < 3 / 2) ∨ p.corrLen = some 0 ∨
      (p.corrLen = none ∧ p.fs / p.baud < 2 / 3) ∨ (∃ d, p.rxDelay = some d ∧ d ≤ 0)) →
    exec (.configure p) s = .next { s with resp := some .refused }

/-- One configuration per life (47_system_ops.md R214): CONFIGURE while configured is refused and changes nothing. -/
def Obligations.SecondConfigureRefused : Prop :=
  ∀ (s : State) (p : Params), s.configured = true → exec (.configure p) s = .next { s with resp := some .refused }

/-- The parameter set is immutable (10_state.md R21, R34): only RESET ends a configuration. -/
def Obligations.ConfigurationIsImmutable : Prop :=
  ∀ (i : Instr) (s t : State), s.configured = true → i ≠ .reset → exec i s = .next t →
    t.configured = true ∧ t.params = s.params

/-- While not configured, TX_SCHEDULE and every unit-level operation is refused (47_system_ops.md R213). -/
def Obligations.UnconfiguredOperationsRefused : Prop :=
  ∀ (s : State) (i : Instr), s.configured = false →
    (i.opcode.isUnit = true ∨ ∃ id bytes, i = .txSchedule id bytes) →
    exec i s = .next { s with resp := some .refused }

/-- While not configured the sample operations answer `ok` with nothing and change nothing (42_modulator.md R148,
46_demodulator.md R204), a sample that is not a number included (60_exceptions.md R232 (3)). -/
def Obligations.UnconfiguredTicksAreSilent : Prop :=
  ∀ s : State, s.configured = false →
    exec .txTick s = .next { s with resp := some (.txTick none []) } ∧
    (∀ n, exec (.txBlock n) s = .next { s with resp := some (.txBlock [] []) }) ∧
    (∀ x now, exec (.rxTick x now) s = .next { s with resp := some (.events []) }) ∧
    (∀ pairs, exec (.rxBlock pairs) s = .next { s with resp := some (.events []) })

/-! ### Oscillator and tone mux -/

/-- OSC_STEP (40_oscillator.md R111, R112): the sample before the advance, the single subtraction at `≥ 1`, nothing else written; and
its refusals. In a build with a PW-bit phase and an increment that is no multiple of `2^−PW` the spec states no result (10_state.md
R59): there the phase advances by some value of PW bits, the model's choice (log entry 26). -/
def Obligations.OscStepAdvancesPhase : Prop :=
  ∀ (s : State) (inc : ℚ),
    (s.configured = true → 0 ≤ inc → inc < 1 →
      (∀ w, s.build.phaseWidth = some w → ∃ n : Int, inc * 2 ^ w = n) →
      exec (.oscStep inc) s = .next { s with
        tx := { s.tx with
          txPhase := if 1 ≤ s.tx.txPhase + inc then s.tx.txPhase + inc - 1 else s.tx.txPhase + inc }
        resp := some (.sample (Config.sine s.tx.txPhase)) }) ∧
    (∀ w, s.configured = true → 0 ≤ inc → inc < 1 → s.build.phaseWidth = some w →
      ∃ v : BitVec w, exec (.oscStep inc) s = .next { s with
        tx := { s.tx with
          txPhase := if 1 ≤ s.tx.txPhase + (v.toNat : ℚ) / 2 ^ w then s.tx.txPhase + (v.toNat : ℚ) / 2 ^ w - 1
            else s.tx.txPhase + (v.toNat : ℚ) / 2 ^ w }
        resp := some (.sample (Config.sine s.tx.txPhase)) }) ∧
    (s.configured = false ∨ inc < 0 ∨ 1 ≤ inc → exec (.oscStep inc) s = .next { s with resp := some .refused })

/-- The phase law (40_oscillator.md R117), with varying increments: the phase after the steps is the start plus the increments
modulo 1, and sample `k` is the sine of the phase after `k` increments. -/
def Obligations.PhaseLaw : Prop :=
  ∀ (incs : List ℚ) (t : TxBank), 0 ≤ t.txPhase → t.txPhase < 1 → (∀ inc ∈ incs, 0 ≤ inc ∧ inc < 1) →
    (oscRun incs t).2 = { t with txPhase := Int.fract (t.txPhase + incs.sum) } ∧
    (oscRun incs t).1.length = incs.length ∧
    ∀ k, k < incs.length →
      (oscRun incs t).1[k]? = some (Config.sine (Int.fract (t.txPhase + (incs.take k).sum)))

/-- TONE_SEL (42_modulator.md R140): bit 1 selects INC_MARK, bit 0 INC_SPACE; nothing is written. -/
def Obligations.ToneSelSelectsIncrement : Prop :=
  ∀ s : State,
    (s.configured = true →
      exec (.toneSel true) s = .next { s with resp := some (.inc s.params.incMark) } ∧
      exec (.toneSel false) s = .next { s with resp := some (.inc s.params.incSpace) }) ∧
    (s.configured = false → ∀ tone, exec (.toneSel tone) s = .next { s with resp := some .refused })

/-- The sign of the lookup instance (40_oscillator.md R115), for every table of R116 whose entry 1 is not 0: it is odd-symmetric and
non-negative exactly below `1/2 + 2^−AW`; it has the sign of the ideal instance everywhere but strictly between `1/2` and `1/2 + 2^−AW`,
where it is 0 and the ideal sine negative, and so at every multiple of `2^−AW`. R115 asks SW ≥ 3, which is enough for AW = 4; that entry 1
must not be 0 in general is the model's reading (log entry 27). -/
def Obligations.LookupSineSign : Prop :=
  (∀ (aw sw : Nat) (table : List Int), IsSineTable aw sw table → 0 < table.getD 1 0 →
    (∀ p : ℚ, 0 ≤ p → p < 1 → (0 ≤ lutSine aw table p ↔ p < 1 / 2 + 1 / 2 ^ aw)) ∧
    (∀ p : ℚ, 0 ≤ p → p < 1 / 2 → lutSine aw table (p + 1 / 2) = -lutSine aw table p) ∧
    (∀ p : ℚ, 0 ≤ p → p < 1 → (p ≤ 1 / 2 ∨ 1 / 2 + 1 / 2 ^ aw ≤ p) → (0 ≤ lutSine aw table p ↔ 0 ≤ sineIdeal p)) ∧
    (∀ p : ℚ, 1 / 2 < p → p < 1 / 2 + 1 / 2 ^ aw → lutSine aw table p = 0 ∧ sineIdeal p < 0) ∧
    (∀ n : Nat, n < 2 ^ aw → (0 ≤ lutSine aw table ((n : ℚ) / 2 ^ aw) ↔ 0 ≤ sineIdeal ((n : ℚ) / 2 ^ aw)))) ∧
  (∀ (sw : Nat) (table : List Int), 3 ≤ sw → IsSineTable 4 sw table → 0 < table.getD 1 0)

/-- The properties of the ideal instance that 40_oscillator.md R114 lists, and that it is sign-exact (R115). -/
def Obligations.IdealSineProperties : Prop :=
  sineIdeal 0 = 0 ∧ sineIdeal (1 / 2) = 0 ∧
  (∀ p : ℚ, 0 < p → p < 1 / 2 → 0 < sineIdeal p) ∧ (∀ p : ℚ, 1 / 2 < p → p < 1 → sineIdeal p < 0) ∧
  sineIdeal (1 / 4) = 1 ∧ sineIdeal (3 / 4) = -1 ∧
  (∀ p : ℚ, 0 ≤ p → p < 1 / 2 → sineIdeal (p + 1 / 2) = -sineIdeal p) ∧
  (∀ p : ℚ, 0 ≤ p → p ≤ 1 / 2 → sineIdeal (1 / 2 - p) = sineIdeal p) ∧
  SignExact sineIdeal

/-- The table of 40_oscillator.md R116 for AW = 4, SW = 8 holds the rounded sines. -/
def Obligations.LookupTableIsRoundedSine : Prop := IsSineTable 4 8 sineTable16

/-! ### Framer and Scheduler -/

/-- The symbols of a message (41_framer_scheduler.md R121 to R123): kind, tone and length of every position. -/
def Obligations.SymbolSequence : Prop :=
  ∀ (c : ParamRegs) (m : Message),
    (symKind m 0 = .pre ∧ symTone m 0 = some true ∧ symDur c m 0 = some c.preLen) ∧
    (∀ i, i < m.bytes.length →
      symKind m (1 + 10 * i) = .start i ∧ symTone m (1 + 10 * i) = some false ∧
        symDur c m (1 + 10 * i) = some c.symLen ∧
      symKind m (10 + 10 * i) = .stop i ∧ symTone m (10 + 10 * i) = some true ∧
        symDur c m (10 + 10 * i) = some c.symLen ∧
      ∀ j, j < 8 →
        symKind m (2 + 10 * i + j) = .data i j ∧
        symTone m (2 + 10 * i + j) = some ((m.bytes.getD i 0).getLsbD j) ∧
        symDur c m (2 + 10 * i + j) = some c.symLen) ∧
    (symKind m (1 + 10 * m.bytes.length) = .tail ∧ symTone m (1 + 10 * m.bytes.length) = some true ∧
      symDur c m (1 + 10 * m.bytes.length) = some c.tailLen) ∧
    symKind m (2 + 10 * m.bytes.length) = .done

/-- TX_SCHEDULE (41_framer_scheduler.md R126): appends at the tail of the queue and writes nothing else; refused before CONFIGURE,
and in a bounded build on a full queue (20_memory.md R62) or for a payload longer than its store (93_implementation_defined.md U7). The
two capacities are straps of the model (log entry 5). -/
def Obligations.TxScheduleAppends : Prop :=
  ∀ (s : State) (id : MsgId) (bytes : List Byte),
    (s.configured = true → (∀ d, s.build.txqDepth = some d → s.tx.txFifo.length < d) →
      (∀ d, s.build.txMaxLen = some d → bytes.length ≤ d) →
      exec (.txSchedule id bytes) s = .next { s with
        tx := { s.tx with txFifo := s.tx.txFifo ++ [{ id := id, bytes := bytes }] }
        resp := some .ok }) ∧
    (s.configured = false ∨ (∃ d, s.build.txqDepth = some d ∧ d ≤ s.tx.txFifo.length) ∨
      (∃ d, s.build.txMaxLen = some d ∧ d < bytes.length) →
      exec (.txSchedule id bytes) s = .next { s with resp := some .refused })

/-- SCHED_POP (41_framer_scheduler.md R127): the head of the queue becomes active at position 0, sample 0, boundary PRE_LEN; the
phase is not touched; refused otherwise. -/
def Obligations.SchedPopActivatesHead : Prop :=
  ∀ s : State,
    (∀ m q, s.configured = true → s.tx.txActive = none → s.tx.txFifo = m :: q →
      exec .schedPop s = .next { s with
        tx := { s.tx with
          txActive := some m, txFifo := q, txPos := 0, txN := 0, txBoundary := s.params.preLen }
        resp := some .ok }) ∧
    (s.configured = false ∨ s.tx.txActive ≠ none ∨ s.tx.txFifo = [] →
      exec .schedPop s = .next { s with resp := some .refused })

/-- FRAMER_NEXT (41_framer_scheduler.md R124): the next position; its length is added to the boundary unless it is DONE; refused
with no active message and at DONE. -/
def Obligations.FramerNextMovesOn : Prop :=
  ∀ s : State,
    (∀ m, s.configured = true → s.tx.txActive = some m → s.tx.txPos < 10 * m.bytes.length →
      exec .framerNext s = .next { s with
        tx := { s.tx with txPos := s.tx.txPos + 1, txBoundary := s.tx.txBoundary + s.params.symLen }
        resp := some .ok }) ∧
    (∀ m, s.configured = true → s.tx.txActive = some m → s.tx.txPos = 10 * m.bytes.length →
      exec .framerNext s = .next { s with
        tx := { s.tx with txPos := s.tx.txPos + 1, txBoundary := s.tx.txBoundary + s.params.tailLen }
        resp := some .ok }) ∧
    (∀ m, s.configured = true → s.tx.txActive = some m → s.tx.txPos = 1 + 10 * m.bytes.length →
      exec .framerNext s = .next { s with tx := { s.tx with txPos := s.tx.txPos + 1 }, resp := some .ok }) ∧
    (s.configured = false ∨ s.tx.txActive = none ∨
      (∃ m, s.tx.txActive = some m ∧ s.tx.txPos = 2 + 10 * m.bytes.length) →
      exec .framerNext s = .next { s with resp := some .refused })

/-- FRAMER_SYM (41_framer_scheduler.md R125): reads the current symbol and writes nothing; tone and length are `none` at DONE. -/
def Obligations.FramerSymReads : Prop :=
  ∀ s : State,
    (∀ m, s.configured = true → s.tx.txActive = some m → s.tx.txPos < 2 + 10 * m.bytes.length →
      ∃ kind tone len, symKind m s.tx.txPos = kind ∧ symTone m s.tx.txPos = some tone ∧
        symDur s.params m s.tx.txPos = some len ∧
        exec .framerSym s = .next { s with resp := some (.symbol kind (some tone) (some len)) }) ∧
    (∀ m, s.configured = true → s.tx.txActive = some m → s.tx.txPos = 2 + 10 * m.bytes.length →
      exec .framerSym s = .next { s with resp := some (.symbol .done none none) }) ∧
    (s.configured = false ∨ s.tx.txActive = none → exec .framerSym s = .next { s with resp := some .refused })

/-! ### Modulator -/

/-- TX_TICK follows the loop of 42_modulator.md R142, case by case: not configured, idle (R143), activation, a symbol passed, a message
completed (41_framer_scheduler.md R130), a sample produced. -/
def Obligations.TxTickFollowsLoop : Prop :=
  ∀ s : State,
    (s.configured = false → exec .txTick s = .next { s with resp := some (.txTick none []) }) ∧
    (s.configured = true → s.tx.txActive = none → s.tx.txFifo = [] →
      exec .txTick s = .next { s with tx := { s.tx with txPhase := 0 }, resp := some (.txTick none []) }) ∧
    (∀ m q, s.configured = true → s.tx.txActive = none → s.tx.txFifo = m :: q →
      exec .txTick s = exec .txTick { s with
        tx := { s.tx with
          txActive := some m, txFifo := q, txPos := 0, txN := 0, txBoundary := s.params.preLen } }) ∧
    (∀ m, s.configured = true → s.tx.txActive = some m → s.tx.txPos < 2 + 10 * m.bytes.length →
      s.tx.txBoundary ≤ (s.tx.txN : ℚ) →
      exec .txTick s = exec .txTick { s with tx := framerNext s.params m s.tx }) ∧
    (∀ m, s.configured = true → s.tx.txActive = some m → s.tx.txPos = 2 + 10 * m.bytes.length →
      ∃ t sample events, exec .txTick { s with tx := { s.tx with txActive := none } } = .next t ∧
        t.resp = some (.txTick sample events) ∧
        exec .txTick s = .next { t with resp := some (.txTick sample (.completed m.id :: events)) }) ∧
    (∀ m tone, s.configured = true → s.tx.txActive = some m → (s.tx.txN : ℚ) < s.tx.txBoundary →
      symTone m s.tx.txPos = some tone →
      exec .txTick s = .next { s with
        tx := { s.tx with
          txInc := if tone then s.params.incMark else s.params.incSpace
          txPhase :=
            if 1 ≤ s.tx.txPhase + (if tone then s.params.incMark else s.params.incSpace)
            then s.tx.txPhase + (if tone then s.params.incMark else s.params.incSpace) - 1
            else s.tx.txPhase + (if tone then s.params.incMark else s.params.incSpace)
          txN := s.tx.txN + 1 }
        resp := some (.txTick (some (Config.sine s.tx.txPhase)) []) })

/-- Every TX_TICK of a configured block answers, and its result is one of two (42_modulator.md R142, R143): no sample, idle, phase
0; or the sine of the phase before the tick, a message active, its current symbol the owner of that sample (41_framer_scheduler.md
R131: the sample's number lies below the symbol's boundary). Nothing but the transmit bank is written. -/
def Obligations.TxTickProducesOrIdles : Prop :=
  ∀ s : State, s.configured = true → ∃ t sample events,
    exec .txTick s = .next { s with tx := t, resp := some (.txTick sample events) } ∧
    ((sample = none ∧ t.txActive = none ∧ t.txFifo = [] ∧ t.txPhase = 0) ∨
      (sample = some (Config.sine s.tx.txPhase) ∧ ∃ m n, t.txActive = some m ∧ t.txN = n + 1 ∧
        t.txPos < 2 + 10 * m.bytes.length ∧ (n : ℚ) < t.txBoundary))

/-- Completions come in the order scheduled, each exactly once, and no message leaves without one (41_framer_scheduler.md R130,
47_system_ops.md R216): what every operation but RESET reports complete, followed by what is still pending, is what was
pending, followed by what TX_SCHEDULE added. -/
def Obligations.CompletionsInOrder : Prop :=
  ∀ (i : Instr) (s t : State), s.configured = true → i ≠ .reset → exec i s = .next t →
    ∃ added, t.lastEvents.filterMap Event.completedId ++ pendingIds t.tx = pendingIds s.tx ++ added ∧
      (added = [] ∨ ∃ id bytes, i = .txSchedule id bytes ∧ added = [id])

/-- TX_BLOCK is its ticks in order (42_modulator.md R145). -/
def Obligations.TxBlockIsTicks : Prop :=
  ∀ s : State, s.configured = true →
    exec (.txBlock 0) s = .next { s with resp := some (.txBlock [] []) } ∧
    ∀ n, ∃ u v sample events samples moreEvents,
      exec .txTick s = .next u ∧ u.resp = some (.txTick sample events) ∧
      exec (.txBlock n) u = .next v ∧ v.resp = some (.txBlock samples moreEvents) ∧
      exec (.txBlock (n + 1)) s =
        .next { v with resp := some (.txBlock (sample.toList ++ samples) (events ++ moreEvents)) }

/-- Block boundaries have no meaning on transmission (42_modulator.md R145 (d), 20_memory.md R72). -/
def Obligations.TxBlockSplits : Prop :=
  ∀ (s : State) (a b : Nat), ∃ u v samples events moreSamples moreEvents,
    exec (.txBlock a) s = .next u ∧ u.resp = some (.txBlock samples events) ∧
    exec (.txBlock b) u = .next v ∧ v.resp = some (.txBlock moreSamples moreEvents) ∧
    exec (.txBlock (a + b)) s =
      .next { v with resp := some (.txBlock (samples ++ moreSamples) (events ++ moreEvents)) }

/-- The sample count of a message (41_framer_scheduler.md R128, R131): a single message taken from an idle Scheduler takes
`ceil(PRE_LEN + 10·N·SYM_LEN + TAIL_LEN)` samples, and is then complete. -/
def Obligations.MessageSampleCount : Prop :=
  ∀ (s : State) (m : Message) (n : Nat), s.configured = true → s.tx.txActive = none → s.tx.txFifo = [m] →
    0 ≤ s.params.preLen → 0 ≤ s.params.symLen → 0 ≤ s.params.tailLen →
    ⌈s.params.preLen + (10 * m.bytes.length : Nat) * s.params.symLen + s.params.tailLen⌉₊ < n →
    ∃ t samples, exec (.txBlock n) s = .next t ∧ t.resp = some (.txBlock samples [.completed m.id]) ∧
      samples.length = ⌈s.params.preLen + (10 * m.bytes.length : Nat) * s.params.symLen + s.params.tailLen⌉₊ ∧
      t.tx.txActive = none ∧ t.tx.txFifo = [] ∧ t.tx.txPhase = 0

/-! ### Discriminator -/

/-- DISC_STEP (43_discriminator.md R156): the product of this sample's polarity and the oldest entry of the delay line enters the
ring and the sum, the bit is classified from the new sum, the polarity replaces the oldest entry, both positions advance; a
sample that is not a number is refused, and so is every sample before CONFIGURE. -/
def Obligations.DiscStepCorrelates : Prop :=
  ∀ s : State,
    (∀ (x : Sample) (pol product : Trit) (sum : Int), s.configured = true →
      pol = (if 0 ≤ x then .pos else .neg) →
      tritInt product = tritInt pol * tritInt (s.rx.delayLine.getD s.rx.dpos .zero) →
      sum = s.rx.corrSum + tritInt product - tritInt (s.rx.corrRing.getD s.rx.cpos .zero) →
      exec (.discStep (.num x)) s = .next { s with
        rx := { s.rx with
          corrSum := sum
          corrRing := s.rx.corrRing.set s.rx.cpos product
          cpos := (s.rx.cpos + 1) % s.params.corrLen
          delayLine := s.rx.delayLine.set s.rx.dpos pol
          dpos := (s.rx.dpos + 1) % s.params.delayLen }
        resp := some (.raw (xor (decide (0 ≤ sum)) s.params.invert)) }) ∧
    (exec (.discStep .nonNumeric) s = .next { s with resp := some .refused }) ∧
    (s.configured = false → ∀ x, exec (.discStep x) s = .next { s with resp := some .refused })

/-- The delay realised is DELAY_LEN samples (43_discriminator.md R158): after DELAY_LEN samples the entry read next is the polarity
of the first of them. -/
def Obligations.DelayIsRingLength : Prop :=
  ∀ (c : ParamRegs) (r : RxBank) (x : Sample) (xs : List Sample), r.Inv c → xs.length + 1 = c.delayLen →
    (discRun c (x :: xs) r).2.dpos = r.dpos ∧
    (discRun c (x :: xs) r).2.delayLine.getD r.dpos .zero = if 0 ≤ x then .pos else .neg

/-- Warm-up (43_discriminator.md R160): for the first DELAY_LEN samples after CONFIGURE the sum stays 0 and the raw bit is
`bit(not INVERT)` whatever the input. -/
def Obligations.WarmUpRawIsConstant : Prop :=
  ∀ (c : ParamRegs) (xs : List Sample), 0 < c.corrLen → xs.length ≤ c.delayLen →
    (discRun c xs (RxBank.cleared c.delayLen c.corrLen)).1 = List.replicate xs.length (!c.invert) ∧
    (discRun c xs (RxBank.cleared c.delayLen c.corrLen)).2.corrSum = 0

/-- The limiter (43_discriminator.md R157): two blocks with the same signs and stamps have the same effect and results. -/
def Obligations.OnlySignsMatter : Prop :=
  ∀ (s : State) (a b : List (InSample × Time)),
    List.Forall₂ (fun p q => p.2 = q.2 ∧ ∃ x y : Sample, p.1 = .num x ∧ q.1 = .num y ∧ (0 ≤ x ↔ 0 ≤ y)) a b →
    exec (.rxBlock a) s = exec (.rxBlock b) s

/-- The running sum fits a signed register of `1 + ceil(log2(CORR_LEN + 1))` bits (10_state.md R47). -/
def Obligations.CorrSumFitsRegister : Prop :=
  ∀ s : State, s.Inv →
    -(2 ^ (corrSumWidth s.params.corrLen - 1) : Int) ≤ s.rx.corrSum ∧
    s.rx.corrSum < 2 ^ (corrSumWidth s.params.corrLen - 1)

/-! ### Bit Timing Recovery -/

/-- BTR_STEP (44_bit_timing.md R171): the two branches and their results, nothing else written; refused before CONFIGURE. -/
def Obligations.BtrStepBranches : Prop :=
  ∀ (s : State) (raw : Bit),
    (s.configured = true → s.rx.prevBit = some raw →
      exec (.btrStep raw) s = .next { s with
        rx := { s.rx with emittedBits := s.rx.emittedBits + s.params.bitStep }
        resp := some (.btr (if ⌊s.rx.emittedBits + s.params.bitStep⌋ ≠ ⌊s.rx.emittedBits⌋
          then .cleanBit raw else .nothing)) }) ∧
    (s.configured = true → s.rx.prevBit ≠ some raw →
      exec (.btrStep raw) s = .next { s with
        rx := { s.rx with prevBit := some raw, emittedBits := 1 / 2 }
        resp := some (.btr (if s.rx.emittedBits < 1 then .failure else .nothing)) }) ∧
    (s.configured = false → exec (.btrStep raw) s = .next { s with resp := some .refused })

/-- Two transitions with `m` ticks between them fail exactly when `1/2 + m × BIT_STEP < 1` (44_bit_timing.md R174 (b)). -/
def Obligations.TransitionSpacingFails : Prop :=
  ∀ (c : ParamRegs) (r : RxBank) (b : Bit) (m : Nat), r.prevBit = some b → r.emittedBits = 1 / 2 →
    (btrRun c (List.replicate m b ++ [!b]) r).1.getLast? =
      some (if 1 / 2 + (m : ℚ) * c.bitStep < 1 then .failure else .nothing)

/-- The slicer (44_bit_timing.md R173): in a run of `m` equal bits after a transition, one clean bit per bit period, the first at its
middle: `floor(1/2 + m × BIT_STEP)` of them, all equal to the bit, and no failure. -/
def Obligations.CleanBitsPerPeriod : Prop :=
  ∀ (c : ParamRegs) (r : RxBank) (b : Bit) (m : Nat), r.prevBit = some b → r.emittedBits = 1 / 2 →
    0 < c.bitStep → c.bitStep ≤ 1 →
    ((btrRun c (List.replicate m b) r).1.count (.cleanBit b) : Int) = ⌊1 / 2 + (m : ℚ) * c.bitStep⌋ ∧
    ∀ res ∈ (btrRun c (List.replicate m b) r).1, res = .cleanBit b ∨ res = .nothing

/-- `prev_bit` never returns to `none` except by RESET (10_state.md R48, 44_bit_timing.md R177). -/
def Obligations.PrevBitStaysKnown : Prop :=
  ∀ (i : Instr) (s t : State), s.configured = true → i ≠ .reset → s.rx.prevBit ≠ none → exec i s = .next t →
    t.rx.prevBit ≠ none

/-! ### Deframer -/

/-- DEFRAME_BIT (45_deframer.md R186): the shift, the count, and from the tenth bit on the check: a valid frame appends its byte and
zeroes the count, a mismatch flushes and keeps the count; refused before CONFIGURE. A byte that a bounded build has no room for is the
case of `ReceiveOverflowRefused`. -/
def Obligations.DeframeBitChecksWindow : Prop :=
  ∀ (s : State) (b : Bit) (now : Time) (buf : BitVec 10),
    buf = (if b then 0x200#10 else 0#10) ||| (s.rx.symbolBuffer >>> 1) →
    (s.configured = true → s.rx.symbolCount < 9 →
      exec (.deframeBit b now) s = .next { s with
        rx := { s.rx with symbolBuffer := buf, symbolCount := s.rx.symbolCount + 1 }
        resp := some (.events []) }) ∧
    (s.configured = true → 9 ≤ s.rx.symbolCount → buf &&& 0x201#10 = 0x200#10 →
      (∀ d, s.build.rxMaxLen = some d → s.rx.rxBytes.length < d) →
      exec (.deframeBit b now) s = .next { s with
        rx := { s.rx with
          symbolBuffer := buf
          symbolCount := 0
          rxStart := if s.rx.rxBytes = [] then some now else s.rx.rxStart
          rxBytes := s.rx.rxBytes ++ [((buf >>> 1) &&& 0xFF#10).setWidth 8] }
        resp := some (.events []) }) ∧
    (s.configured = true → 9 ≤ s.rx.symbolCount → buf &&& 0x201#10 ≠ 0x200#10 → s.rx.rxBytes = [] →
      exec (.deframeBit b now) s = .next { s with
        rx := { s.rx with symbolBuffer := buf, symbolCount := s.rx.symbolCount + 1 }
        resp := some (.events []) }) ∧
    (∀ t0, s.configured = true → 9 ≤ s.rx.symbolCount → buf &&& 0x201#10 ≠ 0x200#10 → s.rx.rxBytes ≠ [] →
      s.rx.rxStart = some t0 →
      exec (.deframeBit b now) s = .next { s with
        rx := { s.rx with
          symbolBuffer := buf, symbolCount := s.rx.symbolCount + 1, rxBytes := [], rxStart := none }
        resp := some (.events [.received s.rx.rxBytes t0 now]) }) ∧
    (s.configured = false → exec (.deframeBit b now) s = .next { s with resp := some .refused })

/-- DEFRAME_FLUSH (45_deframer.md R187): nothing for an empty list; else one event, and the list and the stamp are cleared; the
shift register and the count stay. Refused before CONFIGURE (47_system_ops.md R213). -/
def Obligations.DeframeFlushEmits : Prop :=
  ∀ (s : State) (now : Time),
    (s.configured = true → s.rx.rxBytes = [] →
      exec (.deframeFlush now) s = .next { s with resp := some (.events []) }) ∧
    (∀ t0, s.configured = true → s.rx.rxBytes ≠ [] → s.rx.rxStart = some t0 →
      exec (.deframeFlush now) s = .next { s with
        rx := { s.rx with rxBytes := [], rxStart := none }
        resp := some (.events [.received s.rx.rxBytes t0 now]) }) ∧
    (s.configured = false → exec (.deframeFlush now) s = .next { s with resp := some .refused })

/-- DEFRAME_FAIL (45_deframer.md R188): the flush, and the count at 0; the shift register stays. Refused before CONFIGURE
(47_system_ops.md R213). -/
def Obligations.DeframeFailResetsCount : Prop :=
  ∀ (s : State) (now : Time),
    (s.configured = true → s.rx.rxBytes = [] →
      exec (.deframeFail now) s = .next { s with
        rx := { s.rx with symbolCount := 0 }
        resp := some (.events []) }) ∧
    (∀ t0, s.configured = true → s.rx.rxBytes ≠ [] → s.rx.rxStart = some t0 →
      exec (.deframeFail now) s = .next { s with
        rx := { s.rx with symbolCount := 0, rxBytes := [], rxStart := none }
        resp := some (.events [.received s.rx.rxBytes t0 now]) }) ∧
    (s.configured = false → exec (.deframeFail now) s = .next { s with resp := some .refused })

/-- After ten shifts the earliest of the ten bits is bit 0 and the latest is bit 9 (30_encoding.md R93). -/
def Obligations.TenShiftsFillWindow : Prop :=
  ∀ (bits : List Bit) (buf : BitVec 10), bits.length = 10 →
    ∀ i, i < 10 → (bits.foldl (fun v b => shiftIn b v) buf).getLsbD i = bits.getD i false

/-- The round trip (45_deframer.md R193): the frames of a message, after any number of 1s and before at least ten 1s, give exactly one
`Received` with its bytes, stamped at the first stop bit and at the tenth of the last 1s; and nothing for the empty message. -/
def Obligations.FramerDeframerRoundTrip : Prop :=
  ∀ (m : Message) (lead trail : Nat) (stamps : List Time) (r : RxBank),
    10 ≤ trail → r.symbolCount = 0 → r.rxBytes = [] → stamps.length = lead + 10 * m.bytes.length + trail →
    (deframeRun ((List.replicate lead true ++ frameBits m ++ List.replicate trail true).zip stamps) r).1 =
      if m.bytes = [] then []
      else [.received m.bytes (stamps.getD (lead + 9) ⟨0⟩) (stamps.getD (lead + 10 * m.bytes.length + 9) ⟨0⟩)]

/-- Every byte decoded is emitted in exactly one event, and no byte is dropped but by RESET (46_demodulator.md R202,
47_system_ops.md R216): what an operation delivers, followed by what is still held, is what was held, followed by the bytes it decoded
(`decodedBytes`: the data byte of each window that DEFRAME_BIT finds valid, for a tick through the clean bit of BTR_STEP, for a block
tick by tick). A refused operation delivers nothing and leaves the receive bank. -/
def Obligations.NoReceivedByteLost : Prop :=
  ∀ (i : Instr) (s t : State), s.configured = true → i ≠ .reset → exec i s = .next t →
    (t.resp ≠ some .refused →
      t.lastEvents.flatMap Event.receivedBytes ++ t.rx.rxBytes = s.rx.rxBytes ++ decodedBytes s i) ∧
    (t.resp = some .refused → t.lastEvents = [] ∧ t.rx = s.rx)

/-! ### Demodulator -/

/-- RX_TICK is its three units in order (46_demodulator.md R200): DISC_STEP, BTR_STEP on its raw bit, and then DEFRAME_BIT on a clean
bit, DEFRAME_FAIL on a failure, nothing else otherwise. A sample that is not a number is refused (60_exceptions.md R230). While not
configured there is no effect (R204). A tick that finds the byte store of a bounded build full is the case of `ReceiveOverflowRefused`. -/
def Obligations.RxTickComposesUnits : Prop :=
  ∀ (s : State) (now : Time),
    (s.configured = false → ∀ x, exec (.rxTick x now) s = .next { s with resp := some (.events []) }) ∧
    (s.configured = true → ∀ x : Sample, ∃ u v t raw res,
      exec (.discStep (.num x)) s = .next u ∧ u.resp = some (.raw raw) ∧
      exec (.btrStep raw) u = .next v ∧ v.resp = some (.btr res) ∧
      exec (.rxTick (.num x) now) s = .next t ∧
      (∀ b, res = .cleanBit b → (∀ d, s.build.rxMaxLen = some d → s.rx.rxBytes.length < d) →
        exec (.deframeBit b now) v = .next t) ∧
      (res = .failure → exec (.deframeFail now) v = .next t) ∧
      (res = .nothing → t = { v with resp := some (.events []) })) ∧
    (s.configured = true → exec (.rxTick .nonNumeric now) s = .next { s with resp := some .refused })

/-- The RX_MAXLEN+1-th byte (20_memory.md R63, 93_implementation_defined.md U6): a DEFRAME_BIT that decodes a byte the build has no room
for is refused; an RX_TICK whose DEFRAME_BIT is refused is refused whole, and any other tick that finds the store full is its units in
order. The spec gives the case no meaning and says to treat it as `refuse`; that this is the status `refused` of the whole operation is
the model's reading (log entry 6). -/
def Obligations.ReceiveOverflowRefused : Prop :=
  ∀ s : State, s.configured = true →
    (∀ (b : Bit) (now : Time) (buf : BitVec 10) (d : Nat), buf = (if b then 0x200#10 else 0#10) ||| (s.rx.symbolBuffer >>> 1) →
      9 ≤ s.rx.symbolCount → buf &&& 0x201#10 = 0x200#10 → s.build.rxMaxLen = some d → d ≤ s.rx.rxBytes.length →
      exec (.deframeBit b now) s = .next { s with resp := some .refused }) ∧
    (∀ (x : Sample) (now : Time) (u v w : State) (raw b : Bit),
      exec (.discStep (.num x)) s = .next u → u.resp = some (.raw raw) →
      exec (.btrStep raw) u = .next v → v.resp = some (.btr (.cleanBit b)) → exec (.deframeBit b now) v = .next w →
      (w.resp = some .refused → exec (.rxTick (.num x) now) s = .next { s with resp := some .refused }) ∧
      (w.resp ≠ some .refused → exec (.rxTick (.num x) now) s = .next w))

/-- At most one event per receive tick, and it is a non-empty `Received` that ends now (46_demodulator.md R202, 45_deframer.md R187). -/
def Obligations.RxTickAtMostOneEvent : Prop :=
  ∀ (s t : State) (x : InSample) (now : Time), exec (.rxTick x now) s = .next t →
    t.lastEvents = [] ∨ ∃ bytes start, bytes ≠ [] ∧ t.lastEvents = [.received bytes start now]

/-- RX_BLOCK is its ticks in order (46_demodulator.md R201): the effect and events of a block of numeric samples are those of its first
tick followed by the rest. That a block with a refused tick in it is refused whole is the model's reading (log entry 6); with room for a
byte on every tick, and so always in a build without RX_MAXLEN, none is. -/
def Obligations.RxBlockIsTicks : Prop :=
  ∀ s : State, s.configured = true →
    exec (.rxBlock []) s = .next { s with resp := some (.events []) } ∧
    ∀ (x : Sample) (now : Time) (rest : List (InSample × Time)), (∀ p ∈ rest, p.1 ≠ .nonNumeric) →
      ∃ u v, exec (.rxTick (.num x) now) s = .next u ∧ exec (.rxBlock rest) u = .next v ∧
        ((∃ events moreEvents, u.resp = some (.events events) ∧ v.resp = some (.events moreEvents) ∧
            exec (.rxBlock ((.num x, now) :: rest)) s = .next { v with resp := some (.events (events ++ moreEvents)) }) ∨
          (u.resp = some .refused ∨ v.resp = some .refused) ∧
            exec (.rxBlock ((.num x, now) :: rest)) s = .next { s with resp := some .refused }) ∧
        ((∀ d, s.build.rxMaxLen = some d → s.rx.rxBytes.length + rest.length < d) →
          u.resp ≠ some .refused ∧ v.resp ≠ some .refused)

/-- Block boundaries have no meaning on reception (46_demodulator.md R201 (b), 20_memory.md R72). That a block is refused whole when a byte
does not fit, so that the boundaries matter there, is the model's reading (log entry 6); with room for a byte on every tick, and so always
in a build without RX_MAXLEN, no part is refused. -/
def Obligations.RxBlockSplits : Prop :=
  ∀ (s : State) (a b : List (InSample × Time)), (∀ p ∈ a ++ b, p.1 ≠ .nonNumeric) →
    ∃ u v, exec (.rxBlock a) s = .next u ∧ exec (.rxBlock b) u = .next v ∧
      ((∃ events moreEvents, u.resp = some (.events events) ∧ v.resp = some (.events moreEvents) ∧
          exec (.rxBlock (a ++ b)) s = .next { v with resp := some (.events (events ++ moreEvents)) }) ∨
        (u.resp = some .refused ∨ v.resp = some .refused) ∧
          exec (.rxBlock (a ++ b)) s = .next { s with resp := some .refused }) ∧
      ((∀ d, s.build.rxMaxLen = some d → s.rx.rxBytes.length + a.length + b.length ≤ d) →
        u.resp ≠ some .refused ∧ v.resp ≠ some .refused)

/-- A block with a sample that is not a number anywhere in it is refused whole. The model's choice (log entry 9), from 30_encoding.md
R87 and 43_discriminator.md R156 (a). -/
def Obligations.NonNumericBlockRefused : Prop :=
  ∀ (s : State) (before after : List (InSample × Time)) (now : Time), s.configured = true →
    exec (.rxBlock (before ++ (.nonNumeric, now) :: after)) s = .next { s with resp := some .refused }

/-! ### The two paths -/

/-- Each path writes only its own bank (10_state.md R56): everything else, the other bank with it, is unchanged. -/
def Obligations.PathsWriteOwnBank : Prop :=
  ∀ (i : Instr) (s t : State), exec i s = .next t →
    (i.isTransmit = true → t = { s with tx := t.tx, resp := t.resp }) ∧
    (i.isReceive = true → t = { s with rx := t.rx, resp := t.resp })

/-- A transmit operation and a receive operation commute, in effect and in results (10_state.md R56, 20_memory.md R69). -/
def Obligations.TransmitReceiveCommute : Prop :=
  ∀ (s : State) (i j : Instr), i.isTransmit = true → j.isReceive = true →
    ∃ a b ab ba, exec i s = .next a ∧ exec j a = .next ab ∧ exec j s = .next b ∧ exec i b = .next ba ∧
      ba.resp = a.resp ∧ ab.resp = b.resp ∧ ab = { ba with resp := ab.resp }

/-! ### Fixed-width builds -/

/-- Every register fits the width that 10_state.md R59 records for it, in every state that meets the invariant. The phase and the
increments are values of PW bits; `tx_pos`, `tx_n` and `tx_boundary` fit the widths TX_MAXLEN and Q give, `dpos` and `cpos` those of the
ring lengths; `corr_sum` is the value of a signed register of its width; Q fraction bits and the sticky bit stand for `emitted_bits`
(70_reset_and_hazards.md R262, which needs one fraction bit for its 1/2); `symbol_buffer` has 10 bits and a saturating `symbol_count` 4;
and the 2-bit codes of a ring entry and of `prev_bit` (30_encoding.md R96, R97) tell their three values apart, the first being the entry
in two's complement. That the constants other than the increments are held in Q bits is the model's reading (log entry 16), as is the
increment of log entry 26. -/
def Obligations.RegistersFitWidths : Prop :=
  ∀ s : State, s.Inv →
    (∀ w, s.build.phaseWidth = some w → ∃ phase inc mark space : BitVec w,
      s.tx.txPhase = phaseOfAcc phase ∧ s.tx.txInc = phaseOfAcc inc ∧
      s.params.incMark = phaseOfAcc mark ∧ s.params.incSpace = phaseOfAcc space) ∧
    (∀ d, s.build.txMaxLen = some d →
      s.tx.txPos < 2 ^ txPosWidth d ∧ s.tx.txN < 2 ^ txNWidth s.params d ∧
      ∀ q, s.build.fracWidth = some q →
        ∃ v : BitVec (txBoundaryWidth s.params d q), s.tx.txBoundary = ofFixed q v) ∧
    s.rx.dpos < 2 ^ ringPosWidth s.params.delayLen ∧ s.rx.cpos < 2 ^ ringPosWidth s.params.corrLen ∧
    (∃ v : BitVec (corrSumWidth s.params.corrLen), s.rx.corrSum = v.toInt) ∧
    (∀ q, s.build.fracWidth = some (q + 1) → ∃ f : BtrFixed (q + 1), f.StandsFor s.rx) ∧
    s.rx.symbolBuffer.toNat < 2 ^ 10 ∧ s.rx.saturated.symbolCount < 2 ^ symbolCountWidth ∧
    (∀ a b, tritCode a = tritCode b → a = b) ∧ (∀ a, (tritCode a).toInt = tritInt a) ∧
    (∀ a b, prevBitCode a = prevBitCode b → a = b)

/-- The phase accumulator of a fixed-width build is exact (40_oscillator.md R112): the discarded carry is the single subtraction. -/
def Obligations.AccumulatorMatchesPhase : Prop :=
  ∀ (pw : Nat) (acc ftw : BitVec pw),
    wrapPhase (phaseOfAcc acc + phaseOfAcc ftw) = phaseOfAcc (accStep acc ftw)

/-- The fraction register and the sticky bit of 70_reset_and_hazards.md R262 keep exactly what BTR_STEP uses: the same results, and
they stand for the exact registers afterwards, and after reset. -/
def Obligations.FixedTimingMatches : Prop :=
  (∀ (q d k : Nat), (BtrFixed.cleared q).StandsFor (RxBank.cleared d k)) ∧
  ∀ (q : Nat) (bitStep : BitVec (q + 1)) (c : ParamRegs) (f : BtrFixed (q + 1)) (r : RxBank) (raw : Bit),
    c.bitStep = (bitStep.toNat : ℚ) / 2 ^ (q + 1) → 0 ≤ r.emittedBits → f.StandsFor r →
    (btrStepFixed bitStep raw f).1 = (btrStep c raw r).1 ∧
    (btrStepFixed bitStep raw f).2.StandsFor (btrStep c raw r).2

/-- A count that saturates at 10 makes no observable difference (10_state.md R51): not in a block of samples, not in DEFRAME_BIT and in
what it decodes, and not in any operation of any build, which answers the same from the count cut to 10, and leaves the same up to that
cut. Applied step by step it gives the same of every run. -/
def Obligations.SaturatedCountMatches : Prop :=
  (∀ (c : ParamRegs) (pairs : List (Sample × Time)) (r : RxBank),
    (rxBlock c pairs r.saturated).1 = (rxBlock c pairs r).1 ∧
    (rxBlock c pairs r.saturated).2.saturated = (rxBlock c pairs r).2.saturated) ∧
  (∀ (b : Bit) (now : Time) (r : RxBank),
    decodedByte b r.saturated = decodedByte b r ∧
    (deframeBit b now r.saturated).1 = (deframeBit b now r).1 ∧
    (deframeBit b now r.saturated).2.saturated = (deframeBit b now r).2.saturated) ∧
  ∀ (i : Instr) (s : State), ∃ t u, exec i s = .next t ∧ exec i s.saturated = .next u ∧
    u.resp = t.resp ∧ u.saturated = t.saturated
end

