-- ==== Sys2Proof/Laws/Operands.lean ====
section
/-! SUPPORT. What the operand computations give: rounding, quantisation, the wrap, polarity and product, the shift register. -/

namespace Sys2Proof.Machine

@[simp] theorem quantise_none (x : Num) : quantise none x = x := rfl

theorem roundHalfUp_nonneg {x : Num} (h : 0 ≤ x) : 0 ≤ roundHalfUp x := by
  unfold roundHalfUp
  exact Int.floor_nonneg.mpr (by linarith)

theorem quantise_nonneg (w : Option Nat) {x : Num} (h : 0 ≤ x) : 0 ≤ quantise w x := by
  cases w with
  | none => exact h
  | some w =>
    have hr : 0 ≤ roundHalfUp (x * 2 ^ w) := roundHalfUp_nonneg (by positivity)
    have : (0 : Num) ≤ (roundHalfUp (x * 2 ^ w) : Num) := by exact_mod_cast hr
    simp only [quantise]
    positivity

/-- The single subtraction keeps the phase in `[0, 1)` (40_oscillator.md R111 (c)). -/
theorem wrapPhase_range {x : Num} (h0 : 0 ≤ x) (h2 : x < 2) : 0 ≤ wrapPhase x ∧ wrapPhase x < 1 := by
  unfold wrapPhase
  split
  · constructor <;> linarith
  · constructor <;> linarith

/-- The single subtraction is the full reduction modulo 1 (40_oscillator.md R111 (d)). -/
theorem wrapPhase_eq_fract {x : Num} (h0 : 0 ≤ x) (h2 : x < 2) : wrapPhase x = Int.fract x := by
  unfold wrapPhase
  split
  · rename_i h
    have : ⌊x⌋ = 1 := by
      rw [Int.floor_eq_iff]; norm_num; constructor <;> linarith
    rw [Int.fract, this]; norm_num
  · rename_i h
    exact (Int.fract_eq_self.mpr ⟨h0, lt_of_not_ge h⟩).symm

/-! ### The numbers that fit a number of fraction bits -/

/-- A number is on the grid of `w` fraction bits exactly when it is a whole number of units `2^−w` (10_state.md R59). -/
theorem onGrid_iff (w : Nat) (x : Num) : onGrid w x = true ↔ ∃ n : Int, x = (n : Num) / 2 ^ w := by
  have hp : (0 : Num) < 2 ^ w := by positivity
  have half : ∀ n : Int, ⌊(n : Num) + 1 / 2⌋ = n := fun n => by
    rw [Int.floor_eq_iff]; constructor <;> linarith
  unfold onGrid
  rw [decide_eq_true_iff]
  constructor
  · intro h; exact ⟨_, h.symm⟩
  · rintro ⟨n, rfl⟩
    simp only [quantise, roundHalfUp, div_mul_cancel₀ _ hp.ne', half]

theorem onGrid_zero (w : Nat) : onGrid w 0 = true := (onGrid_iff w 0).mpr ⟨0, by simp⟩

/-- The value a transition gives `emitted_bits` needs one fraction bit: "top bit set, others clear" (70_reset_and_hazards.md R262). -/
theorem onGrid_half (q : Nat) : onGrid (q + 1) (1 / 2) = true :=
  (onGrid_iff _ _).mpr ⟨2 ^ q, by push_cast; rw [pow_succ]; field_simp⟩

theorem onGrid_quantise (w : Nat) (x : Num) : onGrid w (quantise (some w) x) = true := (onGrid_iff w _).mpr ⟨_, rfl⟩

theorem onGrid_add {w : Nat} {x y : Num} (hx : onGrid w x = true) (hy : onGrid w y = true) : onGrid w (x + y) = true := by
  obtain ⟨n, rfl⟩ := (onGrid_iff w x).mp hx
  obtain ⟨m, rfl⟩ := (onGrid_iff w y).mp hy
  exact (onGrid_iff w _).mpr ⟨n + m, by push_cast; ring⟩

theorem onGrid_wrapPhase {w : Nat} {x : Num} (h : onGrid w x = true) : onGrid w (wrapPhase x) = true := by
  unfold wrapPhase
  split
  · obtain ⟨n, rfl⟩ := (onGrid_iff w x).mp h
    exact (onGrid_iff w _).mpr ⟨n - 2 ^ w, by push_cast; field_simp⟩
  · exact h

theorem phaseOfAcc_range {w : Nat} (acc : BitVec w) : 0 ≤ phaseOfAcc acc ∧ phaseOfAcc acc < 1 := by
  have hp : (0 : Num) < 2 ^ w := by positivity
  have ha : (acc.toNat : Num) < 2 ^ w := by exact_mod_cast acc.isLt
  unfold phaseOfAcc
  exact ⟨by positivity, by rwa [div_lt_one hp]⟩

theorem onGrid_phaseOfAcc {w : Nat} (acc : BitVec w) : onGrid w (phaseOfAcc acc) = true :=
  (onGrid_iff w _).mpr ⟨acc.toNat, by simp [phaseOfAcc]⟩

/-- The increment held said once: with an exact phase and for a multiple of `2^−PW` the operand itself, else a value of PW bits
(10_state.md R59; log entry 26). -/
theorem heldIncrement_cases (width : Option Nat) (inc : Num) :
    ((∀ w, width = some w → onGrid w inc = true) ∧ heldIncrement width inc = inc) ∨
    (∃ w, width = some w ∧ onGrid w inc = false ∧ ∃ acc : BitVec w, heldIncrement width inc = phaseOfAcc acc) := by
  cases width with
  | none => exact .inl ⟨by simp, rfl⟩
  | some w =>
    cases h : onGrid w inc with
    | true => exact .inl ⟨by rintro _ ⟨⟩; exact h, by simp [heldIncrement, h]⟩
    | false => exact .inr ⟨w, rfl, h, _, by simp only [heldIncrement, h]; rfl⟩

theorem heldIncrement_range (width : Option Nat) {inc : Num} (h0 : 0 ≤ inc) (h1 : inc < 1) :
    0 ≤ heldIncrement width inc ∧ heldIncrement width inc < 1 ∧
    ∀ w, width = some w → onGrid w (heldIncrement width inc) = true := by
  rcases heldIncrement_cases width inc with ⟨hg, e⟩ | ⟨w, rfl, -, acc, e⟩ <;> rw [e]
  · exact ⟨h0, h1, hg⟩
  · exact ⟨(phaseOfAcc_range acc).1, (phaseOfAcc_range acc).2, by rintro _ ⟨⟩; exact onGrid_phaseOfAcc acc⟩

/-- A product of ring entries is the product of the integers they stand for (30_encoding.md R96). -/
@[simp] theorem tritInt_tritMul (a b : Trit) : tritInt (tritMul a b) = tritInt a * tritInt b := by
  cases a <;> cases b <;> rfl

theorem tritInt_bounds (a : Trit) : -1 ≤ tritInt a ∧ tritInt a ≤ 1 := by
  cases a <;> decide

theorem polarity_ne_zero (x : Sample) : polarity x ≠ .zero := by
  unfold polarity; split <;> decide

/-- Only the test `sample ≥ 0` is used (43_discriminator.md R157). -/
theorem polarity_congr {x y : Sample} (h : 0 ≤ x ↔ 0 ≤ y) : polarity x = polarity y := by
  unfold polarity; simp only [h]

/-- Data bit `j` is bit `j` of the byte (30_encoding.md R95). -/
theorem byteBit_eq (byte : Byte) (j : Nat) : byteBit byte j = byte.getLsbD j := by
  have key : ∀ v : BitVec 8, ((v &&& 1#8) == 1#8) = v.getLsbD 0 := by decide
  rw [byteBit, key]; simp

/-- The new bit becomes bit 9 and every older bit moves one place down (30_encoding.md R93). -/
theorem shiftIn_getLsbD (b : Bit) (buf : BitVec 10) (i : Nat) (hi : i < 10) :
    (shiftIn b buf).getLsbD i = if i = 9 then b else buf.getLsbD (i + 1) := by
  have h9 : ∀ (b : Bool) (v : BitVec 10), ∀ i : Fin 10,
      (((BitVec.ofBool b).zeroExtend 10 <<< 9) ||| (v >>> 1)).getLsbD i
        = if i.val = 9 then b else v.getLsbD (i.val + 1) := by decide +kernel
  exact h9 b buf ⟨i, hi⟩

/-- A window is valid exactly when its start bit is 0 and its stop bit is 1 (30_encoding.md R94). -/
theorem validFrame_iff (buf : BitVec 10) :
    ((buf &&& 0x201#10) == 0x200#10) = (!buf.getLsbD 0 && buf.getLsbD 9) := by
  revert buf; decide +kernel

/-- Data bit `j` of a window is its bit `j + 1` (30_encoding.md R95). -/
theorem windowByte_getLsbD (buf : BitVec 10) (j : Nat) (hj : j < 8) :
    (windowByte buf).getLsbD j = buf.getLsbD (j + 1) := by
  have key : ∀ (v : BitVec 10), ∀ j : Fin 8, (windowByte v).getLsbD j = v.getLsbD (j.val + 1) := by decide +kernel
  exact key buf ⟨j, hj⟩

/-- Every row of ValidConfig (47_system_ops.md R212). -/
theorem validConfig_iff (b : Build) (p : Params) : validConfig b p = true ↔
    0 < p.fs ∧ 0 < p.baud ∧ 0 < p.fMark ∧ 0 < p.fSpace ∧ p.fMark ≠ p.fSpace ∧ 0 ≤ p.preDur ∧ 0 ≤ p.tailDur ∧
    (deriveRegs b p).incMark < 1 ∧ (deriveRegs b p).incSpace < 1 ∧ 0 < (delayLenOf p).getD 0 ∧ 0 < corrLenOf p ∧
    ∀ d, p.rxDelay = some d → 0 < d := by
  have h : p.rxDelay.all (fun d => decide (0 < d)) = true ↔ ∀ d, p.rxDelay = some d → 0 < d := by
    cases p.rxDelay <;> simp
  simp only [validConfig, Bool.and_eq_true, decide_eq_true_eq, h, and_assoc]

/-- What the operations rely on in the parameter registers (10_state.md R29 to R32, R59). -/
structure ParamRegs.Ranges (b : Build) (c : ParamRegs) : Prop where
  mark_nonneg : 0 ≤ c.incMark
  mark_lt_one : c.incMark < 1
  space_nonneg : 0 ≤ c.incSpace
  space_lt_one : c.incSpace < 1
  mark_on_grid : ∀ w, b.phaseWidth = some w → onGrid w c.incMark = true
  space_on_grid : ∀ w, b.phaseWidth = some w → onGrid w c.incSpace = true
  sym_nonneg : 0 ≤ c.symLen
  pre_nonneg : 0 ≤ c.preLen
  tail_nonneg : 0 ≤ c.tailLen
  sym_on_grid : ∀ q, b.fracWidth = some q → onGrid q c.symLen = true
  pre_on_grid : ∀ q, b.fracWidth = some q → onGrid q c.preLen = true
  tail_on_grid : ∀ q, b.fracWidth = some q → onGrid q c.tailLen = true
  bitStep_nonneg : 0 ≤ c.bitStep
  bitStep_on_grid : ∀ q, b.fracWidth = some q → onGrid q c.bitStep = true

/-- The parameter registers before CONFIGURE are in range. -/
theorem ParamRegs.cleared_ranges (b : Build) : ParamRegs.cleared.Ranges b := by
  constructor <;> first | exact le_refl _ | exact zero_lt_one | exact fun w _ => onGrid_zero w

/-- The derived constants of an accepted parameter set are in range, and its rings have entries (47_system_ops.md R212). -/
theorem deriveRegs_ranges {b : Build} {p : Params} (h : validConfig b p = true) :
    (deriveRegs b p).Ranges b ∧ 0 < (deriveRegs b p).delayLen ∧ 0 < (deriveRegs b p).corrLen := by
  obtain ⟨hfs, hbaud, hm, hsp, -, hpre, htail, him, his, hd, hc, -⟩ := (validConfig_iff b p).mp h
  have nn : ∀ (w : Option Nat) {x y : Num}, 0 ≤ x → 0 ≤ y → 0 ≤ quantise w (x * y) := fun w _ _ hx hy =>
    quantise_nonneg w (mul_nonneg hx hy)
  have nd : ∀ (w : Option Nat) {x y : Num}, 0 ≤ x → 0 ≤ y → 0 ≤ quantise w (x / y) := fun w _ _ hx hy =>
    quantise_nonneg w (div_nonneg hx hy)
  have hg : ∀ (width : Option Nat) (x : Num) (w : Nat), width = some w → onGrid w (quantise width x) = true := by
    intro width x w hw; rw [hw]; exact onGrid_quantise w x
  refine ⟨⟨nd _ hm.le hfs.le, him, nd _ hsp.le hfs.le, his, hg _ _, hg _ _, nd _ hfs.le hbaud.le, nn _ hpre hfs.le,
    nn _ htail hfs.le, hg _ _, hg _ _, hg _ _, nd _ hbaud.le hfs.le, hg _ _⟩, ?_, ?_⟩
  · simp only [deriveRegs]; omega
  · simp only [deriveRegs]; omega

end Sys2Proof.Machine
end

