-- ==== Sys2Proof/Laws/State.lean ====
section
/-! SUPPORT. One lemma per field per update of the state and of the banks, true by rfl, so that no proof unfolds an update. -/

namespace Sys2Proof.Machine

section State
variable (s : State) (t : TxBank) (r : RxBank) (p : Params)

@[simp] theorem State.withTx_build : (s.withTx t).build = s.build := rfl
@[simp] theorem State.withTx_configured : (s.withTx t).configured = s.configured := rfl
@[simp] theorem State.withTx_params : (s.withTx t).params = s.params := rfl
@[simp] theorem State.withTx_tx : (s.withTx t).tx = t := rfl
@[simp] theorem State.withTx_rx : (s.withTx t).rx = s.rx := rfl
@[simp] theorem State.withTx_port : (s.withTx t).port = s.port := rfl
@[simp] theorem State.withTx_resp : (s.withTx t).resp = s.resp := rfl

@[simp] theorem State.withRx_build : (s.withRx r).build = s.build := rfl
@[simp] theorem State.withRx_configured : (s.withRx r).configured = s.configured := rfl
@[simp] theorem State.withRx_params : (s.withRx r).params = s.params := rfl
@[simp] theorem State.withRx_tx : (s.withRx r).tx = s.tx := rfl
@[simp] theorem State.withRx_rx : (s.withRx r).rx = r := rfl
@[simp] theorem State.withRx_port : (s.withRx r).port = s.port := rfl
@[simp] theorem State.withRx_resp : (s.withRx r).resp = s.resp := rfl

@[simp] theorem State.accept_build : s.accept.build = s.build := rfl
@[simp] theorem State.accept_configured : s.accept.configured = s.configured := rfl
@[simp] theorem State.accept_params : s.accept.params = s.params := rfl
@[simp] theorem State.accept_tx : s.accept.tx = s.tx := rfl
@[simp] theorem State.accept_rx : s.accept.rx = s.rx := rfl
@[simp] theorem State.accept_port : s.accept.port = s.port.tail := rfl
@[simp] theorem State.accept_resp : s.accept.resp = none := rfl

@[simp] theorem State.afterReset_build : s.afterReset.build = s.build := rfl
@[simp] theorem State.afterReset_configured : s.afterReset.configured = false := rfl
@[simp] theorem State.afterReset_params : s.afterReset.params = ParamRegs.cleared := rfl
@[simp] theorem State.afterReset_tx : s.afterReset.tx = TxBank.cleared := rfl
@[simp] theorem State.afterReset_rx : s.afterReset.rx = RxBank.cleared 0 0 := rfl
@[simp] theorem State.afterReset_port : s.afterReset.port = s.port := rfl
@[simp] theorem State.afterReset_resp : s.afterReset.resp = s.resp := rfl

@[simp] theorem State.configuredWith_build : (s.configuredWith p).build = s.build := rfl
@[simp] theorem State.configuredWith_configured : (s.configuredWith p).configured = true := rfl
@[simp] theorem State.configuredWith_params : (s.configuredWith p).params = deriveRegs s.build p := rfl
@[simp] theorem State.configuredWith_tx : (s.configuredWith p).tx = TxBank.cleared := rfl
@[simp] theorem State.configuredWith_rx : (s.configuredWith p).rx =
    RxBank.cleared (deriveRegs s.build p).delayLen (deriveRegs s.build p).corrLen := rfl
@[simp] theorem State.configuredWith_port : (s.configuredWith p).port = s.port := rfl
@[simp] theorem State.configuredWith_resp : (s.configuredWith p).resp = s.resp := rfl

end State

section Banks
variable (c : ParamRegs) (m : Message) (q : List Message) (t : TxBank) (d k : Nat)

@[simp] theorem activate_txPhase : (activate c m q t).txPhase = t.txPhase := rfl
@[simp] theorem activate_txInc : (activate c m q t).txInc = t.txInc := rfl
@[simp] theorem activate_txN : (activate c m q t).txN = 0 := rfl
@[simp] theorem activate_txBoundary : (activate c m q t).txBoundary = c.preLen := rfl
@[simp] theorem activate_txActive : (activate c m q t).txActive = some m := rfl
@[simp] theorem activate_txPos : (activate c m q t).txPos = 0 := rfl
@[simp] theorem activate_txFifo : (activate c m q t).txFifo = q := rfl

@[simp] theorem release_txPhase : (release t).txPhase = t.txPhase := rfl
@[simp] theorem release_txInc : (release t).txInc = t.txInc := rfl
@[simp] theorem release_txN : (release t).txN = t.txN := rfl
@[simp] theorem release_txBoundary : (release t).txBoundary = t.txBoundary := rfl
@[simp] theorem release_txActive : (release t).txActive = none := rfl
@[simp] theorem release_txPos : (release t).txPos = t.txPos := rfl
@[simp] theorem release_txFifo : (release t).txFifo = t.txFifo := rfl

@[simp] theorem TxBank.cleared_txPhase : TxBank.cleared.txPhase = 0 := rfl
@[simp] theorem TxBank.cleared_txActive : TxBank.cleared.txActive = none := rfl
@[simp] theorem TxBank.cleared_txFifo : TxBank.cleared.txFifo = [] := rfl

@[simp] theorem RxBank.cleared_delayLine : (RxBank.cleared d k).delayLine = List.replicate d .zero := rfl
@[simp] theorem RxBank.cleared_corrRing : (RxBank.cleared d k).corrRing = List.replicate k .zero := rfl
@[simp] theorem RxBank.cleared_dpos : (RxBank.cleared d k).dpos = 0 := rfl
@[simp] theorem RxBank.cleared_cpos : (RxBank.cleared d k).cpos = 0 := rfl
@[simp] theorem RxBank.cleared_corrSum : (RxBank.cleared d k).corrSum = 0 := rfl
@[simp] theorem RxBank.cleared_prevBit : (RxBank.cleared d k).prevBit = none := rfl
@[simp] theorem RxBank.cleared_emittedBits : (RxBank.cleared d k).emittedBits = 0 := rfl
@[simp] theorem RxBank.cleared_symbolBuffer : (RxBank.cleared d k).symbolBuffer = 0 := rfl
@[simp] theorem RxBank.cleared_symbolCount : (RxBank.cleared d k).symbolCount = 0 := rfl
@[simp] theorem RxBank.cleared_rxBytes : (RxBank.cleared d k).rxBytes = [] := rfl
@[simp] theorem RxBank.cleared_rxStart : (RxBank.cleared d k).rxStart = none := rfl

/-- FRAMER_NEXT raises the position by one (41_framer_scheduler.md R124). -/
@[simp] theorem framerNext_txPos : (framerNext c m t).txPos = t.txPos + 1 := by
  unfold framerNext; split <;> rfl
@[simp] theorem framerNext_txPhase : (framerNext c m t).txPhase = t.txPhase := by
  unfold framerNext; split <;> rfl
@[simp] theorem framerNext_txInc : (framerNext c m t).txInc = t.txInc := by
  unfold framerNext; split <;> rfl
@[simp] theorem framerNext_txN : (framerNext c m t).txN = t.txN := by
  unfold framerNext; split <;> rfl
@[simp] theorem framerNext_txActive : (framerNext c m t).txActive = t.txActive := by
  unfold framerNext; split <;> rfl
@[simp] theorem framerNext_txFifo : (framerNext c m t).txFifo = t.txFifo := by
  unfold framerNext; split <;> rfl
/-- FRAMER_NEXT adds the length of the symbol entered (R124); DONE has none. -/
theorem framerNext_txBoundary :
    (framerNext c m t).txBoundary = t.txBoundary + (symDur c m (t.txPos + 1)).getD 0 := by
  unfold framerNext; split <;> rename_i h <;> simp [h]

end Banks

end Sys2Proof.Machine
end

