-- ==== Sys2Proof/Laws/Ops.lean ====
section
/-! SUPPORT. What each shared operation can do: rings, answers, the flush and the error classes. -/

namespace Sys2Proof.Machine

/-- One entry is written and the length stays (20_memory.md R61). -/
@[simp] theorem ringWrite_length (ring : List Trit) (pos : Nat) (v : Trit) :
    (ringWrite ring pos v).length = ring.length := by simp [ringWrite]

/-- A read after a write at the same index gives the value written. -/
theorem ringRead_ringWrite_same {ring : List Trit} {pos : Nat} (v : Trit) (h : pos < ring.length) :
    ringRead (ringWrite ring pos v) pos = v := by simp [ringRead, ringWrite, h]

/-- A write leaves every other entry alone. -/
theorem ringRead_ringWrite_other {ring : List Trit} {pos other : Nat} (v : Trit) (h : other ≠ pos) :
    ringRead (ringWrite ring pos v) other = ringRead ring other := by
  simp [ringRead, ringWrite, List.getElem?_set_ne (Ne.symm h)]

theorem ringNext_lt {pos length : Nat} (h : 0 < length) : ringNext pos length < length := Nat.mod_lt _ h

/-- The sum of a ring after one entry is replaced: the running sum's update (43_discriminator.md R156, R159). -/
theorem ring_sum_write {ring : List Trit} {pos : Nat} (v : Trit) (h : pos < ring.length) :
    ((ringWrite ring pos v).map tritInt).sum =
      (ring.map tritInt).sum + tritInt v - tritInt (ringRead ring pos) := by
  induction ring generalizing pos with
  | nil => simp at h
  | cons a rest ih =>
    cases pos with
    | zero => simp [ringWrite, ringRead]; ring
    | succ n =>
      have := ih (pos := n) (by simpa using h)
      simp only [ringWrite, ringRead, List.set_cons_succ, List.map_cons, List.sum_cons, List.getD_cons_succ] at this ⊢
      rw [this]; ring

/-- The running sum is at most the number of entries (10_state.md R47). -/
theorem ring_sum_bounds (ring : List Trit) :
    -(ring.length : Int) ≤ (ring.map tritInt).sum ∧ (ring.map tritInt).sum ≤ ring.length := by
  induction ring with
  | nil => simp
  | cons a rest ih =>
    have := tritInt_bounds' a
    simp only [List.map_cons, List.sum_cons, List.length_cons]; push_cast; omega
where
  tritInt_bounds' (a : Trit) : -1 ≤ tritInt a ∧ tritInt a ≤ 1 := by cases a <;> decide

theorem ring_sum_zeros (n : Nat) : ((List.replicate n Trit.zero).map tritInt).sum = 0 := by
  simp [tritInt]

@[simp] theorem whenConfigured_true {s : State} (h : s.configured = true) (run : Host.Outcome State Fault Refusal) :
    whenConfigured s run = run := by simp [whenConfigured, h]

@[simp] theorem whenConfigured_false {s : State} (h : s.configured = false) (run : Host.Outcome State Fault Refusal) :
    whenConfigured s run = refuse s := by simp [whenConfigured, h]

/-- The flush of 45_deframer.md R187, said once: the list and the stamp are cleared, at most one event, nothing else moves. -/
theorem flushMessage_cases (now : Time) (r : RxBank) :
    (r.rxBytes = [] ∧ flushMessage now r = ([], r)) ∨
    (r.rxBytes ≠ [] ∧ flushMessage now r =
      ([.received r.rxBytes (r.rxStart.getD Config.staleStart) now], { r with rxBytes := [], rxStart := none })) := by
  unfold flushMessage
  split
  · rename_i h; exact .inl ⟨h, rfl⟩
  · rename_i h; exact .inr ⟨by simp [h], rfl⟩

@[simp] theorem flushMessage_symbolBuffer (now : Time) (r : RxBank) :
    (flushMessage now r).2.symbolBuffer = r.symbolBuffer := by unfold flushMessage; split <;> rfl
@[simp] theorem flushMessage_symbolCount (now : Time) (r : RxBank) :
    (flushMessage now r).2.symbolCount = r.symbolCount := by unfold flushMessage; split <;> rfl
@[simp] theorem flushMessage_rxBytes (now : Time) (r : RxBank) : (flushMessage now r).2.rxBytes = [] := by
  unfold flushMessage; split <;> rename_i h <;> simp [h]

/-- Error class (b) is the flush (60_exceptions.md R227). -/
theorem takeError_framing (now : Time) (r : RxBank) : takeError .framing now r = flushMessage now r := rfl

/-- Error class (c) is the flush and the count at 0 (60_exceptions.md R228). -/
theorem takeError_timing (now : Time) (r : RxBank) :
    takeError .timing now r = ((flushMessage now r).1, { (flushMessage now r).2 with symbolCount := 0 }) := rfl

/-- The three cases of a step (30_encoding.md R80, R84). -/
theorem step_cases (s : State) :
    (fetch s = .idle ∧ step s = .next s.accept) ∨
    (∃ e, fetch s = .reserved e ∧ step s = refuse s.accept) ∨
    (∃ i, fetch s = .op i ∧ step s = exec i s.accept) := by
  unfold step
  cases h : fetch s with
  | idle => exact .inl ⟨rfl, rfl⟩
  | reserved e => exact .inr (.inl ⟨e, rfl, rfl⟩)
  | op i => exact .inr (.inr ⟨i, rfl, rfl⟩)

end Sys2Proof.Machine
end

