-- ==== Sys2Proof/Laws/PerInstr.lean ====
section
/-! SUPPORT. The statements made per instruction. CommandLayout: the command word of an operation has the layout of
30_encoding.md R81. -/

namespace Sys2Proof.Laws

/-- The command word of an instruction has a zero field of 000, and its unit bit says its group (30_encoding.md R81 to R83). -/
def CommandLayout.Statement (i : Instr) : Prop :=
  cmdZero (encode i).cmd = 0 ∧ cmdUnit (encode i).cmd = i.opcode.isUnit

/-- The layout of every command word of the opcode table (R82, R83). -/
theorem encodeCmd_layout (op : Opcode) : cmdZero (encodeCmd op) = 0 ∧ cmdUnit (encodeCmd op) = op.isUnit := by
  cases op <;> decide

theorem CommandLayout.reset : CommandLayout.Statement .reset := encodeCmd_layout .reset
theorem CommandLayout.configure (params : Params) : CommandLayout.Statement (.configure params) := encodeCmd_layout .configure
theorem CommandLayout.txSchedule (id : MsgId) (bytes : List Byte) : CommandLayout.Statement (.txSchedule id bytes) :=
  encodeCmd_layout .txSchedule
theorem CommandLayout.txTick : CommandLayout.Statement .txTick := encodeCmd_layout .txTick
theorem CommandLayout.txBlock (n : Nat) : CommandLayout.Statement (.txBlock n) := encodeCmd_layout .txBlock
theorem CommandLayout.rxTick (sample : InSample) (now : Time) : CommandLayout.Statement (.rxTick sample now) :=
  encodeCmd_layout .rxTick
theorem CommandLayout.rxBlock (pairs : List (InSample × Time)) : CommandLayout.Statement (.rxBlock pairs) :=
  encodeCmd_layout .rxBlock
theorem CommandLayout.oscStep (inc : Num) : CommandLayout.Statement (.oscStep inc) := encodeCmd_layout .oscStep
theorem CommandLayout.toneSel (tone : Bit) : CommandLayout.Statement (.toneSel tone) := encodeCmd_layout .toneSel
theorem CommandLayout.schedPop : CommandLayout.Statement .schedPop := encodeCmd_layout .schedPop
theorem CommandLayout.framerNext : CommandLayout.Statement .framerNext := encodeCmd_layout .framerNext
theorem CommandLayout.discStep (sample : InSample) : CommandLayout.Statement (.discStep sample) := encodeCmd_layout .discStep
theorem CommandLayout.btrStep (raw : Bit) : CommandLayout.Statement (.btrStep raw) := encodeCmd_layout .btrStep
theorem CommandLayout.deframeBit (b : Bit) (now : Time) : CommandLayout.Statement (.deframeBit b now) :=
  encodeCmd_layout .deframeBit
theorem CommandLayout.deframeFail (now : Time) : CommandLayout.Statement (.deframeFail now) := encodeCmd_layout .deframeFail
theorem CommandLayout.deframeFlush (now : Time) : CommandLayout.Statement (.deframeFlush now) := encodeCmd_layout .deframeFlush
theorem CommandLayout.framerSym : CommandLayout.Statement .framerSym := encodeCmd_layout .framerSym

end Sys2Proof.Laws
end

