-- ==== Sys2Proof/Laws/Receive.lean ====
section
/-! SUPPORT. What the receive operations can do: Discriminator, Bit Timing Recovery, Deframer, the tick. -/

namespace Sys2Proof.Machine

/-! ### Discriminator -/

section Disc
variable (c : ParamRegs) (x : Sample) (r : RxBank)

@[simp] theorem discStep_prevBit : (discStep c x r).2.prevBit = r.prevBit := rfl
@[simp] theorem discStep_emittedBits : (discStep c x r).2.emittedBits = r.emittedBits := rfl
@[simp] theorem discStep_symbolBuffer : (discStep c x r).2.symbolBuffer = r.symbolBuffer := rfl
@[simp] theorem discStep_symbolCount : (discStep c x r).2.symbolCount = r.symbolCount := rfl
@[simp] theorem discStep_rxBytes : (discStep c x r).2.rxBytes = r.rxBytes := rfl
@[simp] theorem discStep_rxStart : (discStep c x r).2.rxStart = r.rxStart := rfl
@[simp] theorem discStep_dpos : (discStep c x r).2.dpos = ringNext r.dpos c.delayLen := rfl
@[simp] theorem discStep_cpos : (discStep c x r).2.cpos = ringNext r.cpos c.corrLen := rfl
@[simp] theorem discStep_delayLine :
    (discStep c x r).2.delayLine = ringWrite r.delayLine r.dpos (polarity x) := rfl
@[simp] theorem discStep_corrRing : (discStep c x r).2.corrRing =
    ringWrite r.corrRing r.cpos (tritMul (polarity x) (ringRead r.delayLine r.dpos)) := rfl
@[simp] theorem discStep_corrSum : (discStep c x r).2.corrSum =
    r.corrSum + tritInt (tritMul (polarity x) (ringRead r.delayLine r.dpos)) - tritInt (ringRead r.corrRing r.cpos) := rfl

/-- The classification uses the sum after this tick's update (43_discriminator.md R156). -/
theorem discStep_raw : (discStep c x r).1 = classify (discStep c x r).2.corrSum c.invert := rfl

/-- Only the sign of the sample matters (43_discriminator.md R156 (d), R157). -/
theorem discStep_congr {y : Sample} (h : 0 ≤ x ↔ 0 ≤ y) : discStep c x r = discStep c y r := by
  simp only [discStep, polarity_congr h]

end Disc

/-! ### Bit Timing Recovery -/

/-- The three outcomes of BTR_STEP, with the registers after each (44_bit_timing.md R171). -/
theorem btrStep_cases (c : ParamRegs) (raw : Bit) (r : RxBank) :
    (r.prevBit = some raw ∧ ⌊r.emittedBits + c.bitStep⌋ ≠ ⌊r.emittedBits⌋ ∧
      btrStep c raw r = (.cleanBit raw, { r with emittedBits := r.emittedBits + c.bitStep })) ∨
    (r.prevBit = some raw ∧ ⌊r.emittedBits + c.bitStep⌋ = ⌊r.emittedBits⌋ ∧
      btrStep c raw r = (.nothing, { r with emittedBits := r.emittedBits + c.bitStep })) ∨
    (r.prevBit ≠ some raw ∧ r.emittedBits < 1 ∧
      btrStep c raw r = (.failure, { r with prevBit := some raw, emittedBits := 1 / 2 })) ∨
    (r.prevBit ≠ some raw ∧ 1 ≤ r.emittedBits ∧
      btrStep c raw r = (.nothing, { r with prevBit := some raw, emittedBits := 1 / 2 })) := by
  by_cases hp : r.prevBit = some raw
  · by_cases hf : ⌊r.emittedBits + c.bitStep⌋ = ⌊r.emittedBits⌋
    · exact .inr (.inl ⟨hp, hf, by simp [btrStep, hp, periodEnded, hf]⟩)
    · exact .inl ⟨hp, hf, by simp [btrStep, hp, periodEnded, hf]⟩
  · by_cases he : r.emittedBits < 1
    · exact .inr (.inr (.inl ⟨hp, he, by simp [btrStep, hp, tooFast, he]⟩))
    · exact .inr (.inr (.inr ⟨hp, not_lt.mp he, by simp [btrStep, hp, tooFast, he]⟩))

/-! ### Deframer -/

/-- The bank after the shift of DEFRAME_BIT and before its check (45_deframer.md R186). -/
def shifted (b : Bit) (r : RxBank) : RxBank :=
  { r with symbolBuffer := shiftIn b r.symbolBuffer, symbolCount := r.symbolCount + 1 }

/-- The three outcomes of DEFRAME_BIT (45_deframer.md R186): counting, a valid frame, a mismatch. -/
theorem deframeBit_cases (b : Bit) (now : Time) (r : RxBank) :
    (r.symbolCount < 9 ∧ deframeBit b now r = ([], shifted b r)) ∨
    (9 ≤ r.symbolCount ∧ validFrame (shiftIn b r.symbolBuffer) = true ∧
      deframeBit b now r = ([], appendByte (windowByte (shiftIn b r.symbolBuffer)) now (shifted b r))) ∨
    (9 ≤ r.symbolCount ∧ validFrame (shiftIn b r.symbolBuffer) = false ∧
      deframeBit b now r = flushMessage now (shifted b r)) := by
  by_cases hc : 9 ≤ r.symbolCount
  · have h10 : 10 ≤ r.symbolCount + 1 := by omega
    cases hv : validFrame (shiftIn b r.symbolBuffer) with
    | true => exact .inr (.inl ⟨hc, rfl, by simp [deframeBit, h10, hv, shifted]⟩)
    | false => exact .inr (.inr ⟨hc, rfl, by simp [deframeBit, h10, hv, shifted, takeError]⟩)
  · have h10 : ¬ 10 ≤ r.symbolCount + 1 := by omega
    exact .inl ⟨by omega, by simp [deframeBit, h10, shifted]⟩

/-- The byte decoded, said once: none while counting or on a mismatch, the window's on a valid frame (45_deframer.md R186). -/
theorem decodedByte_cases (b : Bit) (r : RxBank) :
    (9 ≤ r.symbolCount ∧ validFrame (shiftIn b r.symbolBuffer) = true ∧
      decodedByte b r = some (windowByte (shiftIn b r.symbolBuffer))) ∨
    ((r.symbolCount < 9 ∨ validFrame (shiftIn b r.symbolBuffer) = false) ∧ decodedByte b r = none) := by
  unfold decodedByte
  split
  · rename_i h; exact .inl ⟨by omega, h.2, rfl⟩
  · rename_i h
    refine .inr ⟨?_, rfl⟩
    by_cases hc : r.symbolCount < 9
    · exact .inl hc
    · exact .inr (by rw [Bool.eq_false_iff]; exact fun hv => h ⟨by omega, hv⟩)

/-- A byte overflows exactly in a build with a capacity that the held bytes have reached (20_memory.md R63). -/
theorem overflows_iff (build : Build) (byte : Option Byte) (r : RxBank) : overflows build byte r = true ↔
    (∃ v, byte = some v) ∧ ∃ d, build.rxMaxLen = some d ∧ d ≤ r.rxBytes.length := by
  unfold overflows storeFull
  cases byte <;> cases build.rxMaxLen <;> simp

/-- The held bytes after DEFRAME_BIT: the decoded byte joins them, or they stay, or they have been flushed (R186, R187). -/
theorem deframeBit_rxBytes (b : Bit) (now : Time) (r : RxBank) :
    (∃ v, decodedByte b r = some v ∧ (deframeBit b now r).2.rxBytes = r.rxBytes ++ [v]) ∨
    (decodedByte b r = none ∧
      ((deframeBit b now r).2.rxBytes = r.rxBytes ∨ (deframeBit b now r).2.rxBytes = [])) := by
  rcases decodedByte_cases b r with ⟨hc, hv, e⟩ | ⟨hn, e⟩ <;>
    rcases deframeBit_cases b now r with ⟨hc', e'⟩ | ⟨hc', hv', e'⟩ | ⟨hc', hv', e'⟩
  · omega
  · exact .inl ⟨_, e, by rw [e']; rfl⟩
  · rw [hv] at hv'; cases hv'
  · exact .inr ⟨e, .inl (by rw [e']; rfl)⟩
  · rcases hn with hn | hn
    · omega
    · rw [hv'] at hn; cases hn
  · exact .inr ⟨e, .inr (by rw [e']; simp)⟩

/-- A byte that does not overflow leaves the store within its capacity (20_memory.md R63). -/
theorem deframeBit_fits {build : Build} {b : Bit} {now : Time} {r : RxBank} {d : Nat} (hd : build.rxMaxLen = some d)
    (h : r.rxBytes.length ≤ d) (ho : overflows build (decodedByte b r) r = false) :
    (deframeBit b now r).2.rxBytes.length ≤ d := by
  rcases deframeBit_rxBytes b now r with ⟨v, hv, e⟩ | ⟨-, e | e⟩ <;> rw [e]
  · have : ¬ d ≤ r.rxBytes.length := fun hf =>
      absurd ((overflows_iff build _ r).mpr ⟨⟨v, hv⟩, d, hd, hf⟩) (by simp [ho])
    simp; omega
  · exact h
  · simp

/-! ### The invariant of the receive bank, unit by unit -/

theorem RxBank.cleared_inv (c : ParamRegs) : (RxBank.cleared c.delayLen c.corrLen).Inv c where
  delay_length := by simp
  ring_length := by simp
  dpos_lt := by rw [cleared_dpos]; rcases Nat.eq_zero_or_pos c.delayLen with h | h <;> simp [h]
  cpos_lt := by rw [cleared_cpos]; rcases Nat.eq_zero_or_pos c.corrLen with h | h <;> simp [h]
  sum_exact := by simp only [cleared_corrSum, cleared_corrRing, ring_sum_zeros]
  emitted_fresh := by simp
  emitted_running := by simp
  start_iff := by simp

theorem discStep_inv {c : ParamRegs} {r : RxBank} (x : Sample) (h : r.Inv c) (hd : 0 < c.delayLen) (hc : 0 < c.corrLen) :
    (discStep c x r).2.Inv c where
  delay_length := by simp [h.delay_length]
  ring_length := by simp [h.ring_length]
  dpos_lt := .inl (by simpa using ringNext_lt hd)
  cpos_lt := .inl (by simpa using ringNext_lt hc)
  sum_exact := by
    have hp : r.cpos < r.corrRing.length := by rw [h.ring_length]; rcases h.cpos_lt with h | h <;> omega
    rw [discStep_corrSum, discStep_corrRing, ring_sum_write _ hp, h.sum_exact]
  emitted_fresh := by simpa using h.emitted_fresh
  emitted_running := by simpa using h.emitted_running
  start_iff := by simpa using h.start_iff

theorem btrStep_inv {c : ParamRegs} {r : RxBank} (raw : Bit) (h : r.Inv c) (hs : 0 ≤ c.bitStep) :
    (btrStep c raw r).2.Inv c := by
  rcases btrStep_cases c raw r with ⟨hp, -, e⟩ | ⟨hp, -, e⟩ | ⟨hp, -, e⟩ | ⟨hp, -, e⟩ <;> rw [e]
  · exact { h with
      emitted_fresh := by simp [hp]
      emitted_running := fun hn => by have := h.emitted_running hn; dsimp only; linarith }
  · exact { h with
      emitted_fresh := by simp [hp]
      emitted_running := fun hn => by have := h.emitted_running hn; dsimp only; linarith }
  · exact { h with emitted_fresh := by simp, emitted_running := by simp }
  · exact { h with emitted_fresh := by simp, emitted_running := by simp }

theorem flushMessage_inv {c : ParamRegs} {r : RxBank} (now : Time) (h : r.Inv c) : (flushMessage now r).2.Inv c := by
  rcases flushMessage_cases now r with ⟨-, e⟩ | ⟨-, e⟩ <;> rw [e]
  · exact h
  · exact { h with start_iff := by simp }

theorem deframeFail_inv {c : ParamRegs} {r : RxBank} (now : Time) (h : r.Inv c) : (deframeFail now r).2.Inv c := by
  have := flushMessage_inv now h
  exact { this with }

theorem shifted_inv {c : ParamRegs} {r : RxBank} (b : Bit) (h : r.Inv c) : (shifted b r).Inv c := { h with }

theorem deframeBit_inv {c : ParamRegs} {r : RxBank} (b : Bit) (now : Time) (h : r.Inv c) :
    (deframeBit b now r).2.Inv c := by
  rcases deframeBit_cases b now r with ⟨-, e⟩ | ⟨-, -, e⟩ | ⟨-, -, e⟩ <;> rw [e]
  · exact shifted_inv b h
  · have h' := shifted_inv b h
    refine { h' with start_iff := ?_ }
    have := h'.start_iff
    simp only [appendByte]
    split <;> simp_all
  · exact flushMessage_inv now (shifted_inv b h)

/-! ### The tick -/

/-- RX_TICK said once: the Deframer is entered at most once (46_demodulator.md R200). -/
theorem rxTick_cases (c : ParamRegs) (x : Sample) (now : Time) (r : RxBank) :
    let t := btrStep c (discStep c x r).1 (discStep c x r).2
    (∃ b, t.1 = .cleanBit b ∧ rxTick c x now r = deframeBit b now t.2) ∨
    (t.1 = .failure ∧ rxTick c x now r = deframeFail now t.2) ∨
    (t.1 = .nothing ∧ rxTick c x now r = ([], t.2)) := by
  intro t
  unfold rxTick
  cases h : t.1 with
  | cleanBit b => exact .inl ⟨b, rfl, by simp only [t] at h; simp [h, t]⟩
  | failure => exact .inr (.inl ⟨rfl, by simp only [t] at h; simp [h, t]⟩)
  | nothing => exact .inr (.inr ⟨rfl, by simp only [t] at h; simp [h, t]⟩)

/-- Neither the Discriminator nor Bit Timing Recovery touches the held bytes (46_demodulator.md R200). -/
@[simp] theorem btrStep_rxBytes (c : ParamRegs) (raw : Bit) (r : RxBank) : (btrStep c raw r).2.rxBytes = r.rxBytes := by
  unfold btrStep; split <;> rfl

/-- The byte a tick decodes, by the result of Bit Timing Recovery (46_demodulator.md R200). -/
theorem tickByte_cases (c : ParamRegs) (x : Sample) (r : RxBank) :
    let t := btrStep c (discStep c x r).1 (discStep c x r).2
    (∃ b, t.1 = .cleanBit b ∧ tickByte c x r = decodedByte b t.2) ∨
    ((t.1 = .failure ∨ t.1 = .nothing) ∧ tickByte c x r = none) := by
  intro t
  unfold tickByte
  cases h : t.1 with
  | cleanBit b => exact .inl ⟨b, rfl, by simp only [t] at h; simp [h, t]⟩
  | failure => exact .inr ⟨.inl rfl, by simp only [t] at h; simp [h]⟩
  | nothing => exact .inr ⟨.inr rfl, by simp only [t] at h; simp [h]⟩

theorem rxTick_fits {build : Build} {c : ParamRegs} {x : Sample} {now : Time} {r : RxBank} {d : Nat}
    (hd : build.rxMaxLen = some d) (h : r.rxBytes.length ≤ d) (ho : overflows build (tickByte c x r) r = false) :
    (rxTick c x now r).2.rxBytes.length ≤ d := by
  have hb : (btrStep c (discStep c x r).1 (discStep c x r).2).2.rxBytes = r.rxBytes := by simp
  rcases rxTick_cases c x now r with ⟨b, h1, e⟩ | ⟨h1, e⟩ | ⟨h1, e⟩ <;> rw [e]
  · rcases tickByte_cases c x r with ⟨b', h2, e'⟩ | ⟨h2, -⟩
    · obtain rfl : b = b' := by simpa [h1] using h2
      refine deframeBit_fits hd (by rw [hb]; exact h) ?_
      rw [← e']
      simpa [overflows, storeFull, hb] using ho
    · simp [h1] at h2
  · simp [deframeFail, takeError_timing]
  · rw [hb]; exact h

theorem rxBlock_fits {build : Build} {c : ParamRegs} {d : Nat} (hd : build.rxMaxLen = some d)
    (pairs : List (Sample × Time)) {r : RxBank} (h : r.rxBytes.length ≤ d) (ho : blockOverflows build c pairs r = false) :
    (rxBlock c pairs r).2.rxBytes.length ≤ d := by
  induction pairs generalizing r with
  | nil => exact h
  | cons a rest ih =>
    simp only [blockOverflows, Bool.or_eq_false_iff] at ho
    exact ih (rxTick_fits hd h ho.1) ho.2

theorem rxTick_inv {c : ParamRegs} {r : RxBank} (x : Sample) (now : Time) (h : r.Inv c)
    (hd : 0 < c.delayLen) (hc : 0 < c.corrLen) (hs : 0 ≤ c.bitStep) : (rxTick c x now r).2.Inv c := by
  have hb := btrStep_inv (discStep c x r).1 (discStep_inv x h hd hc) hs
  rcases rxTick_cases c x now r with ⟨b, -, e⟩ | ⟨-, e⟩ | ⟨-, e⟩ <;> rw [e]
  · exact deframeBit_inv b now hb
  · exact deframeFail_inv now hb
  · exact hb

theorem rxBlock_inv {c : ParamRegs} {r : RxBank} (pairs : List (Sample × Time)) (h : r.Inv c)
    (hd : 0 < c.delayLen) (hc : 0 < c.corrLen) (hs : 0 ≤ c.bitStep) : (rxBlock c pairs r).2.Inv c := by
  induction pairs generalizing r with
  | nil => exact h
  | cons a rest ih => exact ih (rxTick_inv a.1 a.2 h hd hc hs)

/-! ### The fraction of `emitted_bits` in a fixed-width build -/

@[simp] theorem flushMessage_emittedBits (now : Time) (r : RxBank) : (flushMessage now r).2.emittedBits = r.emittedBits := by
  unfold flushMessage; split <;> rfl

/-- The Deframer does not touch `emitted_bits` (45_deframer.md R186). -/
@[simp] theorem deframeBit_emittedBits (b : Bit) (now : Time) (r : RxBank) :
    (deframeBit b now r).2.emittedBits = r.emittedBits := by
  rcases deframeBit_cases b now r with ⟨-, e⟩ | ⟨-, -, e⟩ | ⟨-, -, e⟩ <;> rw [e] <;> simp [shifted, appendByte]

/-- BTR_STEP leaves `emitted_bits` a value of the fraction bits that hold BIT_STEP and 1/2 (70_reset_and_hazards.md R262). -/
theorem btrStep_onGrid {c : ParamRegs} {q : Nat} (hs : onGrid (q + 1) c.bitStep = true) (raw : Bit) {r : RxBank}
    (h : onGrid (q + 1) r.emittedBits = true) : onGrid (q + 1) (btrStep c raw r).2.emittedBits = true := by
  unfold btrStep
  split
  · exact onGrid_add h hs
  · exact onGrid_half q

theorem rxTick_onGrid {c : ParamRegs} {q : Nat} (hs : onGrid (q + 1) c.bitStep = true) (x : Sample) (now : Time) {r : RxBank}
    (h : onGrid (q + 1) r.emittedBits = true) : onGrid (q + 1) (rxTick c x now r).2.emittedBits = true := by
  have hb := btrStep_onGrid hs (discStep c x r).1 (r := (discStep c x r).2) h
  rcases rxTick_cases c x now r with ⟨b, -, e⟩ | ⟨-, e⟩ | ⟨-, e⟩ <;> rw [e]
  · rwa [deframeBit_emittedBits]
  · simpa [deframeFail, takeError_timing] using hb
  · exact hb

theorem rxBlock_onGrid {c : ParamRegs} {q : Nat} (hs : onGrid (q + 1) c.bitStep = true) (pairs : List (Sample × Time))
    {r : RxBank} (h : onGrid (q + 1) r.emittedBits = true) : onGrid (q + 1) (rxBlock c pairs r).2.emittedBits = true := by
  induction pairs generalizing r with
  | nil => exact h
  | cons a rest ih => exact ih (rxTick_onGrid hs a.1 a.2 h)

/-! ### The saturating count -/

section Saturated
variable (s : State) (r : RxBank)

@[simp] theorem RxBank.saturated_delayLine : r.saturated.delayLine = r.delayLine := rfl
@[simp] theorem RxBank.saturated_dpos : r.saturated.dpos = r.dpos := rfl
@[simp] theorem RxBank.saturated_corrRing : r.saturated.corrRing = r.corrRing := rfl
@[simp] theorem RxBank.saturated_cpos : r.saturated.cpos = r.cpos := rfl
@[simp] theorem RxBank.saturated_corrSum : r.saturated.corrSum = r.corrSum := rfl
@[simp] theorem RxBank.saturated_prevBit : r.saturated.prevBit = r.prevBit := rfl
@[simp] theorem RxBank.saturated_emittedBits : r.saturated.emittedBits = r.emittedBits := rfl
@[simp] theorem RxBank.saturated_symbolBuffer : r.saturated.symbolBuffer = r.symbolBuffer := rfl
@[simp] theorem RxBank.saturated_symbolCount : r.saturated.symbolCount = min r.symbolCount 10 := rfl
@[simp] theorem RxBank.saturated_rxBytes : r.saturated.rxBytes = r.rxBytes := rfl
@[simp] theorem RxBank.saturated_rxStart : r.saturated.rxStart = r.rxStart := rfl

@[simp] theorem State.saturated_build : s.saturated.build = s.build := rfl
@[simp] theorem State.saturated_configured : s.saturated.configured = s.configured := rfl
@[simp] theorem State.saturated_params : s.saturated.params = s.params := rfl
@[simp] theorem State.saturated_tx : s.saturated.tx = s.tx := rfl
@[simp] theorem State.saturated_rx : s.saturated.rx = s.rx.saturated := rfl
@[simp] theorem State.saturated_port : s.saturated.port = s.port := rfl
@[simp] theorem State.saturated_resp : s.saturated.resp = s.resp := rfl

end Saturated

end Sys2Proof.Machine
end

