-- ==== Sys2Proof/Laws/Transmit.lean ====
section
/-! SUPPORT. What the transmit operations can do: symbols, the inner and outer loop of TX_TICK, the tick itself. -/

namespace Sys2Proof.Machine

/-! ### Symbols -/

theorem symKind_zero (m : Message) : symKind m 0 = .pre := rfl

/-- DONE is the position `2 + 10·N` (41_framer_scheduler.md R121), and every position past it (log entry 12). -/
theorem symKind_eq_done_iff (m : Message) (k : Nat) : symKind m k = .done ↔ donePos m ≤ k := by
  unfold symKind donePos
  split
  · simp; omega
  · split
    · simp; omega
    · split
      · simp; omega
      · dsimp only
        split
        · simp; omega
        · split <;> simp <;> omega

theorem symTone_isSome_iff (m : Message) (k : Nat) : (symTone m k).isSome = true ↔ k < donePos m := by
  have h := symKind_eq_done_iff m k
  unfold symTone
  cases hk : symKind m k <;> simp [hk] at h ⊢ <;> omega

theorem symDur_isSome_iff (c : ParamRegs) (m : Message) (k : Nat) : (symDur c m k).isSome = true ↔ k < donePos m := by
  have h := symKind_eq_done_iff m k
  unfold symDur
  cases hk : symKind m k <;> simp [hk] at h ⊢ <;> omega

/-- The length of a bit symbol, of the tail, and of DONE (41_framer_scheduler.md R123). -/
theorem symDur_succ (c : ParamRegs) (m : Message) (k : Nat) : (symDur c m (k + 1)).getD 0 =
    if k < 10 * m.bytes.length then c.symLen else if k = 10 * m.bytes.length then c.tailLen else 0 := by
  by_cases h1 : k < 10 * m.bytes.length
  · have hk : ∃ i j, symKind m (k + 1) = .start i ∨ symKind m (k + 1) = .stop i ∨ symKind m (k + 1) = .data i j := by
      unfold symKind donePos
      rw [if_neg (by omega), if_neg (by omega), if_neg (by omega)]
      dsimp only
      split
      · exact ⟨_, 0, .inl rfl⟩
      · split
        · exact ⟨_, 0, .inr (.inl rfl)⟩
        · exact ⟨_, _, .inr (.inr rfl)⟩
    obtain ⟨i, j, h | h | h⟩ := hk <;> simp [symDur, h, h1]
  · by_cases h2 : k = 10 * m.bytes.length
    · have : symKind m (k + 1) = .tail := by
        unfold symKind; rw [if_neg (by omega), if_pos (by omega)]
      rw [if_neg h1, if_pos h2, symDur, this]; rfl
    · have : symKind m (k + 1) = .done := (symKind_eq_done_iff _ _).mpr (by unfold donePos; omega)
      simp [symDur, this, h1, h2]

theorem symbolEnd_zero (c : ParamRegs) (m : Message) : symbolEnd c m 0 = c.preLen := by
  simp [symbolEnd]

/-- The boundary of the next symbol (41_framer_scheduler.md R131). -/
theorem symbolEnd_succ (c : ParamRegs) (m : Message) (k : Nat) :
    symbolEnd c m (k + 1) = symbolEnd c m k + (symDur c m (k + 1)).getD 0 := by
  rw [symDur_succ]
  unfold symbolEnd
  by_cases h1 : k < 10 * m.bytes.length
  · rw [if_pos h1, min_eq_left (by omega), min_eq_left (by omega), if_neg (by omega), if_neg (by omega)]
    push_cast; ring
  · rw [if_neg h1, min_eq_right (by omega), min_eq_right (by omega), if_pos (by omega)]
    by_cases h2 : k = 10 * m.bytes.length
    · rw [if_pos h2, if_neg (by omega)]; ring
    · rw [if_neg h2, if_pos (by omega)]; ring

theorem framerNext_boundary_exact {c : ParamRegs} {m : Message} {t : TxBank}
    (h : t.txBoundary = symbolEnd c m t.txPos) :
    (framerNext c m t).txBoundary = symbolEnd c m (framerNext c m t).txPos := by
  rw [framerNext_txBoundary, framerNext_txPos, symbolEnd_succ, h]

/-! ### The inner loop -/

/-- Everything the inner loop of TX_TICK leaves alone. -/
theorem passSymbols_frame (c : ParamRegs) (m : Message) (fuel : Nat) (t : TxBank) :
    (passSymbols c m fuel t).txPhase = t.txPhase ∧ (passSymbols c m fuel t).txInc = t.txInc ∧
    (passSymbols c m fuel t).txN = t.txN ∧ (passSymbols c m fuel t).txActive = t.txActive ∧
    (passSymbols c m fuel t).txFifo = t.txFifo := by
  induction fuel generalizing t with
  | zero => simp [passSymbols]
  | succ n ih =>
    unfold passSymbols
    split
    · have := ih (framerNext c m t); simpa using this
    · simp

theorem passSymbols_pos (c : ParamRegs) (m : Message) (fuel : Nat) (t : TxBank) :
    t.txPos ≤ (passSymbols c m fuel t).txPos ∧
    (t.txPos ≤ donePos m → (passSymbols c m fuel t).txPos ≤ donePos m) := by
  induction fuel generalizing t with
  | zero => simp [passSymbols]
  | succ n ih =>
    unfold passSymbols
    split
    · rename_i hlt
      have := ih (framerNext c m t)
      simp only [framerNext_txPos] at this
      exact ⟨by omega, fun _ => this.2 (by omega)⟩
    · simp

theorem passSymbols_boundary {c : ParamRegs} {m : Message} (fuel : Nat) {t : TxBank}
    (h : t.txBoundary = symbolEnd c m t.txPos) :
    (passSymbols c m fuel t).txBoundary = symbolEnd c m (passSymbols c m fuel t).txPos := by
  induction fuel generalizing t with
  | zero => simpa [passSymbols] using h
  | succ n ih =>
    unfold passSymbols
    split
    · exact ih (framerNext_boundary_exact h)
    · exact h

/-- The passes given are enough: the loop ends because its condition fails (42_modulator.md R146). -/
theorem passSymbols_ends (c : ParamRegs) (m : Message) (fuel : Nat) (t : TxBank) (h : donePos m - t.txPos ≤ fuel) :
    donePos m ≤ (passSymbols c m fuel t).txPos ∨
    ((passSymbols c m fuel t).txN : Num) < (passSymbols c m fuel t).txBoundary := by
  induction fuel generalizing t with
  | zero => left; simp only [passSymbols]; omega
  | succ n ih =>
    unfold passSymbols
    split
    · exact ih _ (by simp only [framerNext_txPos]; omega)
    · rename_i hc
      by_cases hp : t.txPos < donePos m
      · right; exact lt_of_not_ge fun hb => hc ⟨hp, hb⟩
      · left; omega

/-- A symbol that was passed had ended (41_framer_scheduler.md R131: position k is current from B_(k−1) on). -/
theorem passSymbols_passed {c : ParamRegs} {m : Message} (fuel : Nat) {t : TxBank}
    (h : t.txBoundary = symbolEnd c m t.txPos) :
    (passSymbols c m fuel t).txPos = t.txPos ∨
    symbolEnd c m ((passSymbols c m fuel t).txPos - 1) ≤ (t.txN : Num) := by
  induction fuel generalizing t with
  | zero => left; rfl
  | succ n ih =>
    unfold passSymbols
    split
    · rename_i hc
      right
      have := ih (framerNext_boundary_exact (c := c) (m := m) h)
      simp only [framerNext_txPos, framerNext_txN] at this
      rcases this with he | hl
      · rw [he, Nat.add_sub_cancel, ← h]; exact hc.2
      · exact hl
    · left; rfl

theorem settle_frame (c : ParamRegs) (m : Message) (t : TxBank) :
    (settle c m t).txPhase = t.txPhase ∧ (settle c m t).txInc = t.txInc ∧ (settle c m t).txN = t.txN ∧
    (settle c m t).txActive = t.txActive ∧ (settle c m t).txFifo = t.txFifo := passSymbols_frame ..

/-- The inner loop of TX_TICK said once: it stops at DONE or at a symbol that owns sample `tx_n` (42_modulator.md R142). -/
theorem settle_done (c : ParamRegs) (m : Message) (t : TxBank) :
    donePos m ≤ (settle c m t).txPos ∨ ((settle c m t).txN : Num) < (settle c m t).txBoundary :=
  passSymbols_ends c m _ t (le_refl _)

theorem settle_pos_le {c : ParamRegs} {m : Message} {t : TxBank} (h : t.txPos ≤ donePos m) :
    (settle c m t).txPos ≤ donePos m := (passSymbols_pos c m _ t).2 h

theorem settle_boundary {c : ParamRegs} {m : Message} {t : TxBank} (h : t.txBoundary = symbolEnd c m t.txPos) :
    (settle c m t).txBoundary = symbolEnd c m (settle c m t).txPos := passSymbols_boundary _ h

/-! ### The outer loop -/

/-- What the outer loop of TX_TICK leaves: idle with an empty queue, or an active message whose current symbol owns sample
`tx_n` (42_modulator.md R142). -/
def BroughtUp (u : TxBank) : Prop :=
  (u.txActive = none ∧ u.txFifo = []) ∨
  ∃ m, u.txActive = some m ∧ u.txPos < donePos m ∧ (u.txN : Num) < u.txBoundary

theorem takeFrom_spec (c : ParamRegs) (q : List Message) (t : TxBank) (ha : t.txActive = none) (hq : t.txFifo = q) :
    (takeFrom c q t).1.txPhase = t.txPhase ∧ (takeFrom c q t).1.txInc = t.txInc ∧ BroughtUp (takeFrom c q t).1 ∧
    (takeFrom c q t).2.filterMap Event.completedId ++ pendingIds (takeFrom c q t).1 = q.map Message.id ∧
    (∀ e ∈ (takeFrom c q t).2, ∃ id, e = .completed id) := by
  induction q generalizing t with
  | nil => simp [takeFrom, BroughtUp, ha, hq, pendingIds]
  | cons m q ih =>
    have hf := settle_frame c m (activate c m q t)
    simp only [activate_txPhase, activate_txInc, activate_txN, activate_txActive, activate_txFifo] at hf
    obtain ⟨h1, h2, h3, h4, h5⟩ := hf
    unfold takeFrom
    dsimp only
    split
    · obtain ⟨i1, i2, i3, i4, i5⟩ := ih (release (settle c m (activate c m q t))) rfl h5
      refine ⟨by rw [i1]; exact h1, by rw [i2]; exact h2, i3, ?_, ?_⟩
      · simp only [List.filterMap_cons, Event.completedId, List.cons_append, List.map_cons, i4]
      · intro e he
        rcases List.mem_cons.mp he with rfl | he
        · exact ⟨_, rfl⟩
        · exact i5 e he
    · rename_i hnd
      refine ⟨h1, h2, .inr ⟨m, h4, not_le.mp hnd, ?_⟩, ?_, by simp⟩
      · exact (settle_done c m (activate c m q t)).resolve_left hnd
      · simp [pendingIds, h4, h5]

/-- The outer loop of TX_TICK said once: the phase and the increment stay, the bank is brought up, and the completions
reported are those of the messages that left, in order (41_framer_scheduler.md R130). -/
theorem bringUp_spec (c : ParamRegs) (t : TxBank) :
    (bringUp c t).1.txPhase = t.txPhase ∧ (bringUp c t).1.txInc = t.txInc ∧ BroughtUp (bringUp c t).1 ∧
    (bringUp c t).2.filterMap Event.completedId ++ pendingIds (bringUp c t).1 = pendingIds t ∧
    (∀ e ∈ (bringUp c t).2, ∃ id, e = .completed id) := by
  unfold bringUp
  cases ha : t.txActive with
  | none =>
    have := takeFrom_spec c t.txFifo t ha rfl
    simpa [pendingIds, ha] using this
  | some m =>
    obtain ⟨h1, h2, h3, h4, h5⟩ := settle_frame c m t
    dsimp only
    split
    · obtain ⟨i1, i2, i3, i4, i5⟩ := takeFrom_spec c (settle c m t).txFifo (release (settle c m t)) rfl rfl
      refine ⟨by rw [i1]; exact h1, by rw [i2]; exact h2, i3, ?_, ?_⟩
      · simp only [List.filterMap_cons, Event.completedId, List.cons_append, i4]
        simp [h5, pendingIds, ha]
      · intro e he
        rcases List.mem_cons.mp he with rfl | he
        · exact ⟨_, rfl⟩
        · exact i5 e he
    · rename_i hnd
      refine ⟨h1, h2, .inr ⟨m, by rw [h4, ha], not_le.mp hnd, ?_⟩, ?_, by simp⟩
      · exact (settle_done c m t).resolve_left hnd
      · simp [pendingIds, h4, h5, ha]

/-! ### The tick -/

/-- TX_TICK on a configured block, said once (42_modulator.md R142, R143): it brings the bank up, and then either is idle,
with the phase at 0 and no sample, or produces the sample of the phase before the advance. -/
theorem txTick_cases (c : ParamRegs) (t : TxBank) :
    ((bringUp c t).1.txActive = none ∧ (bringUp c t).1.txFifo = [] ∧
      txTick c t = { bank := { (bringUp c t).1 with txPhase := 0 }, sample := none, events := (bringUp c t).2 }) ∨
    (∃ m tone, (bringUp c t).1.txActive = some m ∧ symTone m (bringUp c t).1.txPos = some tone ∧
      (bringUp c t).1.txPos < donePos m ∧ ((bringUp c t).1.txN : Num) < (bringUp c t).1.txBoundary ∧
      txTick c t =
        { bank := { (bringUp c t).1 with
            txInc := toneSel c tone
            txPhase := wrapPhase (t.txPhase + toneSel c tone)
            txN := (bringUp c t).1.txN + 1 }
          sample := some (Config.sine t.txPhase)
          events := (bringUp c t).2 }) := by
  obtain ⟨h1, h2, hb, h4, h5⟩ := bringUp_spec c t
  rcases hb with ⟨ha, hf⟩ | ⟨m, ha, hp, hn⟩
  · left
    refine ⟨ha, hf, ?_⟩
    unfold txTick
    simp only [ha]
  · right
    obtain ⟨tone, ht⟩ := Option.isSome_iff_exists.mp ((symTone_isSome_iff m _).mpr hp)
    refine ⟨m, tone, ha, ht, hp, hn, ?_⟩
    unfold txTick
    simp only [ha, ht, Option.getD_some, oscStep, h1]

/-! ### The invariant of the transmit bank, operation by operation -/

/-- Where a message ends does not go down with its length. -/
theorem messageEnd_mono {b : Build} {c : ParamRegs} (hc : c.Ranges b) {n d : Nat} (h : n ≤ d) :
    messageEnd c n ≤ messageEnd c d := by
  have := mul_le_mul_of_nonneg_right (show ((10 * n : Nat) : Num) ≤ (10 * d : Nat) by exact_mod_cast (by omega)) hc.sym_nonneg
  unfold messageEnd
  linarith

theorem messageEnd_nonneg {b : Build} {c : ParamRegs} (hc : c.Ranges b) (n : Nat) : 0 ≤ messageEnd c n := by
  have := mul_nonneg (Nat.cast_nonneg (α := Num) (10 * n)) hc.sym_nonneg
  unfold messageEnd
  linarith [hc.pre_nonneg, hc.tail_nonneg]

theorem symbolEnd_le {b : Build} {c : ParamRegs} (hc : c.Ranges b) (m : Message) (k : Nat) :
    symbolEnd c m k ≤ messageEnd c m.bytes.length := by
  have := mul_le_mul_of_nonneg_right
    (show ((min k (10 * m.bytes.length) : Nat) : Num) ≤ (10 * m.bytes.length : Nat) by exact_mod_cast min_le_right ..) hc.sym_nonneg
  unfold symbolEnd messageEnd
  split <;> linarith [hc.tail_nonneg]

theorem symDur_range {b : Build} {c : ParamRegs} (hc : c.Ranges b) (m : Message) (k : Nat) :
    0 ≤ (symDur c m k).getD 0 ∧ ∀ q, b.fracWidth = some q → onGrid q ((symDur c m k).getD 0) = true := by
  unfold symDur
  split
  · exact ⟨hc.pre_nonneg, hc.pre_on_grid⟩
  · exact ⟨hc.sym_nonneg, hc.sym_on_grid⟩
  · exact ⟨hc.sym_nonneg, hc.sym_on_grid⟩
  · exact ⟨hc.sym_nonneg, hc.sym_on_grid⟩
  · exact ⟨hc.tail_nonneg, hc.tail_on_grid⟩
  · exact ⟨le_refl _, fun q _ => onGrid_zero q⟩

theorem TxBank.cleared_inv {b : Build} {c : ParamRegs} (hc : c.Ranges b) : TxBank.cleared.Inv b c where
  phase_nonneg := le_refl _
  phase_lt_one := by norm_num
  inc_nonneg := le_refl _
  inc_lt_one := zero_lt_one
  phase_on_grid := fun w _ => onGrid_zero w
  inc_on_grid := fun w _ => onGrid_zero w
  boundary_nonneg := le_refl _
  boundary_on_grid := fun w _ => onGrid_zero w
  pos_fits := fun _ _ => Nat.zero_le _
  boundary_fits := fun d _ => messageEnd_nonneg hc d
  count_fits := fun _ _ => Nat.zero_le _
  pos_le_done := by simp
  boundary_exact := by simp
  queue_fits := by simp
  payloads_fit := by simp
  active_fits := by simp

section Inv
variable {b : Build} {c : ParamRegs} {m : Message} {q : List Message} {t : TxBank}

/-- SCHED_POP keeps the invariant: the boundary restarts at the end of the preamble (41_framer_scheduler.md R127). -/
theorem activate_inv (hc : c.Ranges b) (h : t.Inv b c) (hq : t.txFifo = m :: q) : (activate c m q t).Inv b c where
  phase_nonneg := h.phase_nonneg
  phase_lt_one := h.phase_lt_one
  inc_nonneg := h.inc_nonneg
  inc_lt_one := h.inc_lt_one
  phase_on_grid := h.phase_on_grid
  inc_on_grid := h.inc_on_grid
  boundary_nonneg := hc.pre_nonneg
  boundary_on_grid := hc.pre_on_grid
  pos_fits := fun _ _ => Nat.zero_le _
  boundary_fits := fun d _ => by
    have h0 := messageEnd_mono hc (Nat.zero_le d)
    have : messageEnd c 0 = c.preLen + c.tailLen := by simp [messageEnd]
    simp only [activate_txBoundary]
    linarith [hc.tail_nonneg]
  count_fits := fun _ _ => Nat.zero_le _
  pos_le_done := by simp
  boundary_exact := by intro m' hm; simp [symbolEnd_zero]
  queue_fits := fun d hd => by have := h.queue_fits d hd; simp only [hq, List.length_cons] at this; simp; omega
  payloads_fit := fun d hd m' hm' => h.payloads_fit d hd m' (by rw [hq]; exact List.mem_cons_of_mem _ hm')
  active_fits := fun d hd m' hm' => by
    obtain rfl : m = m' := by simpa using hm'
    exact h.payloads_fit d hd m (by rw [hq]; exact List.mem_cons_self ..)

theorem release_inv (h : t.Inv b c) : (release t).Inv b c :=
  { h with
    pos_le_done := by simp
    boundary_exact := by simp
    active_fits := by simp }

/-- FRAMER_NEXT keeps the invariant: the boundary is the next symbol's end (41_framer_scheduler.md R124, R131). -/
theorem framerNext_inv (hc : c.Ranges b) (h : t.Inv b c) (ha : t.txActive = some m) (hp : t.txPos < donePos m) :
    (framerNext c m t).Inv b c where
  phase_nonneg := by simpa using h.phase_nonneg
  phase_lt_one := by simpa using h.phase_lt_one
  inc_nonneg := by simpa using h.inc_nonneg
  inc_lt_one := by simpa using h.inc_lt_one
  phase_on_grid := by simpa using h.phase_on_grid
  inc_on_grid := by simpa using h.inc_on_grid
  boundary_nonneg := by
    rw [framerNext_txBoundary]; exact add_nonneg h.boundary_nonneg (symDur_range hc m _).1
  boundary_on_grid := fun q hq => by
    rw [framerNext_txBoundary]; exact onGrid_add (h.boundary_on_grid q hq) ((symDur_range hc m _).2 q hq)
  pos_fits := fun d hd => by
    have := h.active_fits d hd m ha
    unfold donePos at hp
    simp only [framerNext_txPos]; omega
  boundary_fits := fun d hd => by
    rw [framerNext_boundary_exact (h.boundary_exact m ha)]
    exact (symbolEnd_le hc m _).trans (messageEnd_mono hc (h.active_fits d hd m ha))
  count_fits := by simpa using h.count_fits
  pos_le_done := fun m' hm' => by
    obtain rfl : m = m' := by simpa [ha] using hm'
    simp only [framerNext_txPos]; omega
  boundary_exact := fun m' hm' => by
    obtain rfl : m = m' := by simpa [ha] using hm'
    exact framerNext_boundary_exact (h.boundary_exact m ha)
  queue_fits := by simpa using h.queue_fits
  payloads_fit := by simpa using h.payloads_fit
  active_fits := by simpa using h.active_fits

theorem passSymbols_inv (hc : c.Ranges b) (fuel : Nat) (h : t.Inv b c) (ha : t.txActive = some m) :
    (passSymbols c m fuel t).Inv b c := by
  induction fuel generalizing t with
  | zero => exact h
  | succ n ih =>
    unfold passSymbols
    split
    · rename_i hlt
      exact ih (framerNext_inv hc h ha hlt.1) (by simpa using ha)
    · exact h

theorem settle_inv (hc : c.Ranges b) (h : t.Inv b c) (ha : t.txActive = some m) : (settle c m t).Inv b c :=
  passSymbols_inv hc _ h ha

theorem takeFrom_inv (hc : c.Ranges b) (h : t.Inv b c) (hq : t.txFifo = q) : (takeFrom c q t).1.Inv b c := by
  induction q generalizing t with
  | nil => exact h
  | cons m q ih =>
    have hs := settle_inv hc (activate_inv hc h hq) (activate_txActive c m q t)
    unfold takeFrom
    dsimp only
    split
    · exact ih (release_inv hs) (settle_frame c m (activate c m q t)).2.2.2.2
    · exact hs

theorem bringUp_inv (hc : c.Ranges b) (h : t.Inv b c) : (bringUp c t).1.Inv b c := by
  unfold bringUp
  cases ha : t.txActive with
  | none => exact takeFrom_inv hc h rfl
  | some m =>
    dsimp only
    split
    · exact takeFrom_inv hc (release_inv (settle_inv hc h ha)) rfl
    · exact settle_inv hc h ha

/-- A step of the oscillator keeps the invariant for an increment in `[0, 1)` that the build can hold (40_oscillator.md R111, R112). -/
theorem oscStep_inv {inc : Num} (h : t.Inv b c) (h0 : 0 ≤ inc) (h1 : inc < 1)
    (hg : ∀ w, b.phaseWidth = some w → onGrid w inc = true) : (oscStep inc t).2.Inv b c :=
  have hw := wrapPhase_range (x := t.txPhase + inc) (add_nonneg h.phase_nonneg h0) (by linarith [h.phase_lt_one])
  { h with
    phase_nonneg := hw.1
    phase_lt_one := hw.2
    phase_on_grid := fun w hw => onGrid_wrapPhase (onGrid_add (h.phase_on_grid w hw) (hg w hw)) }

theorem toneSel_range (hc : c.Ranges b) (tone : Bit) :
    0 ≤ toneSel c tone ∧ toneSel c tone < 1 ∧ ∀ w, b.phaseWidth = some w → onGrid w (toneSel c tone) = true := by
  unfold toneSel
  split
  · exact ⟨hc.mark_nonneg, hc.mark_lt_one, hc.mark_on_grid⟩
  · exact ⟨hc.space_nonneg, hc.space_lt_one, hc.space_on_grid⟩

/-- TX_TICK keeps the invariant: the sample counted lies before the symbol's end, so before the message's (42_modulator.md R142). -/
theorem txTick_inv (hc : c.Ranges b) (h : t.Inv b c) : (txTick c t).bank.Inv b c := by
  have hu := bringUp_inv hc h
  rcases txTick_cases c t with ⟨-, -, e⟩ | ⟨m, tone, -, -, -, hn, e⟩ <;> rw [e]
  · exact { hu with phase_nonneg := le_refl _, phase_lt_one := zero_lt_one, phase_on_grid := fun w _ => onGrid_zero w }
  · obtain ⟨i0, i1, ig⟩ := toneSel_range hc tone
    have ho := oscStep_inv h i0 i1 ig
    exact { hu with
      phase_nonneg := ho.phase_nonneg
      phase_lt_one := ho.phase_lt_one
      phase_on_grid := ho.phase_on_grid
      inc_nonneg := i0
      inc_lt_one := i1
      inc_on_grid := ig
      count_fits := fun d hd => Nat.lt_ceil.mpr (hn.trans_le (hu.boundary_fits d hd)) }

theorem txBlock_inv (hc : c.Ranges b) (h : t.Inv b c) (n : Nat) : (txBlock c n t).bank.Inv b c := by
  induction n generalizing t with
  | zero => exact h
  | succ n ih => exact ih (txTick_inv hc h)

end Inv

end Sys2Proof.Machine
end

