-- ==== Sys2Proof/Tests/Slice0.lean ====
section
/-! SUPPORT. Our own tests: ill-formed terms refused, command words written out, one step at a time from the vectors of
95_test_vectors.md, and for every statement with hypotheses a state that meets them. -/

open Sys2Proof Sys2Proof.Machine

namespace Sys2Proof.Tests

set_option Elab.async false

/-! ### Helpers -/

/-- The next state of an outcome, the state after reset where there is none. -/
def after : Host.Outcome State Fault Refusal → State
  | .next s => s
  | .fault _ => State.reset
  | .refused _ => State.reset

/-- The parameter set of program P1. -/
def p1 : Params :=
  { fs := 8, baud := 2, fMark := 1, fSpace := 2, preDur := 1 / 2, tailDur := 1 / 2, delayLen := some 1, corrLen := some 1 }

/-- The parameter set of vector C-1. -/
def c1 : Params :=
  { fs := 48, baud := 4, fMark := 6, fSpace := 12, preDur := 1 / 2, tailDur := 3, rxDelay := some (5 / 48) }

/-- Configured with P1's set. -/
def conf : State := State.reset.configuredWith p1

/-- The message of the vectors: id 1, payload "A". -/
def msgA : Message := { id := ⟨1⟩, bytes := [0x41#8] }

/-- `conf` with message A active at a position, with a sample count and a boundary. -/
def sending (pos n : Nat) (boundary : ℚ) : State :=
  { conf with tx := { conf.tx with txActive := some msgA, txPos := pos, txN := n, txBoundary := boundary } }

/-- `conf` with messages queued. -/
def queued (q : List Message) : State := { conf with tx := { conf.tx with txFifo := q } }

/-- `conf` with another receive bank. -/
def withBank (r : RxBank) : State := { conf with rx := r }

/-- A receive bank with "A" decoded at stamp 12 (vector D-7). -/
def holdingA : RxBank :=
  { RxBank.cleared 1 1 with symbolCount := 3, rxBytes := [0x41#8], rxStart := some ⟨12⟩ }

/-- A receive bank that has seen a raw bit. -/
def heard (b : Bit) (emitted : ℚ) : RxBank := { RxBank.cleared 1 1 with prevBit := some b, emittedBits := emitted }

/-- `s` in a build whose receive byte buffer holds `d` bytes. -/
def bounded (d : Nat) (s : State) : State := { s with build := { Build.standard with rxMaxLen := some d } }

/-- `s` in a build with a phase of `w` bits. -/
def phased (w : Nat) (s : State) : State := { s with build := { Build.standard with phaseWidth := some w } }

/-- A bank whose next bit completes the frame of 0x41, with "A" held already: the example of 45_deframer.md R186. -/
def aboutToDecode : RxBank := { holdingA with symbolCount := 9, symbolBuffer := 0x105#10 }

/-- A request for a command word with operand fields of zeros. -/
def request (w : Nat) : Request := { cmd := BitVec.ofNat 8 w }

/-! ### Ill-formed terms -/

/-- Format FC: `delay_len` is required when `rx_delay` is none (30_encoding.md R85). -/
theorem test_wf_configure : (Instr.configure { p1 with delayLen := none }).wf = false ∧ (Instr.configure p1).wf = true := by
  decide +kernel
theorem test_wf_rxTick : (Instr.rxTick .nonNumeric ⟨0⟩).wf = false ∧ (Instr.rxTick (.num 0) ⟨0⟩).wf = true := by decide
theorem test_wf_rxBlock : (Instr.rxBlock [(.num 1, ⟨0⟩), (.nonNumeric, ⟨1⟩)]).wf = false := by decide
theorem test_wf_discStep : (Instr.discStep .nonNumeric).wf = false := by decide
/-- Vector O-4: 1 and −1/8 are out of range, 0 is in it. -/
theorem test_wf_oscStep :
    (Instr.oscStep 1).wf = false ∧ (Instr.oscStep (-1 / 8)).wf = false ∧ (Instr.oscStep 0).wf = true := by decide +kernel

/-! ### Decoding: words written out from 30_encoding.md R82 and R83 (zero field, unit bit, selector) -/

theorem test_decode_reset : decodeTableWord 8 0b000_0_0001 = some .reset := by decide +kernel
theorem test_decode_configure : decodeTableWord 8 0b000_0_0010 = some (.configure {}) := by decide +kernel
theorem test_decode_txSchedule : decodeTableWord 8 0b000_0_0011 = some (.txSchedule ⟨0⟩ []) := by decide +kernel
theorem test_decode_txTick : decodeTableWord 8 0b000_0_0100 = some .txTick := by decide +kernel
theorem test_decode_txBlock : decodeTableWord 8 0b000_0_0101 = some (.txBlock 0) := by decide +kernel
theorem test_decode_rxTick : decodeTableWord 8 0b000_0_0110 = some (.rxTick (.num 0) ⟨0⟩) := by decide +kernel
theorem test_decode_rxBlock : decodeTableWord 8 0b000_0_0111 = some (.rxBlock []) := by decide +kernel
theorem test_decode_oscStep : decodeTableWord 8 0b000_1_0000 = some (.oscStep 0) := by decide +kernel
theorem test_decode_toneSel : decodeTableWord 8 0b000_1_0001 = some (.toneSel false) := by decide +kernel
theorem test_decode_schedPop : decodeTableWord 8 0b000_1_0010 = some .schedPop := by decide +kernel
theorem test_decode_framerNext : decodeTableWord 8 0b000_1_0011 = some .framerNext := by decide +kernel
theorem test_decode_discStep : decodeTableWord 8 0b000_1_0100 = some (.discStep (.num 0)) := by decide +kernel
theorem test_decode_btrStep : decodeTableWord 8 0b000_1_0101 = some (.btrStep false) := by decide +kernel
theorem test_decode_deframeBit : decodeTableWord 8 0b000_1_0110 = some (.deframeBit false ⟨0⟩) := by decide +kernel
theorem test_decode_deframeFail : decodeTableWord 8 0b000_1_0111 = some (.deframeFail ⟨0⟩) := by decide +kernel
theorem test_decode_deframeFlush : decodeTableWord 8 0b000_1_1000 = some (.deframeFlush ⟨0⟩) := by decide +kernel
theorem test_decode_framerSym : decodeTableWord 8 0b000_1_1001 = some .framerSym := by decide +kernel

/-- Vector C-8: the reserved words. -/
theorem test_decode_reserved : ∀ w ∈ [0x00, 0x08, 0x0F, 0x1A, 0x1F, 0x20, 0x81, 0xFF], decodeTableWord 8 w = none := by
  decide +kernel
/-- Seventeen words of 256 are operations. -/
theorem test_decode_count : ((List.range 256).filter fun w => (decodeTableWord 8 w).isSome).length = 17 := by decide +kernel

/-- The first instruction after reset, run from its command word alone (R213): a sample operation, and a refused one. -/
theorem test_first_step :
    (after (step (State.reset.withFetchWord 8 0x04))).resp = some (.txTick none []) ∧
    (after (step (State.reset.withFetchWord 8 0x12))).resp = some .refused ∧
    (after (step (State.reset.withFetchWord 8 0x02))).resp = some .refused := by decide +kernel

/-! ### Single steps from the vectors -/

/-- Vector C-7: RESET in mid-message. -/
theorem test_reset : after (exec .reset (sending 3 7 8)) = { State.reset with resp := some .ok } := by decide +kernel

/-- Vector C-1. -/
theorem test_configure :
    let c := (after (exec (.configure c1) State.reset)).params
    c.incMark = 1 / 8 ∧ c.incSpace = 1 / 4 ∧ c.symLen = 12 ∧ c.preLen = 24 ∧ c.tailLen = 144 ∧ c.bitStep = 1 / 12 ∧
    c.delayLen = 4 ∧ c.corrLen = 9 ∧ c.invert = true := by decide +kernel
/-- Vector C-4: `round` is half up. -/
theorem test_configure_rounding :
    let c := deriveRegs Build.standard { fs := 10, baud := 3, fMark := 1, fSpace := 2, rxDelay := some (1 / 4) }
    c.delayLen = 2 ∧ c.corrLen = 3 := by decide +kernel
/-- INVERT of the presets (47_system_ops.md R215 with vectors C-2 and C-3). -/
theorem test_preset_invert :
    let set (p : Preset) (fs : ℚ) : Params :=
      { fs := fs, baud := p.baud, fMark := p.fMark, fSpace := p.fSpace, delayLen := some 20 }
    (deriveRegs Build.standard (set Preset.bell103 44100)).invert = false ∧
    (deriveRegs Build.standard (set Preset.bell202 48000)).invert = true := by decide +kernel

/-- Vector F-5. -/
theorem test_txSchedule : (after (exec (.txSchedule ⟨2⟩ []) (queued [msgA]))).tx.txFifo = [msgA, ⟨⟨2⟩, []⟩] := by
  decide +kernel
/-- 20_memory.md R62: a full queue refuses. -/
theorem test_txSchedule_full :
    let s : State := { (queued [msgA]) with build := { Build.standard with txqDepth := some 1 } }
    (after (exec (.txSchedule ⟨2⟩ []) s)).resp = some .refused := by decide +kernel

/-- Program P1, tick 4: the start bit begins, space, the phase goes on from 1/2. -/
theorem test_txTick :
    let s := sending 0 4 4
    let t := (after (exec .txTick { s with tx := { s.tx with txPhase := 1 / 2 } })).tx
    t.txPos = 1 ∧ t.txN = 5 ∧ t.txBoundary = 8 ∧ t.txInc = 1 / 4 ∧ t.txPhase = 3 / 4 := by decide +kernel
/-- Program P1, tick 48: the tail has ended, the queue is empty. -/
theorem test_txTick_completes :
    let s := after (exec .txTick (sending 11 48 48))
    s.resp = some (.txTick none [.completed ⟨1⟩]) ∧ s.tx.txActive = none ∧ s.tx.txPos = 12 ∧ s.tx.txPhase = 0 := by
  decide +kernel

/-- Vector M-4 (two ticks of it): a message of no length completes without a sample. -/
theorem test_txBlock :
    let s : State := { (queued [⟨⟨9⟩, []⟩]) with params := { conf.params with preLen := 0, tailLen := 0 } }
    (after (exec (.txBlock 2) s)).resp = some (.txBlock [] [.completed ⟨9⟩]) := by decide +kernel

/-- Vector R-2: the first tick after CONFIGURE (INVERT is true in P1's set). -/
theorem test_rxTick :
    let s := after (exec (.rxTick (.num 1) ⟨0⟩) conf)
    s.resp = some (.events []) ∧ s.rx.prevBit = some false ∧ s.rx.emittedBits = 1 / 2 ∧ s.rx.symbolCount = 0 ∧
    s.rx.delayLine = [.pos] ∧ s.rx.corrSum = 0 := by decide +kernel
/-- Vector R-3, its last line, and vector R-1. -/
theorem test_rxBlock :
    (after (exec (.rxBlock []) conf)).resp = some (.events []) ∧
    after (exec (.rxBlock [(.num 1, ⟨0⟩)]) State.reset) = { State.reset with resp := some (.events []) } := by
  decide +kernel

/-- Vector O-1, step 7: 7/8 + 1/8 wraps to 0. -/
theorem test_oscStep :
    (after (exec (.oscStep (1 / 8)) { conf with tx := { conf.tx with txPhase := 7 / 8 } })).tx.txPhase = 0 := by
  decide +kernel
/-- The operand 1/8 is a multiple of 2^−4 and is added exactly; 1/3 is not, and the phase gains a value of 4 bits (log entry 26). -/
theorem test_oscStep_grid :
    (after (exec (.oscStep (1 / 8)) (phased 4 conf))).tx.txPhase = 1 / 8 ∧ onGrid 4 (1 / 3) = false ∧
    heldIncrement (some 4) (1 / 3) = phaseOfAcc (Config.freeIncrement 4 (1 / 3)) := by
  have h : onGrid 4 (1 / 3) = false := by decide +kernel
  exact ⟨by decide +kernel, h, by simp only [heldIncrement, h]; rfl⟩
/-- The names of samples shut no instance out (log entry 7): for every codomain some naming of the values realises it. -/
theorem test_sample_names {α : Type} (f : ℚ → α) :
    ∃ (sine : ℚ → OutSample) (val : OutSample → α), ∀ p, val (sine p) = f p :=
  ⟨fun p => ⟨Encodable.encode p⟩, fun o => f ((Encodable.decode (α := ℚ) o.name).getD 0), fun p => by simp⟩
/-- Vectors O-1 and O-2: samples of the lookup instance. -/
theorem test_lookup : [0, 1 / 8, 1 / 4, 3 / 8, 1 / 2, 5 / 8, 3 / 4, 7 / 8].map sineLut16 =
    [0, 90, 127, 90, 0, -90, -127, -90] := by decide +kernel

/-- Vector T: INC_MARK = 1/8, INC_SPACE = 1/4. -/
theorem test_toneSel :
    (after (exec (.toneSel true) conf)).resp = some (.inc (1 / 8)) ∧
    (after (exec (.toneSel false) conf)).resp = some (.inc (1 / 4)) := by decide +kernel

/-- Vector F-5. -/
theorem test_schedPop :
    let s := after (exec .schedPop (queued [msgA, ⟨⟨2⟩, []⟩]))
    s.tx.txActive = some msgA ∧ s.tx.txFifo = [⟨⟨2⟩, []⟩] ∧ s.tx.txPos = 0 ∧ s.tx.txN = 0 ∧ s.tx.txBoundary = 4 := by
  decide +kernel

/-- Vector F-4: with FS = 10 and BAUD = 4, 5/2 becomes 5, and 61/2 stays on entering DONE. -/
theorem test_framerNext :
    let c := { conf.params with symLen := 5 / 2, tailLen := 3 }
    (framerNext c msgA (sending 0 0 (5 / 2)).tx).txBoundary = 5 ∧
    (framerNext c msgA (sending 11 0 (61 / 2)).tx).txBoundary = 61 / 2 := by decide +kernel
/-- Vector F-5: nothing is active. -/
theorem test_framerNext_refused : (after (exec .framerNext conf)).resp = some .refused := by decide +kernel

/-- Vector F-1, position 8: DATA(0,6), a mark. -/
theorem test_framerSym : (after (exec .framerSym (sending 8 0 0))).resp = some (.symbol (.data 0 6) (some true) (some 4)) := by
  decide +kernel
/-- Vector F-3: the tones of the payload 00 FF A5. -/
theorem test_tones : (List.range 32).map (symTone ⟨⟨0⟩, [0x00#8, 0xFF#8, 0xA5#8]⟩) =
    ([1, 0,0,0,0,0,0,0,0,0,1, 0,1,1,1,1,1,1,1,1,1, 0,1,0,1,0,0,1,0,1,1, 1].map fun b => some (b == 1)) := by decide +kernel

/-- Vector X-1, tick 2: DELAY_LEN = 2, CORR_LEN = 3. -/
theorem test_discStep :
    let c := { conf.params with delayLen := 2, corrLen := 3, invert := false }
    let r := { RxBank.cleared 2 3 with delayLine := [.pos, .pos], cpos := 2 }
    (discStep c (-1) r).1 = false ∧ (discStep c (-1) r).2.corrSum = -1 ∧
    (discStep c (-1) r).2.delayLine = [.neg, .pos] ∧ (discStep c (-1) r).2.corrRing = [.zero, .zero, .neg] ∧
    (discStep c (-1) r).2.cpos = 0 ∧ (discStep c (-1) r).2.dpos = 1 := by decide +kernel
/-- 43_discriminator.md R156 (a). -/
theorem test_discStep_refused : (after (exec (.discStep .nonNumeric) conf)).resp = some .refused := by decide +kernel

/-- Vector B-1, tick 2: reaching 1 exactly counts (BIT_STEP is 1/4 in P1's set). -/
theorem test_btrStep : (after (exec (.btrStep true) (withBank (heard true (3 / 4))))).resp = some (.btr (.cleanBit true)) := by
  decide +kernel
/-- Vector B-1, tick 20, and vector B-4. -/
theorem test_btrStep_transition :
    (after (exec (.btrStep false) (withBank (heard true (3 / 4))))).resp = some (.btr .failure) ∧
    (after (exec (.btrStep false) (withBank (heard true 1)))).resp = some (.btr .nothing) := by decide +kernel

/-- The example of 45_deframer.md R186. -/
theorem test_deframeBit :
    let r := { RxBank.cleared 1 1 with symbolCount := 9, symbolBuffer := 0x105#10 }
    let s := after (exec (.deframeBit true ⟨12⟩) (withBank r))
    s.rx.symbolBuffer = 0x282#10 ∧ s.rx.rxBytes = [0x41#8] ∧ s.rx.rxStart = some ⟨12⟩ ∧ s.rx.symbolCount = 0 := by
  decide +kernel
/-- 20_memory.md R63: a store of one byte has no room for the second (log entry 6); a store of two has. -/
theorem test_deframeBit_overflow :
    after (exec (.deframeBit true ⟨12⟩) (bounded 1 (withBank aboutToDecode))) =
      { (bounded 1 (withBank aboutToDecode)) with resp := some .refused } ∧
    (after (exec (.deframeBit true ⟨12⟩) (bounded 2 (withBank aboutToDecode)))).rx.rxBytes = [0x41#8, 0x41#8] := by
  decide +kernel
/-- Vector D-1, bit 32: the all-ones window flushes and the count stays at 10. -/
theorem test_deframeBit_mismatch :
    let r := { holdingA with symbolCount := 9, symbolBuffer := 0x3FF#10, rxBytes := [0x41#8, 0x42#8] }
    let s := after (exec (.deframeBit true ⟨32⟩) (withBank r))
    s.resp = some (.events [.received [0x41#8, 0x42#8] ⟨12⟩ ⟨32⟩]) ∧ s.rx.symbolCount = 10 ∧ s.rx.rxBytes = [] := by
  decide +kernel

/-- Vector D-5: the buffer stays, the count goes to 0. -/
theorem test_deframeFail :
    let r := { holdingA with symbolCount := 4, symbolBuffer := 0b0100101000#10, rxStart := some ⟨9⟩ }
    let s := after (exec (.deframeFail ⟨100⟩) (withBank r))
    s.resp = some (.events [.received [0x41#8] ⟨9⟩ ⟨100⟩]) ∧ s.rx.symbolCount = 0 ∧
    s.rx.symbolBuffer = 0b0100101000#10 ∧ s.rx.rxStart = none := by decide +kernel

/-- Vector D-7: FLUSH leaves the count. -/
theorem test_deframeFlush :
    let s := after (exec (.deframeFlush ⟨40⟩) (withBank holdingA))
    s.resp = some (.events [.received [0x41#8] ⟨12⟩ ⟨40⟩]) ∧ s.rx.symbolCount = 3 ∧ s.rx.rxBytes = [] := by decide +kernel

/-! ### For every statement with hypotheses, states and operands that meet them -/

theorem p1_valid : validConfig Build.standard p1 = true := by decide +kernel

/-- A configured state that meets the invariant. -/
theorem conf_inv : conf.Inv :=
  ⟨fun h => (by cases h), fun _ => ⟨p1, p1_valid, rfl⟩, TxBank.cleared_inv (deriveRegs_ranges p1_valid).1,
    RxBank.cleared_inv _, fun _ _ => Nat.zero_le _, fun q _ => onGrid_zero (q + 1)⟩

theorem witness_DecodeEncodeAgree :
    (Instr.oscStep (1 / 8)).wf = true ∧ ((Instr.oscStep (1 / 8)).opcode.isUnit = true → true = true) := by
  exact ⟨by decide +kernel, fun _ => rfl⟩

theorem witness_ReservedWordsRefused :
    (∀ w ∈ [0x00, 0x08, 0x0F, 0x1A, 0x1F, 0x20, 0xFF],
      let r := request w
      0x20 ≤ r.cmd.toNat ∨ r.cmd.toNat = 0 ∨ (0x08 ≤ r.cmd.toNat ∧ r.cmd.toNat ≤ 0x0F) ∨
        (0x1A ≤ r.cmd.toNat ∧ r.cmd.toNat ≤ 0x1F)) ∧
    (∀ w ∈ [0x10, 0x19], { Build.standard with unitPort := false }.unitPort = false ∧
      0x10 ≤ (request w).cmd.toNat ∧ (request w).cmd.toNat ≤ 0x19) ∧
    (conf.withFetchWord 8 0x20).port = request 0x20 :: [] := by decide +kernel

theorem witness_StepRunsDecoded :
    (conf.withFetchWord 8 0x04).port = request 0x04 :: [] ∧
    decode (conf.withFetchWord 8 0x04).build.unitPort (request 0x04) = .ok .txTick ∧
    decode true { cmd := 0x10#8, operands := { inc := 2 } } = .ok (.oscStep 2) :=
  ⟨rfl, rfl, rfl⟩

theorem witness_StepIdleChangesNothing : conf.port = [] := rfl

theorem witness_StepKeepsInv : (conf.withFetchWord 8 0x04).Inv ∧ ∃ t, step (conf.withFetchWord 8 0x04) = .next t :=
  ⟨⟨conf_inv.unconfigured, conf_inv.configured, conf_inv.tx, conf_inv.rx, conf_inv.received_fit, conf_inv.emitted_on_grid⟩, _,
    rfl⟩

/-- The rows of 47_system_ops.md R212 met: P1's set with its lengths given and at their least, C-1's with both derived, at the least
receive delay and the most symbols per sample that give a ring entry, and a tone above FS/2 in a build with a PW-bit phase. -/
theorem witness_ConfigureWritesParameters :
    (State.reset.configured = false ∧ State.reset.build.phaseWidth = none ∧ State.reset.build.fracWidth = none) ∧
    (0 < p1.fs ∧ 0 < p1.baud ∧ 0 < p1.fMark ∧ 0 < p1.fSpace ∧ p1.fMark ≠ p1.fSpace ∧ 0 ≤ p1.preDur ∧ 0 ≤ p1.tailDur ∧
      p1.fMark < p1.fs ∧ p1.fSpace < p1.fs ∧ p1.delayLen = some 1 ∧ p1.corrLen = some 1 ∧ p1.rxDelay = none) ∧
    (0 < c1.fs ∧ 0 < c1.baud ∧ c1.fMark < c1.fs ∧ c1.fSpace < c1.fs ∧ c1.delayLen = none ∧ c1.rxDelay = some (5 / 48) ∧
      c1.corrLen = none ∧ (3 / 2 : ℚ) ≤ 1 / 32 * c1.fs ∧ (2 / 3 : ℚ) ≤ c1.fs / 72 ∧ (0 : ℚ) < 1 / 32) ∧
    ((⌊(40 : ℚ) / c1.fs * 2 ^ 16 + 1 / 2⌋ : ℚ) / 2 ^ 16 < 1 ∧ (⌊(12 : ℚ) / c1.fs * 2 ^ 16 + 1 / 2⌋ : ℚ) / 2 ^ 16 < 1) := by
  decide +kernel

/-- Vector C-5, and the rows of 47_system_ops.md R212 it leaves out, each at its boundary. -/
theorem witness_InvalidConfigureRefused :
    State.reset.configured = false ∧
    { c1 with fs := 0 }.fs ≤ 0 ∧ { c1 with baud := 0 }.baud ≤ 0 ∧ { c1 with fMark := 0 }.fMark ≤ 0 ∧
    { c1 with fSpace := 0 }.fSpace ≤ 0 ∧ { c1 with fSpace := 6 }.fMark = { c1 with fSpace := 6 }.fSpace ∧
    { c1 with preDur := -1 / 2 }.preDur < 0 ∧ { c1 with tailDur := -1 / 2 }.tailDur < 0 ∧
    { c1 with fMark := 48 }.fs ≤ { c1 with fMark := 48 }.fMark ∧
    { c1 with fSpace := 48 }.fs ≤ { c1 with fSpace := 48 }.fSpace ∧
    (∃ w, { Build.standard with phaseWidth := some 1 }.phaseWidth = some w ∧ (1 : ℚ) ≤ (⌊(36 : ℚ) / c1.fs * 2 ^ w + 1 / 2⌋ : ℚ) / 2 ^ w) ∧
    (c1.delayLen = none ∧ { c1 with rxDelay := none }.rxDelay = none) ∧ { c1 with delayLen := some 0 }.delayLen = some 0 ∧
    (c1.delayLen = none ∧ ∃ d, { c1 with rxDelay := some (1 / 48) }.rxDelay = some d ∧ d * c1.fs < 3 / 2) ∧
    { c1 with corrLen := some 0 }.corrLen = some 0 ∧ (c1.corrLen = none ∧ { c1 with fs := 2 }.fs / { c1 with fs := 2 }.baud < 2 / 3) ∧
    ∃ d, { p1 with rxDelay := some 0 }.rxDelay = some d ∧ d ≤ 0 := by
  refine ⟨rfl, ?_, ?_, ?_, ?_, rfl, ?_, ?_, ?_, ?_, ⟨1, rfl, ?_⟩, ⟨rfl, rfl⟩, rfl, ⟨rfl, 1 / 48, rfl, ?_⟩, rfl, ⟨rfl, ?_⟩, 0, rfl, ?_⟩
  all_goals norm_num [c1]

theorem witness_SecondConfigureRefused : conf.configured = true := rfl

theorem witness_ConfigurationIsImmutable :
    conf.configured = true ∧ Instr.txTick ≠ .reset ∧ ∃ t, exec .txTick conf = .next t := ⟨rfl, by simp, _, rfl⟩

theorem witness_UnconfiguredOperationsRefused :
    State.reset.configured = false ∧ (Instr.oscStep 0).opcode.isUnit = true ∧
    Instr.txSchedule ⟨1⟩ [] = .txSchedule ⟨1⟩ [] := ⟨rfl, rfl, rfl⟩

theorem witness_UnconfiguredTicksAreSilent : State.reset.configured = false := rfl

/-- Both ends of the range, and both sides out of it (vector O-4); an exact phase, and a multiple and no multiple of `2^−4`. -/
theorem witness_OscStepAdvancesPhase :
    conf.configured = true ∧ conf.build.phaseWidth = none ∧ IncInRange 0 ∧ IncInRange (15 / 16) ∧
    (phased 4 conf).configured = true ∧ (phased 4 conf).build.phaseWidth = some 4 ∧ (15 / 16 : ℚ) * 2 ^ 4 = (15 : Int) ∧
    IncInRange (1 / 3) ∧ State.reset.configured = false ∧ (-1 / 8 : ℚ) < 0 ∧ (1 : ℚ) ≤ 1 := by
  refine ⟨rfl, rfl, ?_, ?_, rfl, rfl, ?_, ?_, rfl, ?_, ?_⟩ <;> norm_num [IncInRange]

theorem witness_PhaseLaw : 0 ≤ conf.tx.txPhase ∧ conf.tx.txPhase < 1 ∧
    (∀ inc ∈ [3 / 8, 3 / 8, (3 / 8 : ℚ)], 0 ≤ inc ∧ inc < 1) ∧ 2 < [3 / 8, 3 / 8, (3 / 8 : ℚ)].length := by
  refine ⟨le_refl _, by norm_num [conf, State.configuredWith, TxBank.cleared], ?_, by decide⟩
  intro inc h
  simp only [List.mem_cons, List.not_mem_nil, or_false, or_self] at h
  subst h; norm_num

theorem witness_ToneSelSelectsIncrement : conf.configured = true ∧ State.reset.configured = false := ⟨rfl, rfl⟩

/-- Every real number has a rounding, so every address and sample width has a table of R116. -/
theorem sineTable_exists (aw sw : Nat) : ∃ table, IsSineTable aw sw table := by
  have round : ∀ x : ℝ, ∃ n : Int, IsRoundedHalfAway n x := by
    intro x
    rcases le_or_gt 0 x with hx | hx
    · refine ⟨⌊x + 1 / 2⌋, ?_⟩
      have h1 := Int.floor_le (x + 1 / 2)
      have h2 := Int.lt_floor_add_one (x + 1 / 2)
      rcases h1.lt_or_eq with h1 | h1
      · exact .inl (by rw [abs_lt]; constructor <;> linarith)
      · exact .inr ⟨by rw [h1, add_sub_cancel_left, abs_of_pos (by norm_num)],
          by rw [h1, abs_of_nonneg hx, abs_of_nonneg (by linarith)]; linarith⟩
    · refine ⟨⌈x - 1 / 2⌉, ?_⟩
      have h1 := Int.le_ceil (x - 1 / 2)
      have h2 := Int.ceil_lt_add_one (x - 1 / 2)
      rcases h1.lt_or_eq with h1 | h1
      · exact .inl (by rw [abs_lt]; constructor <;> linarith)
      · exact .inr ⟨by rw [← h1, sub_sub_cancel_left, abs_neg, abs_of_pos (by norm_num)],
          by rw [← h1, abs_of_neg hx, abs_of_neg (by linarith)]; linarith⟩
  choose f hf using round
  refine ⟨List.ofFn fun i : Fin (2 ^ aw) => f ((2 ^ (sw - 1) - 1) * Real.sin (2 * Real.pi * (i.val : ℝ) / 2 ^ aw)),
    by simp, fun i hi => ?_⟩
  have e : (List.ofFn fun i : Fin (2 ^ aw) =>
      f ((2 ^ (sw - 1) - 1) * Real.sin (2 * Real.pi * (i.val : ℝ) / 2 ^ aw))).getD i 0 =
      f ((2 ^ (sw - 1) - 1) * Real.sin (2 * Real.pi * (i : ℝ) / 2 ^ aw)) := by simp [List.getD, hi]
  rw [e]
  exact hf _

/-- The table for AW = 2, SW = 2 (its sines are whole numbers), phases on both sides of 1/2 and of 3/4; and SW = 3 for AW = 4. -/
theorem witness_LookupSineSign :
    IsSineTable 2 2 [0, 1, 0, -1] ∧ (0 : Int) < [0, 1, 0, -1].getD 1 0 ∧
    ((1 / 2 : ℚ) ≤ 1 / 2 ∧ 1 / 2 + 1 / 2 ^ 2 ≤ (3 / 4 : ℚ) ∧ (1 / 2 : ℚ) < 5 / 8 ∧ (5 / 8 : ℚ) < 1 / 2 + 1 / 2 ^ 2 ∧ 3 < 2 ^ 2) ∧
    3 ≤ 3 ∧ ∃ table, IsSineTable 4 3 table := by
  refine ⟨⟨rfl, fun i hi => ?_⟩, by decide, by norm_num, le_refl _, sineTable_exists 4 3⟩
  have h : ∀ (n : Int) (x : ℝ), x = n → IsRoundedHalfAway n x := fun n x e => .inl (by simp [e])
  interval_cases i
  · exact h 0 _ (by simp)
  · exact h 1 _ (by rw [show 2 * Real.pi * ((1 : Nat) : ℝ) / 2 ^ 2 = Real.pi / 2 by push_cast; ring]; norm_num)
  · exact h 0 _ (by rw [show 2 * Real.pi * ((2 : Nat) : ℝ) / 2 ^ 2 = Real.pi by push_cast; ring]; norm_num)
  · refine h (-1) _ ?_
    rw [show 2 * Real.pi * ((3 : Nat) : ℝ) / 2 ^ 2 = Real.pi / 2 + Real.pi by push_cast; ring, Real.sin_add_pi]
    norm_num

theorem witness_IdealSineProperties : (0 : ℚ) < 1 / 4 ∧ (1 / 4 : ℚ) < 1 / 2 ∧ (1 / 2 : ℚ) < 3 / 4 ∧ (3 / 4 : ℚ) < 1 := by norm_num

theorem witness_SymbolSequence : 0 < msgA.bytes.length ∧ 7 < 8 := by decide

/-- Room in a queue of two and for a payload of one; a queue of one is full, a store of none is too short. -/
theorem witness_TxScheduleAppends :
    (queued [msgA]).configured = true ∧
    (∀ d, some 2 = some d → (queued [msgA]).tx.txFifo.length < d) ∧ (∀ d, some 1 = some d → msgA.bytes.length ≤ d) ∧
    State.reset.configured = false ∧ (1 ≤ (queued [msgA]).tx.txFifo.length) ∧ 0 < msgA.bytes.length := by
  refine ⟨rfl, ?_, ?_, rfl, by decide, by decide⟩ <;> (intro d h; cases h; decide)

theorem witness_SchedPopActivatesHead :
    (queued [msgA]).configured = true ∧ (queued [msgA]).tx.txActive = none ∧ (queued [msgA]).tx.txFifo = msgA :: [] ∧
    State.reset.configured = false ∧ (sending 0 0 4).tx.txActive ≠ none ∧ conf.tx.txFifo = [] :=
  ⟨rfl, rfl, rfl, rfl, by simp [sending], rfl⟩

/-- One byte: bit symbols end at position 10, the tail is 11, DONE is 12. -/
theorem witness_FramerNextMovesOn :
    (sending 9 0 0).configured = true ∧ (sending 9 0 0).tx.txActive = some msgA ∧
    (sending 9 0 0).tx.txPos < 10 * msgA.bytes.length ∧ (sending 10 0 0).tx.txPos = 10 * msgA.bytes.length ∧
    (sending 11 0 0).tx.txPos = 1 + 10 * msgA.bytes.length ∧ (sending 12 0 0).tx.txPos = 2 + 10 * msgA.bytes.length ∧
    State.reset.configured = false ∧ conf.tx.txActive = none := ⟨rfl, rfl, by decide, rfl, rfl, rfl, rfl, rfl⟩

theorem witness_FramerSymReads :
    (sending 11 0 0).configured = true ∧ (sending 11 0 0).tx.txActive = some msgA ∧
    (sending 11 0 0).tx.txPos < 2 + 10 * msgA.bytes.length ∧ (sending 12 0 0).tx.txPos = 2 + 10 * msgA.bytes.length ∧
    State.reset.configured = false ∧ conf.tx.txActive = none := ⟨rfl, rfl, by decide, rfl, rfl, rfl⟩

/-- Idle; a message queued; the boundary met exactly; DONE; a symbol that owns the sample. -/
theorem witness_TxTickFollowsLoop :
    State.reset.configured = false ∧ conf.configured = true ∧ conf.tx.txActive = none ∧ conf.tx.txFifo = [] ∧
    (queued [msgA]).tx.txActive = none ∧ (queued [msgA]).tx.txFifo = msgA :: [] ∧
    (sending 0 4 4).tx.txActive = some msgA ∧ (sending 0 4 4).tx.txPos < 2 + 10 * msgA.bytes.length ∧
    (sending 0 4 4).tx.txBoundary ≤ ((sending 0 4 4).tx.txN : ℚ) ∧
    (sending 12 48 48).tx.txPos = 2 + 10 * msgA.bytes.length ∧
    ((sending 0 3 4).tx.txN : ℚ) < (sending 0 3 4).tx.txBoundary ∧ symTone msgA (sending 0 3 4).tx.txPos = some true := by
  refine ⟨rfl, rfl, rfl, rfl, rfl, rfl, rfl, by decide, ?_, rfl, ?_, rfl⟩ <;> norm_num [sending]

theorem witness_TxTickProducesOrIdles : conf.configured = true := rfl

theorem witness_CompletionsInOrder :
    conf.configured = true ∧ Instr.txSchedule ⟨1⟩ [] ≠ .reset ∧ ∃ t, exec (.txSchedule ⟨1⟩ []) conf = .next t :=
  ⟨rfl, by simp, _, rfl⟩

theorem witness_TxBlockIsTicks : conf.configured = true := rfl

/-- Program P1: 48 samples, and one tick more. -/
theorem witness_MessageSampleCount :
    (queued [msgA]).configured = true ∧ (queued [msgA]).tx.txActive = none ∧ (queued [msgA]).tx.txFifo = [msgA] ∧
    0 ≤ (queued [msgA]).params.preLen ∧ 0 ≤ (queued [msgA]).params.symLen ∧ 0 ≤ (queued [msgA]).params.tailLen ∧
    ⌈(queued [msgA]).params.preLen + (10 * msgA.bytes.length : Nat) * (queued [msgA]).params.symLen +
      (queued [msgA]).params.tailLen⌉₊ < 49 := by
  refine ⟨rfl, rfl, rfl, ?_, ?_, ?_, ?_⟩
  all_goals norm_num [queued, conf, State.configuredWith, deriveRegs, quantise, State.reset, Build.standard, p1, msgA]

/-- A positive sample, a negative one (its product with the unwritten 0 is 0), one that is not a number, and no configuration. -/
theorem witness_DiscStepCorrelates :
    conf.configured = true ∧ (Trit.pos = if (0 : ℚ) ≤ 0 then .pos else .neg) ∧
    (Trit.neg = if (0 : ℚ) ≤ -1 then .pos else .neg) ∧
    tritInt .zero = tritInt .pos * tritInt (conf.rx.delayLine.getD conf.rx.dpos .zero) ∧
    (0 : Int) = conf.rx.corrSum + tritInt .zero - tritInt (conf.rx.corrRing.getD conf.rx.cpos .zero) ∧
    State.reset.configured = false := by decide +kernel

theorem witness_DelayIsRingLength : conf.rx.Inv conf.params ∧ ([] : List Sample).length + 1 = conf.params.delayLen :=
  ⟨conf_inv.rx, rfl⟩

theorem witness_WarmUpRawIsConstant : 0 < conf.params.corrLen ∧ [(-1 : Sample)].length ≤ conf.params.delayLen := by decide +kernel

theorem witness_OnlySignsMatter :
    List.Forall₂ (fun p q => p.2 = q.2 ∧ ∃ x y : Sample, p.1 = .num x ∧ q.1 = .num y ∧ (0 ≤ x ↔ 0 ≤ y))
      [(InSample.num 0, Time.mk 3)] [(InSample.num 7, Time.mk 3)] :=
  .cons ⟨rfl, 0, 7, rfl, rfl, by norm_num⟩ .nil

theorem witness_CorrSumFitsRegister : conf.Inv := conf_inv

theorem witness_BtrStepBranches :
    (withBank (heard true 1)).configured = true ∧ (withBank (heard true 1)).rx.prevBit = some true ∧
    (withBank (heard true 1)).rx.prevBit ≠ some false ∧ State.reset.configured = false := ⟨rfl, rfl, by simp [withBank, heard], rfl⟩

theorem witness_TransitionSpacingFails : (heard true (1 / 2)).prevBit = some true ∧ (heard true (1 / 2)).emittedBits = 1 / 2 :=
  ⟨rfl, rfl⟩

theorem witness_CleanBitsPerPeriod :
    (heard true (1 / 2)).prevBit = some true ∧ (heard true (1 / 2)).emittedBits = 1 / 2 ∧ 0 < conf.params.bitStep ∧
    conf.params.bitStep ≤ 1 := by
  refine ⟨rfl, rfl, ?_, ?_⟩ <;>
    norm_num [conf, State.configuredWith, deriveRegs, quantise, State.reset, Build.standard, p1]

theorem witness_PrevBitStaysKnown :
    (withBank (heard true 1)).configured = true ∧ Instr.btrStep false ≠ .reset ∧ (withBank (heard true 1)).rx.prevBit ≠ none ∧
    ∃ t, exec (.btrStep false) (withBank (heard true 1)) = .next t := ⟨rfl, by simp, by simp [withBank, heard], _, rfl⟩

/-- Each clause at the count where it begins or ends: 8, 9; room for one byte more, and no capacity; a valid window, a mismatch with nothing held and with "A" held. -/
theorem witness_DeframeBitChecksWindow :
    ((if true then 0x200#10 else 0#10) ||| (0x105#10 >>> 1)) = 0x282#10 ∧ 0x282#10 &&& 0x201#10 = 0x200#10 ∧
    ((if true then 0x200#10 else 0#10) ||| (0x3FF#10 >>> 1)) = 0x3FF#10 ∧ 0x3FF#10 &&& 0x201#10 ≠ 0x200#10 ∧
    conf.configured = true ∧ { holdingA with symbolCount := 8 }.symbolCount < 9 ∧ conf.build.rxMaxLen = none ∧
    ((bounded 2 (withBank aboutToDecode)).build.rxMaxLen = some 2 ∧ (bounded 2 (withBank aboutToDecode)).rx.rxBytes.length < 2) ∧
    9 ≤ { holdingA with symbolCount := 9 }.symbolCount ∧ conf.rx.rxBytes = [] ∧ holdingA.rxBytes ≠ [] ∧
    holdingA.rxStart = some ⟨12⟩ ∧ State.reset.configured = false := by decide +kernel

theorem witness_DeframeFlushEmits :
    conf.configured = true ∧ conf.rx.rxBytes = [] ∧ holdingA.rxBytes ≠ [] ∧ holdingA.rxStart = some ⟨12⟩ ∧
    State.reset.configured = false := by decide +kernel

theorem witness_DeframeFailResetsCount :
    conf.configured = true ∧ conf.rx.rxBytes = [] ∧ holdingA.rxBytes ≠ [] ∧ holdingA.rxStart = some ⟨12⟩ ∧
    State.reset.configured = false := by decide +kernel

theorem witness_TenShiftsFillWindow : (List.replicate 10 true).length = 10 ∧ 9 < 10 := by decide

theorem witness_FramerDeframerRoundTrip :
    10 ≤ 12 ∧ conf.rx.symbolCount = 0 ∧ conf.rx.rxBytes = [] ∧ msgA.bytes ≠ [] ∧
    (List.replicate 25 (Time.mk 0)).length = 3 + 10 * msgA.bytes.length + 12 := by decide +kernel

/-- A flush delivers "A"; a frame completed with "A" held decodes a second byte, and is refused where the store holds one. -/
theorem witness_NoReceivedByteLost :
    ((withBank holdingA).configured = true ∧ Instr.deframeFlush ⟨40⟩ ≠ .reset ∧
      (∃ t, exec (.deframeFlush ⟨40⟩) (withBank holdingA) = .next t ∧ t.resp ≠ some .refused)) ∧
    (decodedBytes (withBank aboutToDecode) (.deframeBit true ⟨12⟩) = [0x41#8] ∧
      ∃ t, exec (.deframeBit true ⟨12⟩) (withBank aboutToDecode) = .next t ∧ t.resp ≠ some .refused) ∧
    exec (.deframeBit true ⟨12⟩) (bounded 1 (withBank aboutToDecode)) =
      .next { (bounded 1 (withBank aboutToDecode)) with resp := some .refused } := by
  have h1 : decodedByte true (withBank aboutToDecode).rx = some 0x41#8 := by decide +kernel
  exact ⟨⟨rfl, by simp, _, rfl, by decide +kernel⟩, ⟨by simp [decodedBytes, h1], _, rfl, by decide +kernel⟩, by rfl⟩

/-- A configured block, an unbounded one and one with room; and one that is not configured. -/
theorem witness_RxTickComposesUnits :
    conf.configured = true ∧ conf.build.rxMaxLen = none ∧ (bounded 1 conf).rx.rxBytes.length < 1 ∧
    State.reset.configured = false := by decide +kernel

/-- A bank in which the next sample, 1 over a delay line that holds −1, gives a clean bit 1 while nine bits are counted. -/
def tickDecodes (held : List Byte) : RxBank :=
  { RxBank.cleared 1 1 with
    prevBit := some true, emittedBits := 3 / 4, symbolCount := 9, symbolBuffer := 0x105#10, delayLine := [.neg], rxBytes := held
    rxStart := if held = [] then none else some ⟨12⟩ }

/-- A full store of one byte and the bank after the two units before DEFRAME_BIT, for the next sample 1 of P1's set. -/
def tickUnits (held : List Byte) : State :=
  after (exec (.btrStep true) (after (exec (.discStep (.num 1)) (bounded 1 (withBank (tickDecodes held))))))

/-- DEFRAME_BIT with a full store; and two ticks unit by unit, one that the full store refuses and one that it does not. -/
theorem witness_ReceiveOverflowRefused :
    ((bounded 1 (withBank aboutToDecode)).configured = true ∧
      0x282#10 = (if true then 0x200#10 else 0#10) ||| ((bounded 1 (withBank aboutToDecode)).rx.symbolBuffer >>> 1) ∧
      9 ≤ (bounded 1 (withBank aboutToDecode)).rx.symbolCount ∧ 0x282#10 &&& 0x201#10 = 0x200#10 ∧
      (bounded 1 (withBank aboutToDecode)).build.rxMaxLen = some 1 ∧ 1 ≤ (bounded 1 (withBank aboutToDecode)).rx.rxBytes.length) ∧
    ((after (exec (.discStep (.num 1)) (bounded 1 (withBank (tickDecodes [0x41#8]))))).resp = some (.raw true) ∧
      (tickUnits [0x41#8]).resp = some (.btr (.cleanBit true)) ∧
      (after (exec (.deframeBit true ⟨40⟩) (tickUnits [0x41#8]))).resp = some .refused ∧
      (after (exec (.rxTick (.num 1) ⟨40⟩) (bounded 1 (withBank (tickDecodes [0x41#8]))))).resp = some .refused) ∧
    ((tickUnits []).resp = some (.btr (.cleanBit true)) ∧
      (after (exec (.deframeBit true ⟨40⟩) (tickUnits []))).resp = some (.events []) ∧
      (after (exec (.rxTick (.num 1) ⟨40⟩) (bounded 1 (withBank (tickDecodes []))))).rx.rxBytes = [0x41#8]) := by
  decide +kernel

theorem witness_RxTickAtMostOneEvent : ∃ t, exec (.rxTick (.num 1) ⟨0⟩) conf = .next t := ⟨_, rfl⟩

theorem witness_RxBlockIsTicks :
    conf.configured = true ∧ (∀ p ∈ [(InSample.num 1, Time.mk 1)], p.1 ≠ InSample.nonNumeric) ∧
    (bounded 2 conf).rx.rxBytes.length + [(InSample.num 1, Time.mk 1)].length < 2 := by decide +kernel

theorem witness_RxBlockSplits :
    (∀ p ∈ [(InSample.num 1, Time.mk 0)] ++ [(InSample.num (-1), Time.mk 1)], p.1 ≠ InSample.nonNumeric) ∧
    (bounded 2 conf).rx.rxBytes.length + [(InSample.num 1, Time.mk 0)].length + [(InSample.num (-1), Time.mk 1)].length ≤ 2 := by
  decide +kernel

theorem witness_NonNumericBlockRefused : conf.configured = true := rfl

theorem witness_PathsWriteOwnBank :
    Instr.txTick.isTransmit = true ∧ (Instr.rxTick (.num 1) ⟨0⟩).isReceive = true ∧ (∃ t, exec .txTick conf = .next t) ∧
    ∃ t, exec (.rxTick (.num 1) ⟨0⟩) conf = .next t := ⟨rfl, rfl, ⟨_, rfl⟩, _, rfl⟩

theorem witness_TransmitReceiveCommute :
    Instr.txTick.isTransmit = true ∧ (Instr.rxTick (.num 1) ⟨0⟩).isReceive = true := ⟨rfl, rfl⟩

/-- `conf` in a build with 4 phase bits, 2 fraction bits and payloads of one byte, message A at its last position. -/
theorem witness_RegistersFitWidths :
    let s : State := { (sending 12 48 48) with build := { Build.standard with phaseWidth := some 4, fracWidth := some 2, txMaxLen := some 1 } }
    s.Inv ∧ s.build.phaseWidth = some 4 ∧ s.build.txMaxLen = some 1 ∧ s.build.fracWidth = some (1 + 1) := by
  refine ⟨⟨fun h => (by cases h), fun _ => ⟨p1, by decide +kernel, by decide +kernel⟩, ?_, conf_inv.rx, fun _ h => (by cases h),
    fun q _ => onGrid_zero (q + 1)⟩, rfl, rfl, rfl⟩
  constructor
  case phase_on_grid => rintro _ ⟨⟩; decide +kernel
  case inc_on_grid => rintro _ ⟨⟩; decide +kernel
  case boundary_on_grid => rintro _ ⟨⟩; decide +kernel
  case pos_fits => rintro _ ⟨⟩; decide +kernel
  case boundary_fits => rintro _ ⟨⟩; decide +kernel
  case count_fits => rintro _ ⟨⟩; decide +kernel
  case pos_le_done => rintro _ ⟨⟩; decide +kernel
  case boundary_exact => rintro _ ⟨⟩; decide +kernel
  case queue_fits => rintro _ ⟨⟩
  case payloads_fit => rintro _ ⟨⟩ _ h; cases h
  case active_fits => rintro _ ⟨⟩ _ ⟨⟩; decide +kernel
  all_goals decide +kernel

/-- BIT_STEP = 1/4 in four fraction bits, with the accumulator at 7/4. -/
theorem witness_FixedTimingMatches :
    conf.params.bitStep = ((4#4).toNat : ℚ) / 2 ^ 4 ∧ 0 ≤ (heard true (7 / 4)).emittedBits ∧
    ({ prev := some true, frac := 12#4, ge1 := true } : BtrFixed 4).StandsFor (heard true (7 / 4)) := by
  refine ⟨?_, ?_, rfl, ?_, ?_⟩
  · norm_num [conf, State.configuredWith, deriveRegs, quantise, State.reset, Build.standard, p1]
  · norm_num [heard]
  · rw [show Int.fract (heard true (7 / 4)).emittedBits = 3 / 4 from ?_]
    · norm_num
    · rw [Int.fract_eq_iff]; refine ⟨by norm_num, by norm_num, 1, by norm_num [heard]⟩
  · norm_num [heard]

end Sys2Proof.Tests
end

section
/-! PROOF. What an operation does to the state, said once for each of the two paths (10_state.md R56): the bank it leaves, and that
it neither reads nor writes the other path's bank. The statements of 10_state.md about every operation follow from it. -/

namespace Sys2Proof.Machine

/-- Every operation belongs to the transmit path or to the receive path, or is RESET or CONFIGURE (10_state.md R56). -/
theorem path_cases (i : Instr) :
    i = .reset ∨ (∃ p, i = .configure p) ∨ i.isTransmit = true ∨ i.isReceive = true := by
  cases i with
  | reset => exact .inl rfl
  | configure p => exact .inr (.inl ⟨p, rfl⟩)
  | txSchedule | txTick | txBlock | oscStep | toneSel | schedPop | framerNext | framerSym => exact .inr (.inr (.inl rfl))
  | rxTick | rxBlock | discStep | btrStep | deframeBit | deframeFail | deframeFlush => exact .inr (.inr (.inr rfl))

/-- A configured block refuses CONFIGURE (47_system_ops.md R214). -/
theorem execConfigure_configured {s : State} (hc : s.configured = true) (p : Params) : execConfigure p s = refuse s := by
  simp only [execConfigure, hc, if_true]

/-! ### The transmit path -/

/-- What a transmit operation can make of the transmit bank `t`: leave it, append to the queue, activate its head, move to the next
symbol, step the oscillator, or run ticks (41_framer_scheduler.md R124, R126, R127; 40_oscillator.md R111; 42_modulator.md R142,
R145). -/
inductive TxWork (b : Build) (c : ParamRegs) (t : TxBank) : TxBank → Prop where
  | keep : TxWork b c t t
  | schedule (m : Message) (room : queueFull b t = false) (fits : payloadTooLong b m.bytes = false) :
      TxWork b c t { t with txFifo := t.txFifo ++ [m] }
  | pop {m : Message} {q : List Message} (head : t.txFifo = m :: q) : TxWork b c t (activate c m q t)
  | next {m : Message} (active : t.txActive = some m) (before : t.txPos < donePos m) : TxWork b c t (framerNext c m t)
  | osc {inc : Num} (range : IncInRange inc) : TxWork b c t (oscStep (heldIncrement b.phaseWidth inc) t).2
  | tick : TxWork b c t (txTick c t).bank
  | block (n : Nat) : TxWork b c t (txBlock c n t).bank

/-- From `s` operation `i` leaves the transmit bank `t` and returns `a`, whatever the receive bank and the last response are, and
nothing else moves (10_state.md R56). -/
def TransmitsTo (i : Instr) (s : State) (t : TxBank) (a : Response) : Prop :=
  ∀ r q, exec i { s with rx := r, resp := q } = .next { s with tx := t, rx := r, resp := some a }

/-- While the block is not configured a transmit operation leaves the bank (42_modulator.md R148, 47_system_ops.md R213). -/
theorem transmitsTo_unconfigured {i : Instr} (hi : i.isTransmit = true) {s : State} (hc : s.configured = false) :
    ∃ a, TransmitsTo i s s.tx a := by
  cases i with
  | txTick => exact ⟨.txTick none [], fun r q => by simp only [exec, execTxTick, hc]; rfl⟩
  | txBlock => exact ⟨.txBlock [] [], fun r q => by simp only [exec, execTxBlock, hc]; rfl⟩
  | txSchedule | oscStep | toneSel | schedPop | framerNext | framerSym =>
    exact ⟨.refused, fun r q => whenConfigured_false (s := { s with rx := r, resp := q }) hc _⟩
  | reset | configure | rxTick | rxBlock | discStep | btrStep | deframeBit | deframeFail | deframeFlush => cases hi

/-- A transmit operation on a configured block, said once: its work on the transmit bank, from the transmit bank alone. -/
theorem transmitsTo_configured {i : Instr} (hi : i.isTransmit = true) {s : State} (hc : s.configured = true) :
    ∃ t a, TxWork s.build s.params s.tx t ∧ TransmitsTo i s t a := by
  cases i with
  | txSchedule id bytes =>
    by_cases h : (queueFull s.build s.tx || payloadTooLong s.build bytes) = true
    · exact ⟨_, .refused, .keep, fun r q => by simp [exec, execTxSchedule, whenConfigured, hc, h, refuse]⟩
    · obtain ⟨hq, hp⟩ := Bool.or_eq_false_iff.mp (Bool.eq_false_iff.mpr h)
      exact ⟨_, .ok, .schedule ⟨id, bytes⟩ hq hp, fun r q => by
        simp [exec, execTxSchedule, whenConfigured, hc, hq, hp, answer, State.withTx]⟩
  | txTick => exact ⟨_, _, .tick, fun r q => by simp only [exec, execTxTick, hc]; rfl⟩
  | txBlock n => exact ⟨_, _, .block n, fun r q => by simp only [exec, execTxBlock, hc]; rfl⟩
  | oscStep inc =>
    by_cases h : IncInRange inc
    · exact ⟨_, .sample (Config.sine s.tx.txPhase), .osc h, fun r q =>
        (whenConfigured_true (s := { s with rx := r, resp := q }) hc _).trans (if_pos h)⟩
    · exact ⟨_, .refused, .keep, fun r q =>
        (whenConfigured_true (s := { s with rx := r, resp := q }) hc _).trans (if_neg h)⟩
  | toneSel tone =>
    exact ⟨_, .inc (toneSel s.params tone), .keep, fun r q => whenConfigured_true (s := { s with rx := r, resp := q }) hc _⟩
  | schedPop =>
    cases ha : s.tx.txActive with
    | some m => exact ⟨_, .refused, .keep, fun r q => by simp [exec, execSchedPop, whenConfigured, hc, ha, refuse]⟩
    | none =>
      cases hf : s.tx.txFifo with
      | nil => exact ⟨_, .refused, .keep, fun r q => by simp [exec, execSchedPop, whenConfigured, hc, ha, hf, refuse]⟩
      | cons m rest => exact ⟨_, .ok, .pop hf, fun r q => by
          simp [exec, execSchedPop, whenConfigured, hc, ha, hf, answer, State.withTx]⟩
  | framerNext =>
    cases ha : s.tx.txActive with
    | none => exact ⟨_, .refused, .keep, fun r q => by simp [exec, execFramerNext, whenConfigured, hc, ha, refuse]⟩
    | some m =>
      by_cases hp : donePos m ≤ s.tx.txPos
      · exact ⟨_, .refused, .keep, fun r q => by simp [exec, execFramerNext, whenConfigured, hc, ha, hp, refuse]⟩
      · exact ⟨_, .ok, .next ha (not_le.mp hp), fun r q => by
          simp [exec, execFramerNext, whenConfigured, hc, ha, hp, answer, State.withTx]⟩
  | framerSym =>
    cases ha : s.tx.txActive with
    | none => exact ⟨_, .refused, .keep, fun r q => by simp [exec, execFramerSym, whenConfigured, hc, ha, refuse]⟩
    | some m => exact ⟨_, _, .keep, fun r q => by simp only [exec, execFramerSym, whenConfigured, hc, ha]; rfl⟩
  | reset | configure | rxTick | rxBlock | discStep | btrStep | deframeBit | deframeFail | deframeFlush => cases hi

/-- A transmit operation said once, for every state. -/
theorem transmit_spec {i : Instr} (hi : i.isTransmit = true) (s : State) :
    ∃ t a, TransmitsTo i s t a ∧
      (s.configured = true ∧ TxWork s.build s.params s.tx t ∨ s.configured = false ∧ t = s.tx) := by
  cases hc : s.configured with
  | true =>
    obtain ⟨t, a, hw, ht⟩ := transmitsTo_configured hi hc
    exact ⟨t, a, ht, .inl ⟨rfl, hw⟩⟩
  | false =>
    obtain ⟨a, ht⟩ := transmitsTo_unconfigured hi hc
    exact ⟨s.tx, a, ht, .inr ⟨rfl, rfl⟩⟩

/-! ### The receive path -/

/-- What a receive operation can make of the receive bank `r`: leave it, a unit's own work, or ticks; in a build with RX_MAXLEN no
byte that does not fit (43_discriminator.md R156, 44_bit_timing.md R171, 45_deframer.md R186 to R188, 46_demodulator.md R200, R201;
20_memory.md R63 with log entry 6). -/
inductive RxWork (b : Build) (c : ParamRegs) (r : RxBank) : RxBank → Prop where
  | keep : RxWork b c r r
  | disc (x : Sample) : RxWork b c r (discStep c x r).2
  | btr (raw : Bit) : RxWork b c r (btrStep c raw r).2
  | bit (v : Bit) (now : Time) (fits : overflows b (decodedByte v r) r = false) : RxWork b c r (deframeBit v now r).2
  | fail (now : Time) : RxWork b c r (deframeFail now r).2
  | flush (now : Time) : RxWork b c r (deframeFlush now r).2
  | tick (x : Sample) (now : Time) (fits : overflows b (tickByte c x r) r = false) : RxWork b c r (rxTick c x now r).2
  | block (pairs : List (Sample × Time)) (fits : blockOverflows b c pairs r = false) : RxWork b c r (rxBlock c pairs r).2

/-- From `s` operation `i` leaves the receive bank `r` and returns `a`, whatever the transmit bank and the last response are, and
nothing else moves (10_state.md R56). -/
def ReceivesTo (i : Instr) (s : State) (r : RxBank) (a : Response) : Prop :=
  ∀ t q, exec i { s with tx := t, resp := q } = .next { s with tx := t, rx := r, resp := some a }

/-- While the block is not configured a receive operation leaves the bank (46_demodulator.md R204, 47_system_ops.md R213). -/
theorem receivesTo_unconfigured {i : Instr} (hi : i.isReceive = true) {s : State} (hc : s.configured = false) :
    ∃ a, ReceivesTo i s s.rx a := by
  cases i with
  | rxTick => exact ⟨.events [], fun t q => by simp only [exec, execRxTick, hc]; rfl⟩
  | rxBlock => exact ⟨.events [], fun t q => by simp only [exec, execRxBlock, hc]; rfl⟩
  | discStep | btrStep | deframeBit | deframeFail | deframeFlush =>
    exact ⟨.refused, fun t q => whenConfigured_false (s := { s with tx := t, resp := q }) hc _⟩
  | reset | configure | txSchedule | txTick | txBlock | oscStep | toneSel | schedPop | framerNext | framerSym => cases hi

/-- A receive operation on a configured block, said once: its work on the receive bank, from the receive bank alone. -/
theorem receivesTo_configured {i : Instr} (hi : i.isReceive = true) {s : State} (hc : s.configured = true) :
    ∃ r a, RxWork s.build s.params s.rx r ∧ ReceivesTo i s r a := by
  cases i with
  | rxTick sample now =>
    cases sample with
    | nonNumeric => exact ⟨_, .refused, .keep, fun t q => by simp [exec, execRxTick, hc, refuse]⟩
    | num x =>
      cases ho : overflows s.build (tickByte s.params x s.rx) s.rx with
      | true => exact ⟨_, .refused, .keep, fun t q => by simp [exec, execRxTick, hc, ho, refuse]⟩
      | false => exact ⟨_, _, .tick x now ho, fun t q => by simp only [exec, execRxTick, hc, ho]; rfl⟩
  | rxBlock pairs =>
    cases hn : numericPairs pairs with
    | none => exact ⟨_, .refused, .keep, fun t q => by simp [exec, execRxBlock, hc, hn, refuse]⟩
    | some ps =>
      cases ho : blockOverflows s.build s.params ps s.rx with
      | true => exact ⟨_, .refused, .keep, fun t q => by simp [exec, execRxBlock, hc, hn, ho, refuse]⟩
      | false => exact ⟨_, _, .block ps ho, fun t q => by simp only [exec, execRxBlock, hc, hn, ho]; rfl⟩
  | discStep sample =>
    cases sample with
    | nonNumeric => exact ⟨_, .refused, .keep, fun t q => whenConfigured_true (s := { s with tx := t, resp := q }) hc _⟩
    | num x =>
      exact ⟨_, .raw (discStep s.params x s.rx).1, .disc x, fun t q => whenConfigured_true (s := { s with tx := t, resp := q }) hc _⟩
  | btrStep raw =>
    exact ⟨_, .btr (btrStep s.params raw s.rx).1, .btr raw, fun t q => whenConfigured_true (s := { s with tx := t, resp := q }) hc _⟩
  | deframeBit b now =>
    cases ho : overflows s.build (decodedByte b s.rx) s.rx with
    | true => exact ⟨_, .refused, .keep, fun t q => by simp [exec, execDeframeBit, whenConfigured, hc, ho, refuse]⟩
    | false => exact ⟨_, _, .bit b now ho, fun t q => by simp only [exec, execDeframeBit, whenConfigured, hc, ho]; rfl⟩
  | deframeFail now =>
    exact ⟨_, .events (deframeFail now s.rx).1, .fail now, fun t q => whenConfigured_true (s := { s with tx := t, resp := q }) hc _⟩
  | deframeFlush now =>
    exact ⟨_, .events (deframeFlush now s.rx).1, .flush now, fun t q => whenConfigured_true (s := { s with tx := t, resp := q }) hc _⟩
  | reset | configure | txSchedule | txTick | txBlock | oscStep | toneSel | schedPop | framerNext | framerSym => cases hi

/-- A receive operation said once, for every state. -/
theorem receive_spec {i : Instr} (hi : i.isReceive = true) (s : State) :
    ∃ r a, ReceivesTo i s r a ∧
      (s.configured = true ∧ RxWork s.build s.params s.rx r ∨ s.configured = false ∧ r = s.rx) := by
  cases hc : s.configured with
  | true =>
    obtain ⟨r, a, hw, hr⟩ := receivesTo_configured hi hc
    exact ⟨r, a, hr, .inl ⟨rfl, hw⟩⟩
  | false =>
    obtain ⟨a, hr⟩ := receivesTo_unconfigured hi hc
    exact ⟨s.rx, a, hr, .inr ⟨rfl, rfl⟩⟩

/-- The next state of a transmit operation, from what it transmits. -/
theorem TransmitsTo.eq_next {i : Instr} {s u : State} {t : TxBank} {a : Response} (h : TransmitsTo i s t a)
    (hu : exec i s = .next u) : u = { s with tx := t, resp := some a } :=
  (Host.Outcome.next.inj ((h s.rx s.resp).symm.trans hu)).symm

/-- The next state of a receive operation, from what it receives. -/
theorem ReceivesTo.eq_next {i : Instr} {s u : State} {r : RxBank} {a : Response} (h : ReceivesTo i s r a)
    (hu : exec i s = .next u) : u = { s with rx := r, resp := some a } :=
  (Host.Outcome.next.inj ((h s.tx s.resp).symm.trans hu)).symm

/-! ### The two paths -/

/-- Settles O53: the frame of each path. -/
theorem pathsWriteOwnBank : Obligations.PathsWriteOwnBank := by
  intro i s t ht
  constructor <;> intro hi
  · obtain ⟨u, a, h, -⟩ := transmit_spec hi s
    rw [h.eq_next ht]
  · obtain ⟨r, a, h, -⟩ := receive_spec hi s
    rw [h.eq_next ht]

/-- Settles O54: neither operation reads the bank the other writes. -/
theorem transmitReceiveCommute : Obligations.TransmitReceiveCommute := by
  intro s i j hi hj
  obtain ⟨t, a, ht, -⟩ := transmit_spec hi s
  obtain ⟨r, e, hr, -⟩ := receive_spec hj s
  exact ⟨_, _, _, _, ht s.rx s.resp, hr t (some a), hr s.tx s.resp, ht r (some e), rfl, rfl, rfl⟩

/-- Settles O14: each path writes its own bank alone, and CONFIGURE is refused. -/
theorem configurationIsImmutable : Obligations.ConfigurationIsImmutable := by
  intro i s t hc hi ht
  rcases path_cases i with rfl | ⟨p, rfl⟩ | htx | hrx
  · exact absurd rfl hi
  · obtain rfl := Host.Outcome.next.inj ((execConfigure_configured hc p).symm.trans ht)
    exact ⟨hc, rfl⟩
  · obtain ⟨u, a, h, -⟩ := transmit_spec htx s
    rw [h.eq_next ht]
    exact ⟨hc, rfl⟩
  · obtain ⟨r, a, h, -⟩ := receive_spec hrx s
    rw [h.eq_next ht]
    exact ⟨hc, rfl⟩

end Sys2Proof.Machine
end

section
/-! PROOF. The invariant of the machine and `prev_bit`, from what each path can do to its bank. -/

namespace Sys2Proof.Machine

/-! ### `prev_bit` along the receive path (10_state.md R48) -/

@[simp] theorem flushMessage_prevBit (now : Time) (r : RxBank) : (flushMessage now r).2.prevBit = r.prevBit := by
  rcases flushMessage_cases now r with ⟨-, e⟩ | ⟨-, e⟩ <;> rw [e]

@[simp] theorem deframeFail_prevBit (now : Time) (r : RxBank) : (deframeFail now r).2.prevBit = r.prevBit :=
  flushMessage_prevBit now r

@[simp] theorem deframeBit_prevBit (b : Bit) (now : Time) (r : RxBank) : (deframeBit b now r).2.prevBit = r.prevBit := by
  rcases deframeBit_cases b now r with ⟨-, e⟩ | ⟨-, -, e⟩ | ⟨-, -, e⟩ <;> rw [e]
  · rfl
  · rfl
  · exact flushMessage_prevBit now _

/-- After BTR_STEP the previous bit is the raw bit of this step (44_bit_timing.md R171). -/
@[simp] theorem btrStep_prevBit (c : ParamRegs) (raw : Bit) (r : RxBank) : (btrStep c raw r).2.prevBit = some raw := by
  rcases btrStep_cases c raw r with ⟨hp, -, e⟩ | ⟨hp, -, e⟩ | ⟨-, -, e⟩ | ⟨-, -, e⟩ <;> rw [e]
  · exact hp
  · exact hp

/-- A tick's raw bit is the previous bit of the next one (46_demodulator.md R200). -/
theorem rxTick_prevBit (c : ParamRegs) (x : Sample) (now : Time) (r : RxBank) :
    (rxTick c x now r).2.prevBit = some (discStep c x r).1 := by
  rcases rxTick_cases c x now r with ⟨b, -, e⟩ | ⟨-, e⟩ | ⟨-, e⟩ <;> rw [e]
  · rw [deframeBit_prevBit, btrStep_prevBit]
  · rw [deframeFail_prevBit, btrStep_prevBit]
  · exact btrStep_prevBit ..

theorem rxBlock_prevBit_ne_none {c : ParamRegs} (pairs : List (Sample × Time)) {r : RxBank} (h : r.prevBit ≠ none) :
    (rxBlock c pairs r).2.prevBit ≠ none := by
  induction pairs generalizing r with
  | nil => exact h
  | cons a rest ih => exact ih (by rw [rxTick_prevBit]; exact Option.some_ne_none _)

theorem RxWork.prevBit_ne_none {b : Build} {c : ParamRegs} {r r' : RxBank} (hw : RxWork b c r r') (h : r.prevBit ≠ none) :
    r'.prevBit ≠ none := by
  cases hw with
  | keep => exact h
  | disc x => exact h
  | btr raw => simp
  | bit v now _ => simpa using h
  | fail now => simpa using h
  | flush now => simpa [deframeFlush] using h
  | tick x now _ => simp [rxTick_prevBit]
  | block pairs _ => exact rxBlock_prevBit_ne_none pairs h

/-- Settles O41: the receive path keeps a known `prev_bit` unit by unit, and no other operation but RESET writes it. -/
theorem prevBitStaysKnown : Obligations.PrevBitStaysKnown := by
  intro i s t hc hi hp ht
  rcases path_cases i with rfl | ⟨p, rfl⟩ | htx | hrx
  · exact absurd rfl hi
  · obtain rfl := Host.Outcome.next.inj ((execConfigure_configured hc p).symm.trans ht)
    exact hp
  · obtain ⟨u, a, h, -⟩ := transmit_spec htx s
    rw [h.eq_next ht]
    exact hp
  · obtain ⟨r, a, h, ⟨-, hw⟩ | ⟨-, rfl⟩⟩ := receive_spec hrx s
    · rw [h.eq_next ht]
      exact hw.prevBit_ne_none hp
    · rw [h.eq_next ht]
      exact hp

/-! ### Each path's work keeps its part of the invariant -/

/-- There is room in a queue that is not full (20_memory.md R62). -/
theorem queueFull_eq_false_iff (b : Build) (t : TxBank) :
    queueFull b t = false ↔ ∀ d, b.txqDepth = some d → t.txFifo.length < d := by
  unfold queueFull
  cases b.txqDepth <;> simp

/-- A payload fits when it is not longer than the build's store (93_implementation_defined.md U7). -/
theorem payloadTooLong_eq_false_iff (b : Build) (bytes : List Byte) :
    payloadTooLong b bytes = false ↔ ∀ d, b.txMaxLen = some d → bytes.length ≤ d := by
  unfold payloadTooLong
  cases b.txMaxLen <;> simp

/-- TX_SCHEDULE keeps the invariant where there is room (41_framer_scheduler.md R126). -/
theorem schedule_inv {b : Build} {c : ParamRegs} {t : TxBank} {m : Message} (h : t.Inv b c) (room : queueFull b t = false)
    (fits : payloadTooLong b m.bytes = false) : TxBank.Inv b c { t with txFifo := t.txFifo ++ [m] } :=
  { h with
    queue_fits := fun d hd => by
      have := (queueFull_eq_false_iff b t).mp room d hd
      simp only [List.length_append, List.length_singleton]
      omega
    payloads_fit := fun d hd m' hm' => by
      rcases List.mem_append.mp hm' with hm' | hm'
      · exact h.payloads_fit d hd m' hm'
      · rw [List.mem_singleton.mp hm']
        exact (payloadTooLong_eq_false_iff b m.bytes).mp fits d hd }

theorem TxWork.inv {b : Build} {c : ParamRegs} {t t' : TxBank} (hw : TxWork b c t t') (hc : c.Ranges b) (h : t.Inv b c) :
    t'.Inv b c := by
  cases hw with
  | keep => exact h
  | schedule m room fits => exact schedule_inv h room fits
  | pop head => exact activate_inv hc h head
  | next active before => exact framerNext_inv hc h active before
  | osc range =>
    obtain ⟨h0, h1, hg⟩ := heldIncrement_range b.phaseWidth range.1 range.2
    exact oscStep_inv h h0 h1 hg
  | tick => exact txTick_inv hc h
  | block n => exact txBlock_inv hc h n

theorem RxWork.inv {b : Build} {c : ParamRegs} {r r' : RxBank} (hw : RxWork b c r r') (hd : 0 < c.delayLen)
    (hk : 0 < c.corrLen) (hs : 0 ≤ c.bitStep) (h : r.Inv c) : r'.Inv c := by
  cases hw with
  | keep => exact h
  | disc x => exact discStep_inv x h hd hk
  | btr raw => exact btrStep_inv raw h hs
  | bit v now _ => exact deframeBit_inv v now h
  | fail now => exact deframeFail_inv now h
  | flush now => exact flushMessage_inv now h
  | tick x now _ => exact rxTick_inv x now h hd hk hs
  | block pairs _ => exact rxBlock_inv pairs h hd hk hs

/-- The held bytes stay within a build's capacity (20_memory.md R63, log entry 6). -/
theorem RxWork.fits {b : Build} {c : ParamRegs} {r r' : RxBank} {d : Nat} (hw : RxWork b c r r') (hd : b.rxMaxLen = some d)
    (h : r.rxBytes.length ≤ d) : r'.rxBytes.length ≤ d := by
  cases hw with
  | keep => exact h
  | disc x => exact h
  | btr raw => rwa [btrStep_rxBytes]
  | bit v now fits => exact deframeBit_fits hd h fits
  | fail now => simp [deframeFail, takeError_timing]
  | flush now => simp [deframeFlush]
  | tick x now fits => exact rxTick_fits hd h fits
  | block pairs fits => exact rxBlock_fits hd pairs h fits

/-- `emitted_bits` stays a value of the build's fraction bits (70_reset_and_hazards.md R262). -/
theorem RxWork.onGrid {b : Build} {c : ParamRegs} {r r' : RxBank} {q : Nat} (hw : RxWork b c r r')
    (hs : onGrid (q + 1) c.bitStep = true) (h : onGrid (q + 1) r.emittedBits = true) :
    onGrid (q + 1) r'.emittedBits = true := by
  cases hw with
  | keep => exact h
  | disc x => exact h
  | btr raw => exact btrStep_onGrid hs raw h
  | bit v now _ => rwa [deframeBit_emittedBits]
  | fail now => simpa [deframeFail, takeError_timing] using h
  | flush now => simpa [deframeFlush] using h
  | tick x now _ => exact rxTick_onGrid hs x now h
  | block pairs _ => exact rxBlock_onGrid hs pairs h

/-! ### The invariant of the machine -/

/-- The parameter registers are in range, before CONFIGURE and after. -/
theorem State.Inv.ranges {s : State} (h : s.Inv) : s.params.Ranges s.build := by
  cases hc : s.configured with
  | false => rw [(h.unconfigured hc).1]; exact ParamRegs.cleared_ranges _
  | true =>
    obtain ⟨p, hv, e⟩ := h.configured hc
    rw [e]
    exact (deriveRegs_ranges hv).1

/-- The rings of a configured block have entries (47_system_ops.md R212). -/
theorem State.Inv.ring_lengths_pos {s : State} (h : s.Inv) (hc : s.configured = true) :
    0 < s.params.delayLen ∧ 0 < s.params.corrLen := by
  obtain ⟨p, hv, e⟩ := h.configured hc
  rw [e]
  exact (deriveRegs_ranges hv).2

/-- The invariant does not speak of the model's own port and response (10_state.md R57). -/
theorem State.Inv.with_port_resp {s : State} (h : s.Inv) (port : List Request) (resp : Option Response) :
    State.Inv { s with port := port, resp := resp } :=
  { h with }

theorem State.Inv.withTx {s : State} (h : s.Inv) (hc : s.configured = true) {t : TxBank}
    (hw : TxWork s.build s.params s.tx t) : (s.withTx t).Inv :=
  { h with
    unconfigured := fun hn => absurd (hc.symm.trans hn) (by decide)
    tx := hw.inv h.ranges h.tx }

theorem State.Inv.withRx {s : State} (h : s.Inv) (hc : s.configured = true) {r : RxBank}
    (hw : RxWork s.build s.params s.rx r) : (s.withRx r).Inv :=
  { h with
    unconfigured := fun hn => absurd (hc.symm.trans hn) (by decide)
    rx := hw.inv (h.ring_lengths_pos hc).1 (h.ring_lengths_pos hc).2 h.ranges.bitStep_nonneg h.rx
    received_fit := fun _ hd => hw.fits hd (h.received_fit _ hd)
    emitted_on_grid := fun q hq => hw.onGrid (h.ranges.bitStep_on_grid _ hq) (h.emitted_on_grid q hq) }

/-- The registers RESET leaves meet the invariant (10_state.md R58). -/
theorem State.afterReset_inv (s : State) : s.afterReset.Inv where
  unconfigured := fun _ => ⟨rfl, rfl, rfl⟩
  configured := fun hc => by cases hc
  tx := TxBank.cleared_inv (ParamRegs.cleared_ranges _)
  rx := RxBank.cleared_inv ParamRegs.cleared
  received_fit := fun _ _ => Nat.zero_le _
  emitted_on_grid := fun q _ => onGrid_zero (q + 1)

/-- The registers an accepted CONFIGURE leaves meet the invariant (47_system_ops.md R211). -/
theorem State.configuredWith_inv {s : State} {p : Params} (hv : validConfig s.build p = true) : (s.configuredWith p).Inv where
  unconfigured := fun hc => by cases hc
  configured := fun _ => ⟨p, hv, rfl⟩
  tx := TxBank.cleared_inv (deriveRegs_ranges hv).1
  rx := RxBank.cleared_inv (deriveRegs s.build p)
  received_fit := fun _ _ => Nat.zero_le _
  emitted_on_grid := fun q _ => onGrid_zero (q + 1)

/-- The outcomes of CONFIGURE (47_system_ops.md R211, R214). -/
theorem execConfigure_cases (p : Params) (s : State) :
    execConfigure p s = refuse s ∨
    validConfig s.build p = true ∧ execConfigure p s = answer .ok (s.configuredWith p) := by
  cases hc : s.configured with
  | true => exact .inl (execConfigure_configured hc p)
  | false =>
    cases hv : validConfig s.build p with
    | true => exact .inr ⟨rfl, by simp [execConfigure, hc, hv]⟩
    | false => exact .inl (by simp [execConfigure, hc, hv])

/-- Every operation keeps the invariant. -/
theorem exec_inv {i : Instr} {s t : State} (h : s.Inv) (ht : exec i s = .next t) : t.Inv := by
  rcases path_cases i with rfl | ⟨p, rfl⟩ | htx | hrx
  · obtain rfl := Host.Outcome.next.inj ht
    exact (State.afterReset_inv s).with_port_resp _ _
  · have ht : execConfigure p s = .next t := ht
    rcases execConfigure_cases p s with e | ⟨hv, e⟩ <;> obtain rfl := Host.Outcome.next.inj (e.symm.trans ht)
    · exact h.with_port_resp _ _
    · exact (State.configuredWith_inv hv).with_port_resp _ _
  · obtain ⟨u, a, hu, ⟨hc, hw⟩ | ⟨-, rfl⟩⟩ := transmit_spec htx s <;> rw [hu.eq_next ht]
    · exact (h.withTx hc hw).with_port_resp _ _
    · exact h.with_port_resp _ _
  · obtain ⟨r, a, hr, ⟨hc, hw⟩ | ⟨-, rfl⟩⟩ := receive_spec hrx s <;> rw [hr.eq_next ht]
    · exact (h.withRx hc hw).with_port_resp _ _
    · exact h.with_port_resp _ _

/-- Settles O7: a step takes a request and runs its operation, or changes no register. -/
theorem stepKeepsInv : Obligations.StepKeepsInv := by
  intro s t h ht
  have ha : s.accept.Inv := h.with_port_resp _ _
  rcases step_cases s with ⟨-, e⟩ | ⟨_, -, e⟩ | ⟨i, -, e⟩
  · obtain rfl := Host.Outcome.next.inj (e.symm.trans ht)
    exact ha
  · obtain rfl := Host.Outcome.next.inj (e.symm.trans ht)
    exact ha.with_port_resp _ _
  · exact exec_inv ha (e.symm.trans ht)

/-- Settles O8: the state at reset is one that RESET leaves. -/
theorem resetHasInv : Obligations.ResetHasInv := State.afterReset_inv State.reset

/-- Settles O9: both banks are cleared, and the rings have no entries. -/
theorem resetLeavesTableValues : Obligations.ResetLeavesTableValues :=
  ⟨rfl, rfl, rfl, rfl, rfl, rfl, rfl, rfl, rfl, rfl, rfl, rfl, rfl, rfl, rfl, rfl, rfl, rfl, rfl⟩

end Sys2Proof.Machine
end

section
/-! PROOF. Every register fits the width of a fixed-width build (10_state.md R59). -/

namespace Sys2Proof.Machine

/-- A number on the grid of `q` fraction bits, at least 0 and below `2^w` units, is the value of a register of `w` bits. -/
theorem exists_ofFixed {q w : Nat} {x : Num} (hg : onGrid q x = true) (h0 : 0 ≤ x) (h1 : x * 2 ^ q < 2 ^ w) :
    ∃ v : BitVec w, x = ofFixed q v := by
  obtain ⟨n, rfl⟩ := (onGrid_iff q x).mp hg
  have hp : (0 : Num) < 2 ^ q := by positivity
  have h0 := mul_nonneg h0 hp.le
  rw [div_mul_cancel₀ _ hp.ne'] at h0 h1
  have hn0 : 0 ≤ n := by exact_mod_cast h0
  lift n to Nat using hn0
  have hn1 : n < 2 ^ w := by exact_mod_cast h1
  exact ⟨BitVec.ofNat w n, by simp [ofFixed, Nat.mod_eq_of_lt hn1]⟩

/-- A phase or an increment on the grid of `w` bits is the value of an accumulator of `w` bits (40_oscillator.md R112). -/
theorem exists_phaseOfAcc {w : Nat} {x : Num} (hg : onGrid w x = true) (h0 : 0 ≤ x) (h1 : x < 1) :
    ∃ acc : BitVec w, x = phaseOfAcc acc :=
  exists_ofFixed hg h0 (mul_lt_of_lt_one_left (by positivity) h1)

theorem onGrid_fract {q : Nat} {x : Num} (h : onGrid q x = true) : onGrid q (Int.fract x) = true := by
  obtain ⟨n, rfl⟩ := (onGrid_iff q x).mp h
  have hp : (2 : Num) ^ q ≠ 0 := by positivity
  exact (onGrid_iff q _).mpr ⟨n - ⌊(n : Num) / 2 ^ q⌋ * 2 ^ q, by
    rw [Int.fract]; push_cast; rw [sub_div, mul_div_cancel_right₀ _ hp]⟩

/-- A Q-bit fraction and a sticky bit stand for `emitted_bits` (70_reset_and_hazards.md R262). -/
theorem exists_standsFor {q : Nat} {r : RxBank} (h : onGrid q r.emittedBits = true) : ∃ f : BtrFixed q, f.StandsFor r := by
  obtain ⟨frac, hf⟩ := exists_ofFixed (w := q) (onGrid_fract h) (Int.fract_nonneg _)
    (mul_lt_of_lt_one_left (by positivity) (Int.fract_lt_one _))
  exact ⟨⟨r.prevBit, frac, decide (1 ≤ r.emittedBits)⟩, rfl, hf.symm, rfl⟩

/-- A ring position fits `ceil(log2(length))` bits (10_state.md R59). -/
theorem ringPos_lt_two_pow {pos length : Nat} (h : pos < length ∨ length = 0 ∧ pos = 0) : pos < 2 ^ ringPosWidth length := by
  rcases h with h | ⟨-, rfl⟩
  · exact h.trans_le (Nat.le_pow_clog Nat.one_lt_two _)
  · positivity

/-- Settles O37: a ring of CORR_LEN entries of size at most 1. -/
theorem corrSumFitsRegister : Obligations.CorrSumFitsRegister := by
  intro s h
  obtain ⟨hlo, hhi⟩ := ring_sum_bounds s.rx.corrRing
  rw [← h.rx.sum_exact, h.rx.ring_length] at hlo hhi
  have hw : (s.params.corrLen : Int) + 1 ≤ 2 ^ (corrSumWidth s.params.corrLen - 1) := by
    rw [corrSumWidth, Nat.add_sub_cancel_left]
    exact_mod_cast Nat.le_pow_clog Nat.one_lt_two (s.params.corrLen + 1)
  constructor <;> omega

/-- The running sum is the value of its signed register (10_state.md R47, R59). -/
theorem State.Inv.exists_corrSum {s : State} (h : s.Inv) :
    ∃ v : BitVec (corrSumWidth s.params.corrLen), s.rx.corrSum = v.toInt := by
  obtain ⟨hlo, hhi⟩ := corrSumFitsRegister s h
  have hpos : 0 < corrSumWidth s.params.corrLen := by unfold corrSumWidth; omega
  exact ⟨BitVec.ofInt _ s.rx.corrSum, (BitVec.toInt_ofInt_eq_self hpos hlo hhi).symm⟩

/-- The longest message in samples is below the capacity of `tx_n` (10_state.md R59). -/
theorem longestMessage_lt (c : ParamRegs) (d : Nat) : longestMessage c d < 2 ^ txNWidth c d := by
  have := Nat.le_pow_clog Nat.one_lt_two (1 + longestMessage c d)
  unfold txNWidth
  omega

/-- `tx_boundary` is the value of its register: `tx_n`'s bits and Q fraction bits (10_state.md R59). -/
theorem TxBank.Inv.exists_boundary {b : Build} {c : ParamRegs} {t : TxBank} (h : t.Inv b c) {d q : Nat}
    (hd : b.txMaxLen = some d) (hq : b.fracWidth = some q) :
    ∃ v : BitVec (txBoundaryWidth c d q), t.txBoundary = ofFixed q v := by
  have hlt : t.txBoundary < 2 ^ txNWidth c d := calc
    t.txBoundary ≤ messageEnd c d := h.boundary_fits d hd
    _ ≤ (longestMessage c d : Num) := Nat.le_ceil _
    _ < 2 ^ txNWidth c d := by exact_mod_cast longestMessage_lt c d
  refine exists_ofFixed (h.boundary_on_grid q hq) h.boundary_nonneg ?_
  rw [txBoundaryWidth, pow_add]
  exact mul_lt_mul_of_pos_right hlt (by positivity)

/-- `tx_pos` fits its width (10_state.md R42, R59). -/
theorem TxBank.Inv.pos_lt {b : Build} {c : ParamRegs} {t : TxBank} (h : t.Inv b c) {d : Nat} (hd : b.txMaxLen = some d) :
    t.txPos < 2 ^ txPosWidth d := by
  have hp := h.pos_fits d hd
  have hw := Nat.le_pow_clog Nat.one_lt_two (3 + 10 * d)
  unfold txPosWidth
  omega

/-- The 2-bit code of a ring entry is the entry in two's complement (30_encoding.md R96). -/
theorem tritCode_toInt (a : Trit) : (tritCode a).toInt = tritInt a := by
  cases a <;> decide

theorem tritInt_injective : Function.Injective tritInt := by
  intro a b h
  revert h
  cases a <;> cases b <;> decide

/-- The valid bit and the value bit of the code give `prev_bit` back (30_encoding.md R97). -/
theorem prevBitCode_injective : Function.Injective prevBitCode := by
  unfold Function.Injective
  decide

/-- Settles O60: the clauses of the invariant, register by register. -/
theorem registersFitWidths : Obligations.RegistersFitWidths := by
  intro s h
  have hc := h.ranges
  refine ⟨fun w hw => ?_, fun d hd => ⟨h.tx.pos_lt hd, ?_, fun q hq => h.tx.exists_boundary hd hq⟩,
    ringPos_lt_two_pow h.rx.dpos_lt, ringPos_lt_two_pow h.rx.cpos_lt, h.exists_corrSum,
    fun q hq => exists_standsFor (h.emitted_on_grid q hq), s.rx.symbolBuffer.isLt, ?_, fun a b hab => ?_, tritCode_toInt,
    prevBitCode_injective⟩
  · obtain ⟨phase, hphase⟩ := exists_phaseOfAcc (h.tx.phase_on_grid w hw) h.tx.phase_nonneg h.tx.phase_lt_one
    obtain ⟨inc, hinc⟩ := exists_phaseOfAcc (h.tx.inc_on_grid w hw) h.tx.inc_nonneg h.tx.inc_lt_one
    obtain ⟨mark, hmark⟩ := exists_phaseOfAcc (hc.mark_on_grid w hw) hc.mark_nonneg hc.mark_lt_one
    obtain ⟨space, hspace⟩ := exists_phaseOfAcc (hc.space_on_grid w hw) hc.space_nonneg hc.space_lt_one
    exact ⟨phase, inc, mark, space, hphase, hinc, hmark, hspace⟩
  · exact (h.tx.count_fits d hd).trans_lt (longestMessage_lt s.params d)
  · rw [RxBank.saturated_symbolCount]
    exact (min_le_right _ _).trans_lt (by decide)
  · exact tritInt_injective (by rw [← tritCode_toInt, hab, tritCode_toInt])

end Sys2Proof.Machine
end

section
/-! PROOF. A bit count that saturates at 10 makes no observable difference (10_state.md R51): each unit of the receive path first, then
ticks and blocks, then every operation. -/

namespace Sys2Proof.Machine

/-! ### The banks up to the cut -/

/-- Two results of a receive operation that cannot be told apart: the same returned value, the same bank up to the cut. -/
def SameUpToCut {α : Type} (a b : α × RxBank) : Prop := a.1 = b.1 ∧ a.2.saturated = b.2.saturated

theorem SameUpToCut.symm {α : Type} {a b : α × RxBank} (h : SameUpToCut a b) : SameUpToCut b a := ⟨h.1.symm, h.2.symm⟩

theorem SameUpToCut.trans {α : Type} {a b c : α × RxBank} (h : SameUpToCut a b) (h' : SameUpToCut b c) : SameUpToCut a c :=
  ⟨h.1.trans h'.1, h.2.trans h'.2⟩

/-- What does not see the cut gives the same on banks that are the same up to the cut. -/
theorem SameUpToCut.of_saturated_eq {α : Type} {f : RxBank → α × RxBank} (h : ∀ r, SameUpToCut (f r.saturated) (f r))
    {r r' : RxBank} (e : r.saturated = r'.saturated) : SameUpToCut (f r) (f r') :=
  (h r).symm.trans (e ▸ h r')

@[simp] theorem RxBank.saturated_saturated (r : RxBank) : r.saturated.saturated = r.saturated := by
  simp [RxBank.saturated]

theorem SameUpToCut.cut {α : Type} (v : α) (r : RxBank) : SameUpToCut (v, r.saturated) (v, r) := ⟨rfl, r.saturated_saturated⟩

/-- DISC_STEP neither reads nor writes the count (43_discriminator.md R156). -/
theorem discStep_saturated (c : ParamRegs) (x : Sample) (r : RxBank) :
    discStep c x r.saturated = ((discStep c x r).1, (discStep c x r).2.saturated) := rfl

/-- BTR_STEP neither reads nor writes the count (44_bit_timing.md R171). -/
theorem btrStep_saturated (c : ParamRegs) (raw : Bit) (r : RxBank) :
    btrStep c raw r.saturated = ((btrStep c raw r).1, (btrStep c raw r).2.saturated) := by
  by_cases hp : r.prevBit = some raw
  · simp only [btrStep, RxBank.saturated_prevBit, hp, if_true]; rfl
  · simp only [btrStep, RxBank.saturated_prevBit, hp, if_false]; rfl

/-- The flush neither reads nor writes the count (45_deframer.md R187). -/
theorem flushMessage_saturated (now : Time) (r : RxBank) :
    flushMessage now r.saturated = ((flushMessage now r).1, (flushMessage now r).2.saturated) := by
  rcases flushMessage_cases now r with ⟨hb, e⟩ | ⟨hb, e⟩ <;>
    rcases flushMessage_cases now r.saturated with ⟨hb', e'⟩ | ⟨hb', e'⟩ <;> rw [e, e']
  · exact absurd hb hb'
  · exact absurd hb' hb
  · rfl

theorem flushMessage_sameUpToCut (now : Time) (r : RxBank) :
    SameUpToCut (flushMessage now r.saturated) (flushMessage now r) := by
  rw [flushMessage_saturated]
  exact .cut _ _

/-- The receive failure zeroes the count (45_deframer.md R188). -/
theorem deframeFail_saturated (now : Time) (r : RxBank) :
    deframeFail now r.saturated = deframeFail now r := by
  simp only [deframeFail, takeError_timing, flushMessage_saturated]
  rfl

/-- The window is checked from the count 9 on, cut or not (45_deframer.md R186). -/
theorem decodedByte_saturated (b : Bit) (r : RxBank) : decodedByte b r.saturated = decodedByte b r := by
  have hcount : 10 ≤ min r.symbolCount 10 + 1 ↔ 10 ≤ r.symbolCount + 1 := by omega
  simp only [decodedByte, RxBank.saturated_symbolCount, RxBank.saturated_symbolBuffer, hcount]

/-- Shifting a bit in is the same up to the cut. -/
theorem shifted_saturated (b : Bit) (r : RxBank) : (shifted b r.saturated).saturated = (shifted b r).saturated := by
  have hcount : min (min r.symbolCount 10 + 1) 10 = min (r.symbolCount + 1) 10 := by omega
  simp only [shifted, RxBank.saturated, hcount]

/-- DEFRAME_BIT from the cut count: counting below 9, and from 9 on the same check of the same window (45_deframer.md R186). -/
theorem deframeBit_saturated (b : Bit) (now : Time) (r : RxBank) :
    SameUpToCut (deframeBit b now r.saturated) (deframeBit b now r) := by
  have hcount : 9 ≤ min r.symbolCount 10 ↔ 9 ≤ r.symbolCount := by omega
  have hs := shifted_saturated b r
  have hc := deframeBit_cases b now r.saturated
  simp only [RxBank.saturated_symbolCount, RxBank.saturated_symbolBuffer, hcount] at hc
  rcases hc with ⟨hc, e⟩ | ⟨hc, hv, e⟩ | ⟨hc, hv, e⟩ <;>
    rcases deframeBit_cases b now r with ⟨hc', e'⟩ | ⟨hc', hv', e'⟩ | ⟨hc', hv', e'⟩ <;> rw [e, e']
  · exact ⟨rfl, hs⟩
  · omega
  · omega
  · omega
  · exact ⟨rfl, rfl⟩
  · exact absurd (hv.symm.trans hv') (by decide)
  · omega
  · exact absurd (hv.symm.trans hv') (by decide)
  · exact SameUpToCut.of_saturated_eq (flushMessage_sameUpToCut now) hs

/-! ### Ticks and blocks -/

theorem tickByte_saturated (c : ParamRegs) (x : Sample) (r : RxBank) : tickByte c x r.saturated = tickByte c x r := by
  simp only [tickByte, discStep_saturated, btrStep_saturated, decodedByte_saturated]

/-- RX_TICK from the cut count: the same result of Bit Timing Recovery enters the Deframer (46_demodulator.md R200). -/
theorem rxTick_saturated (c : ParamRegs) (x : Sample) (now : Time) (r : RxBank) :
    SameUpToCut (rxTick c x now r.saturated) (rxTick c x now r) := by
  have hs := rxTick_cases c x now r.saturated
  simp only [discStep_saturated, btrStep_saturated] at hs
  rcases rxTick_cases c x now r with ⟨b, h, e⟩ | ⟨h, e⟩ | ⟨h, e⟩ <;>
    simp only [h, BtrResult.cleanBit.injEq, exists_eq_left', exists_const, reduceCtorEq, false_and, true_and, or_false, false_or,
      or_self] at hs <;> rw [hs, e]
  · exact deframeBit_saturated b now _
  · rw [deframeFail_saturated]; exact ⟨rfl, rfl⟩
  · exact .cut _ _

theorem rxBlock_saturated (c : ParamRegs) (pairs : List (Sample × Time)) (r : RxBank) :
    SameUpToCut (rxBlock c pairs r.saturated) (rxBlock c pairs r) := by
  induction pairs generalizing r with
  | nil => exact .cut [] r
  | cons a rest ih =>
    obtain ⟨hev, hbank⟩ := rxTick_saturated c a.1 a.2 r
    obtain ⟨hevs, hbanks⟩ := SameUpToCut.of_saturated_eq ih hbank
    exact ⟨congrArg₂ (· ++ ·) hev hevs, hbanks⟩

theorem blockOverflows_saturated (b : Build) (c : ParamRegs) (pairs : List (Sample × Time)) (r : RxBank) :
    blockOverflows b c pairs r.saturated = blockOverflows b c pairs r := by
  induction pairs generalizing r with
  | nil => rfl
  | cons a rest ih =>
    have hrest : blockOverflows b c rest (rxTick c a.1 a.2 r.saturated).2 = blockOverflows b c rest (rxTick c a.1 a.2 r).2 := by
      rw [← ih, (rxTick_saturated c a.1 a.2 r).2, ih]
    have hbyte := tickByte_saturated c a.1 r
    simp only [blockOverflows, hrest, hbyte]
    rfl

/-! ### Every operation -/

/-- Two outcomes that cannot be told apart: both answer, with the same response and the same state up to the cut. -/
def AgreeUpToCut (o o' : Host.Outcome State Fault Refusal) : Prop :=
  ∃ t u, o = .next t ∧ o' = .next u ∧ u.resp = t.resp ∧ u.saturated = t.saturated

section
variable (s : State)

@[simp] theorem State.saturated_saturated : s.saturated.saturated = s.saturated := by
  simp [State.saturated]

theorem answer_agreeUpToCut (a : Response) : AgreeUpToCut (answer a s) (answer a s.saturated) :=
  ⟨_, _, rfl, rfl, rfl, congrArg (fun x : State => { x with resp := some a }) s.saturated_saturated⟩

theorem refuse_agreeUpToCut : AgreeUpToCut (refuse s) (refuse s.saturated) := answer_agreeUpToCut s .refused

theorem answer_withRx_agreeUpToCut {α : Type} (f : α → Response) {k' k : α × RxBank} (h : SameUpToCut k' k) :
    AgreeUpToCut (answer (f k.1) (s.withRx k.2)) (answer (f k'.1) (s.saturated.withRx k'.2)) := by
  obtain ⟨hval, hbank⟩ := h
  rw [hval]
  exact ⟨_, _, rfl, rfl, rfl, congrArg (fun r => { s with rx := r, resp := some (f k.1) }) hbank⟩

variable {s}

theorem whenConfigured_agreeUpToCut {o o' : Host.Outcome State Fault Refusal} (h : AgreeUpToCut o o') :
    AgreeUpToCut (whenConfigured s o) (whenConfigured s.saturated o') := by
  unfold whenConfigured
  rw [State.saturated_configured]
  split
  · exact h
  · exact refuse_agreeUpToCut s

end

/-- CONFIGURE clears the receive bank or leaves it (47_system_ops.md R211). -/
theorem execConfigure_agreeUpToCut (p : Params) (s : State) :
    AgreeUpToCut (execConfigure p s) (execConfigure p s.saturated) := by
  unfold execConfigure
  rw [State.saturated_configured, State.saturated_build]
  split
  · exact refuse_agreeUpToCut s
  · split
    · exact ⟨_, _, rfl, rfl, rfl, rfl⟩
    · exact refuse_agreeUpToCut s

/-- The transmit path does not read the count (10_state.md R56). -/
theorem transmit_agreeUpToCut {i : Instr} (hi : i.isTransmit = true) (s : State) :
    AgreeUpToCut (exec i s) (exec i s.saturated) := by
  obtain ⟨t, a, h, -⟩ := transmit_spec hi s
  refine ⟨_, _, h s.rx s.resp, h s.rx.saturated s.resp, rfl, ?_⟩
  exact congrArg (fun r => { s with tx := t, rx := r, resp := some a }) s.rx.saturated_saturated

/-- RX_TICK from the cut count: the same overflow, and otherwise the same tick. -/
theorem execRxTick_agreeUpToCut (sample : InSample) (now : Time) (s : State) :
    AgreeUpToCut (execRxTick sample now s) (execRxTick sample now s.saturated) := by
  cases hc : s.configured with
  | false =>
    simp only [execRxTick, State.saturated_configured, hc]
    exact answer_agreeUpToCut s (.events [])
  | true =>
    cases sample with
    | nonNumeric =>
      simp only [execRxTick, State.saturated_configured, hc]
      exact refuse_agreeUpToCut s
    | num x =>
      have ho : overflows s.build (tickByte s.params x s.rx.saturated) s.rx.saturated =
          overflows s.build (tickByte s.params x s.rx) s.rx := by rw [tickByte_saturated]; rfl
      simp only [execRxTick, State.saturated_configured, State.saturated_build, State.saturated_params, State.saturated_rx,
        hc, if_true, ho]
      split
      · exact refuse_agreeUpToCut s
      · exact answer_withRx_agreeUpToCut s Response.events (rxTick_saturated s.params x now s.rx)

/-- RX_BLOCK from the cut count: the same overflow, and otherwise the same ticks. -/
theorem execRxBlock_agreeUpToCut (pairs : List (InSample × Time)) (s : State) :
    AgreeUpToCut (execRxBlock pairs s) (execRxBlock pairs s.saturated) := by
  cases hc : s.configured with
  | false =>
    simp only [execRxBlock, State.saturated_configured, hc]
    exact answer_agreeUpToCut s (.events [])
  | true =>
    cases hn : numericPairs pairs with
    | none =>
      simp only [execRxBlock, State.saturated_configured, hc, hn]
      exact refuse_agreeUpToCut s
    | some ps =>
      simp only [execRxBlock, State.saturated_configured, State.saturated_build, State.saturated_params, State.saturated_rx,
        hc, hn, if_true, blockOverflows_saturated]
      split
      · exact refuse_agreeUpToCut s
      · exact answer_withRx_agreeUpToCut s Response.events (rxBlock_saturated s.params ps s.rx)

/-- DEFRAME_BIT from the cut count: the same overflow, and otherwise the same check (45_deframer.md R186). -/
theorem execDeframeBit_agreeUpToCut (b : Bit) (now : Time) (s : State) :
    AgreeUpToCut (execDeframeBit b now s) (execDeframeBit b now s.saturated) := by
  have ho : overflows s.build (decodedByte b s.rx.saturated) s.rx.saturated =
      overflows s.build (decodedByte b s.rx) s.rx := by rw [decodedByte_saturated]; rfl
  unfold execDeframeBit
  refine whenConfigured_agreeUpToCut ?_
  simp only [State.saturated_build, State.saturated_rx, ho]
  split
  · exact refuse_agreeUpToCut s
  · exact answer_withRx_agreeUpToCut s Response.events (deframeBit_saturated b now s.rx)

/-- Every receive operation from the cut count, by its unit. -/
theorem receive_agreeUpToCut {i : Instr} (hi : i.isReceive = true) (s : State) :
    AgreeUpToCut (exec i s) (exec i s.saturated) := by
  cases i with
  | rxTick sample now => exact execRxTick_agreeUpToCut sample now s
  | rxBlock pairs => exact execRxBlock_agreeUpToCut pairs s
  | deframeBit b now => exact execDeframeBit_agreeUpToCut b now s
  | discStep sample =>
    refine whenConfigured_agreeUpToCut ?_
    cases sample with
    | nonNumeric => exact refuse_agreeUpToCut s
    | num x => exact answer_withRx_agreeUpToCut s Response.raw (.cut _ (discStep s.params x s.rx).2)
  | btrStep raw =>
    have h : SameUpToCut (btrStep s.params raw s.rx.saturated) (btrStep s.params raw s.rx) := by
      rw [btrStep_saturated]; exact .cut _ _
    exact whenConfigured_agreeUpToCut (answer_withRx_agreeUpToCut s Response.btr h)
  | deframeFail now =>
    have h : SameUpToCut (deframeFail now s.rx.saturated) (deframeFail now s.rx) := by
      rw [deframeFail_saturated]; exact ⟨rfl, rfl⟩
    exact whenConfigured_agreeUpToCut (answer_withRx_agreeUpToCut s Response.events h)
  | deframeFlush now =>
    exact whenConfigured_agreeUpToCut
      (answer_withRx_agreeUpToCut s Response.events (flushMessage_sameUpToCut now s.rx))
  | reset | configure | txSchedule | txTick | txBlock | oscStep | toneSel | schedPop | framerNext | framerSym => cases hi

/-- Settles O57: unit by unit, then by induction on the block, then operation by operation. -/
theorem saturatedCountMatches : Obligations.SaturatedCountMatches := by
  refine ⟨rxBlock_saturated, fun b now r => ⟨decodedByte_saturated b r, deframeBit_saturated b now r⟩, fun i s => ?_⟩
  rcases path_cases i with rfl | ⟨p, rfl⟩ | htx | hrx
  · exact ⟨_, _, rfl, rfl, rfl, rfl⟩
  · exact execConfigure_agreeUpToCut p s
  · exact transmit_agreeUpToCut htx s
  · exact receive_agreeUpToCut hrx s

end Sys2Proof.Machine
end

section
/-! PROOF. A received byte that does not fit the build's store (20_memory.md R63, log entry 6): what the units of the receive path
answer on a configured block, then the tick whose Bit Timing Recovery returns a clean bit, by the overflow test of its DEFRAME_BIT. -/

namespace Sys2Proof.Machine

/-! ### The receive units on a configured block -/

section Configured
variable {s : State} (hc : s.configured = true)
include hc

theorem exec_discStep_num (x : Sample) : exec (.discStep (.num x)) s = .next { s with
    rx := (discStep s.params x s.rx).2
    resp := some (.raw (discStep s.params x s.rx).1) } := whenConfigured_true hc _

theorem exec_btrStep_configured (raw : Bit) : exec (.btrStep raw) s = .next { s with
    rx := (btrStep s.params raw s.rx).2
    resp := some (.btr (btrStep s.params raw s.rx).1) } := whenConfigured_true hc _

theorem exec_deframeBit_of_overflow {b : Bit} (now : Time) (ho : overflows s.build (decodedByte b s.rx) s.rx = true) :
    exec (.deframeBit b now) s = .next { s with resp := some .refused } :=
  (whenConfigured_true hc _).trans (if_pos ho)

theorem exec_deframeBit_of_fits {b : Bit} (now : Time) (ho : overflows s.build (decodedByte b s.rx) s.rx = false) :
    exec (.deframeBit b now) s = .next { s with
      rx := (deframeBit b now s.rx).2
      resp := some (.events (deframeBit b now s.rx).1) } :=
  (whenConfigured_true hc _).trans (if_neg (by simp [ho]))

theorem exec_rxTick_of_overflow {x : Sample} (now : Time) (ho : overflows s.build (tickByte s.params x s.rx) s.rx = true) :
    exec (.rxTick (.num x) now) s = .next { s with resp := some .refused } :=
  (if_pos hc).trans (if_pos ho)

theorem exec_rxTick_of_fits {x : Sample} (now : Time) (ho : overflows s.build (tickByte s.params x s.rx) s.rx = false) :
    exec (.rxTick (.num x) now) s = .next { s with
      rx := (rxTick s.params x now s.rx).2
      resp := some (.events (rxTick s.params x now s.rx).1) } :=
  (if_pos hc).trans (if_neg (by simp [ho]))

end Configured

/-! ### The byte that overflows -/

/-- The shift as DEFRAME_BIT's rule writes it (30_encoding.md R93). -/
theorem shiftIn_eq (b : Bit) (buf : BitVec 10) : shiftIn b buf = (if b then 0x200#10 else 0#10) ||| (buf >>> 1) := by
  cases b <;> rfl

/-- From the tenth bit on a valid window decodes its data byte (45_deframer.md R186). -/
theorem decodedByte_of_valid {b : Bit} {r : RxBank} (hn : 9 ≤ r.symbolCount)
    (hv : validFrame (shiftIn b r.symbolBuffer) = true) :
    decodedByte b r = some (windowByte (shiftIn b r.symbolBuffer)) :=
  if_pos ⟨Nat.succ_le_succ hn, hv⟩

/-- The overflow test reads the held bytes alone (20_memory.md R63). -/
theorem overflows_congr (build : Build) (byte : Option Byte) {r r' : RxBank} (h : r.rxBytes = r'.rxBytes) :
    overflows build byte r = overflows build byte r' := by
  simp only [overflows, storeFull, h]

/-! ### The tick on a clean bit -/

section CleanBit
variable {c : ParamRegs} {x : Sample} {r : RxBank} {b : Bit}

/-- What the two units before the Deframer make of a sample: the result of BTR_STEP and the bank (46_demodulator.md R200). -/
def beforeDeframer (c : ParamRegs) (x : Sample) (r : RxBank) : BtrResult × RxBank :=
  btrStep c (discStep c x r).1 (discStep c x r).2

theorem rxTick_of_cleanBit (now : Time) (h : (beforeDeframer c x r).1 = .cleanBit b) :
    rxTick c x now r = deframeBit b now (beforeDeframer c x r).2 := by
  unfold beforeDeframer at *
  simpa [h] using rxTick_cases c x now r

/-- On a clean bit the tick's overflow test is the one that DEFRAME_BIT makes after the two units before it. -/
theorem overflows_tickByte_of_cleanBit (build : Build) (h : (beforeDeframer c x r).1 = .cleanBit b) :
    overflows build (tickByte c x r) r =
      overflows build (decodedByte b (beforeDeframer c x r).2) (beforeDeframer c x r).2 := by
  have hbyte : tickByte c x r = decodedByte b (beforeDeframer c x r).2 := by
    unfold beforeDeframer at *
    simpa [h] using tickByte_cases c x r
  have hheld : (beforeDeframer c x r).2.rxBytes = r.rxBytes := by simp [beforeDeframer]
  rw [hbyte, overflows_congr build _ hheld]

end CleanBit

/-- A DEFRAME_BIT that completes a valid frame with the store full is refused. -/
theorem exec_deframeBit_of_storeFull {s : State} {b : Bit} {d : Nat} (now : Time) (hc : s.configured = true)
    (hn : 9 ≤ s.rx.symbolCount) (hv : validFrame (shiftIn b s.rx.symbolBuffer) = true)
    (hd : s.build.rxMaxLen = some d) (hfull : d ≤ s.rx.rxBytes.length) :
    exec (.deframeBit b now) s = .next { s with resp := some .refused } :=
  exec_deframeBit_of_overflow hc now ((overflows_iff _ _ _).mpr ⟨⟨_, decodedByte_of_valid hn hv⟩, d, hd, hfull⟩)

/-- The tick follows its DEFRAME_BIT: refused whole with it, and otherwise the state after it. -/
theorem exec_rxTick_of_deframeBit {s v w : State} {x : Sample} {now : Time} {b : Bit} {q : Option Response}
    (hc : s.configured = true) (hb : (beforeDeframer s.params x s.rx).1 = .cleanBit b)
    (hv : v = { s with rx := (beforeDeframer s.params x s.rx).2, resp := q }) (hw : exec (.deframeBit b now) v = .next w) :
    (w.resp = some .refused → exec (.rxTick (.num x) now) s = .next { s with resp := some .refused }) ∧
    (w.resp ≠ some .refused → exec (.rxTick (.num x) now) s = .next w) := by
  have hcv : v.configured = true := by rw [hv]; exact hc
  have htest : overflows v.build (decodedByte b v.rx) v.rx = overflows s.build (tickByte s.params x s.rx) s.rx := by
    rw [overflows_tickByte_of_cleanBit s.build hb, hv]
  cases ho : overflows s.build (tickByte s.params x s.rx) s.rx with
  | true =>
    obtain rfl := Host.Outcome.next.inj ((exec_deframeBit_of_overflow hcv now (htest.trans ho)).symm.trans hw)
    exact ⟨fun _ => exec_rxTick_of_overflow hc now ho, fun hne => absurd rfl hne⟩
  | false =>
    obtain rfl := Host.Outcome.next.inj ((exec_deframeBit_of_fits hcv now (htest.trans ho)).symm.trans hw)
    refine ⟨fun hr => by simp at hr, fun _ => ?_⟩
    rw [exec_rxTick_of_fits hc now ho, rxTick_of_cleanBit now hb, hv]

/-- Settles O59: the full store refuses DEFRAME_BIT, and the tick's units are named by their equations. -/
theorem receiveOverflowRefused : Obligations.ReceiveOverflowRefused := by
  intro s hc
  constructor
  · rintro b now _ d rfl hn hv hd hfull
    refine exec_deframeBit_of_storeFull now hc hn ?_ hd hfull
    rw [shiftIn_eq, validFrame, hv, beq_self_eq_true]
  · intro x now u v w raw b hu hraw hv hbit hw
    have hu' := (Host.Outcome.next.inj ((exec_discStep_num hc x).symm.trans hu)).symm
    have hcu : u.configured = true := by rw [hu']; exact hc
    have hv' := (Host.Outcome.next.inj ((exec_btrStep_configured hcu raw).symm.trans hv)).symm
    subst hu' hv'
    obtain rfl : (discStep s.params x s.rx).1 = raw := by simpa using hraw
    exact exec_rxTick_of_deframeBit hc (by simpa [beforeDeframer] using hbit) rfl hw

end Sys2Proof.Machine
end

section
/-! PROOF. The decoder and the encoder of the command word (30_encoding.md R81 to R86), and the step on a request that decodes and on
one with a reserved word. -/

namespace Sys2Proof

/-! ### The fields of the command word -/

/-- The three fields of R81 make up the word. -/
theorem cmd_toNat_eq_fields (cmd : Cmd) :
    cmd.toNat = 32 * (cmdZero cmd).toNat + 16 * (cmdUnit cmd).toNat + (cmdSel cmd).toNat := by
  have hlt := cmd.isLt
  simp only [cmdZero, cmdUnit, cmdSel, BitVec.extractLsb'_toNat, BitVec.getLsbD, Nat.toNat_testBit, Nat.shiftRight_eq_div_pow]
  omega

theorem cmd_ext {cmd cmd' : Cmd} (hz : cmdZero cmd = cmdZero cmd') (hu : cmdUnit cmd = cmdUnit cmd')
    (hs : cmdSel cmd = cmdSel cmd') : cmd = cmd' :=
  BitVec.eq_of_toNat_eq (by rw [cmd_toNat_eq_fields, cmd_toNat_eq_fields, hz, hu, hs])

/-! ### The two groups -/

/-- The top-level group answers to exactly the selectors of its operations (R82). -/
theorem topLevelOp_eq_some_iff (sel : BitVec 4) (op : Opcode) :
    topLevelOp sel = some op ↔ op.isUnit = false ∧ sel = cmdSel (encodeCmd op) := by
  revert sel; cases op <;> decide

/-- The unit-level group answers to exactly the selectors of its operations (R83). -/
theorem unitLevelOp_eq_some_iff (sel : BitVec 4) (op : Opcode) :
    unitLevelOp sel = some op ↔ op.isUnit = true ∧ sel = cmdSel (encodeCmd op) := by
  revert sel; cases op <;> decide

/-- The decoder picks the group by the unit bit, and looks at the unit port for the unit-level group alone (R81, R84). -/
theorem decodeCmd_eq_ok_iff_group (unitPort : Bool) (cmd : Cmd) (op : Opcode) :
    decodeCmd unitPort cmd = .ok op ↔ cmdZero cmd = 0 ∧
      ((cmdUnit cmd = true ∧ unitLevelOp (cmdSel cmd) = some op ∧ unitPort = true) ∨
        (cmdUnit cmd = false ∧ topLevelOp (cmdSel cmd) = some op)) := by
  unfold decodeCmd
  by_cases hz : cmdZero cmd = 0
  · cases cmdUnit cmd with
    | true => cases unitLevelOp (cmdSel cmd) <;> cases unitPort <;> simp [hz]
    | false => cases topLevelOp (cmdSel cmd) <;> simp [hz]
  · rw [if_pos hz]
    simp only [hz, false_and, reduceCtorEq]

/-- A command word selects an operation exactly when it is the operation's own word and the build has it (R82 to R84). -/
theorem decodeCmd_eq_ok_iff (unitPort : Bool) (cmd : Cmd) (op : Opcode) :
    decodeCmd unitPort cmd = .ok op ↔ cmd = encodeCmd op ∧ (op.isUnit = true → unitPort = true) := by
  obtain ⟨hzero, hunit⟩ := Laws.encodeCmd_layout op
  rw [decodeCmd_eq_ok_iff_group, unitLevelOp_eq_some_iff, topLevelOp_eq_some_iff]
  constructor
  · rintro ⟨hz, ⟨hu, ⟨hop, hsel⟩, hport⟩ | ⟨hu, hop, hsel⟩⟩
    · exact ⟨cmd_ext (hz.trans hzero.symm) (by rw [hu, hunit, hop]) hsel, fun _ => hport⟩
    · exact ⟨cmd_ext (hz.trans hzero.symm) (by rw [hu, hunit, hop]) hsel, by simp [hop]⟩
  · rintro ⟨rfl, hport⟩
    cases hop : op.isUnit with
    | true => exact ⟨hzero, .inl ⟨hunit.trans hop, ⟨rfl, rfl⟩, hport hop⟩⟩
    | false => exact ⟨hzero, .inr ⟨hunit.trans hop, rfl, rfl⟩⟩

/-! ### Operands -/

@[simp] theorem opcode_withOperands (o : Operands) (op : Opcode) : (withOperands o op).opcode = op := by
  cases op <;> rfl

/-- An instruction takes back the operands that its encoding carries (R85, R86). -/
@[simp] theorem withOperands_operandsOf (i : Instr) : withOperands (operandsOf i) i.opcode = i := by
  cases i <;> rfl

theorem decode_of_decodeCmd_ok {unitPort : Bool} {r : Request} {op : Opcode} (h : decodeCmd unitPort r.cmd = .ok op) :
    decode unitPort r = .ok (withOperands r.operands op) := by
  simp only [decode, h]

theorem decode_of_decodeCmd_error {unitPort : Bool} {r : Request} {e : DecodeError}
    (h : decodeCmd unitPort r.cmd = .error e) : decode unitPort r = .error e := by
  simp only [decode, h]

theorem decode_eq_ok_iff (unitPort : Bool) (r : Request) (i : Instr) :
    decode unitPort r = .ok i ↔ decodeCmd unitPort r.cmd = .ok i.opcode ∧ i = withOperands r.operands i.opcode := by
  constructor
  · intro h
    cases hc : decodeCmd unitPort r.cmd with
    | error e => cases (decode_of_decodeCmd_error hc).symm.trans h
    | ok op =>
      cases (decode_of_decodeCmd_ok hc).symm.trans h
      simp only [opcode_withOperands, and_self]
  · rintro ⟨hc, hi⟩
    rw [decode_of_decodeCmd_ok hc, ← hi]

/-- Every instruction the build has is decoded from its encoding, an ill-formed one too. -/
theorem decode_encode {unitPort : Bool} (i : Instr) (h : i.opcode.isUnit = true → unitPort = true) :
    decode unitPort (encode i) = .ok i :=
  (decode_eq_ok_iff ..).mpr ⟨(decodeCmd_eq_ok_iff ..).mpr ⟨rfl, h⟩, (withOperands_operandsOf i).symm⟩

/-- Settles O1: the command word by its three fields and the selectors of its group, the operands by the instruction's format. -/
theorem decodeEncodeAgree : Obligations.DecodeEncodeAgree := by
  refine ⟨fun unitPort r i => ?_, fun _ i _ h => decode_encode i h⟩
  rw [decode_eq_ok_iff, decodeCmd_eq_ok_iff, and_assoc]

/-- The word of an operation, as a row of the opcode table, decodes to it with operand fields of zeros. -/
theorem decodeTableWord_encodeCmd (op : Opcode) :
    decodeTableWord 8 (encodeCmd op).toNat = some (withOperands {} op) := by
  have hc : decodeCmd true (encodeCmd op) = .ok op := (decodeCmd_eq_ok_iff ..).mpr ⟨rfl, fun _ => rfl⟩
  have hd := decode_of_decodeCmd_ok (r := { cmd := encodeCmd op }) hc
  simp only [decodeTableWord, (encodeCmd op).isLt, and_self, if_true, BitVec.ofNat_toNat, BitVec.setWidth_eq, hd]

/-- Settles O2: the eleven words are the encoder's. -/
theorem commandWordsDecode : Obligations.CommandWordsDecode :=
  ⟨decodeTableWord_encodeCmd .reset, decodeTableWord_encodeCmd .configure, decodeTableWord_encodeCmd .txSchedule,
    decodeTableWord_encodeCmd .txTick, decodeTableWord_encodeCmd .rxTick, decodeTableWord_encodeCmd .oscStep,
    decodeTableWord_encodeCmd .schedPop, decodeTableWord_encodeCmd .discStep, decodeTableWord_encodeCmd .btrStep,
    decodeTableWord_encodeCmd .deframeBit, decodeTableWord_encodeCmd .framerSym⟩

/-- Where the words of the two groups lie (R82, R83). -/
theorem encodeCmd_range (op : Opcode) :
    (op.isUnit = false ∧ 0x01 ≤ (encodeCmd op).toNat ∧ (encodeCmd op).toNat ≤ 0x07) ∨
    (op.isUnit = true ∧ 0x10 ≤ (encodeCmd op).toNat ∧ (encodeCmd op).toNat ≤ 0x19) := by
  cases op <;> decide

/-- A word that selects an operation lies in one of the two groups, in the second only with the unit port (R82 to R84). -/
theorem cmd_range_of_decodeCmd_ok {unitPort : Bool} {cmd : Cmd} {op : Opcode} (h : decodeCmd unitPort cmd = .ok op) :
    (0x01 ≤ cmd.toNat ∧ cmd.toNat ≤ 0x07) ∨ (unitPort = true ∧ 0x10 ≤ cmd.toNat ∧ cmd.toNat ≤ 0x19) := by
  obtain ⟨rfl, hport⟩ := (decodeCmd_eq_ok_iff ..).mp h
  rcases encodeCmd_range op with ⟨-, hr⟩ | ⟨hu, hr⟩
  · exact .inl hr
  · exact .inr ⟨hport hu, hr⟩

end Sys2Proof

namespace Sys2Proof.Machine

/-! ### The step on a pending request -/

section Pending
variable {s : State} {r : Request} {rest : List Request} (hp : s.port = r :: rest)
include hp

/-- The request taken from the port is the oldest (30_encoding.md R80). -/
theorem State.accept_of_port : s.accept = { s with port := rest, resp := none } := by
  rw [State.accept, hp, List.tail_cons]

theorem step_of_decode_ok {i : Instr} (hd : decode s.build.unitPort r = .ok i) :
    step s = exec i { s with port := rest, resp := none } := by
  have hf : fetch s = .op i := by simp only [fetch, hp, hd]
  rw [step, hf, State.accept_of_port hp]

/-- A reserved word changes no register (30_encoding.md R84). -/
theorem step_of_decode_error {e : DecodeError} (hd : decode s.build.unitPort r = .error e) :
    step s = .next { s with port := rest, resp := some .refused } := by
  have hf : fetch s = .reserved e := by simp only [fetch, hp, hd]
  rw [step, hf, State.accept_of_port hp, refuse]

end Pending

/-- Settles O4: the oldest request is what is fetched, and accepting it leaves the rest. -/
theorem stepRunsDecoded : Obligations.StepRunsDecoded :=
  fun _ _ _ _ hp hd => step_of_decode_ok hp hd

/-- Settles O3: the reserved words lie outside the range of the words that select an operation. -/
theorem reservedWordsRefused : Obligations.ReservedWordsRefused := by
  intro s r rest hp hreserved
  cases hc : decodeCmd s.build.unitPort r.cmd with
  | error e => exact step_of_decode_error hp (decode_of_decodeCmd_error hc)
  | ok op =>
    rcases cmd_range_of_decodeCmd_ok hc with hr | ⟨hport, hr⟩
    · omega
    · simp only [hport, Bool.true_eq_false, false_and, or_false] at hreserved
      omega

end Sys2Proof.Machine
end

section
/-! PROOF. The encodings of the receive path: the shift register (30_encoding.md R93) and blocks with a sample that is not a number
(43_discriminator.md R156 (a), log entry 9). -/

namespace Sys2Proof.Machine

/-- Of the old bits, bit 0 first, and after them the bits shifted in, the register holds the last ten (R93). -/
theorem foldl_shiftIn_getLsbD (bits : List Bit) (buf : BitVec 10) {i : Nat} (hi : i < 10) :
    (bits.foldl (fun v b => shiftIn b v) buf).getLsbD i =
      if i + bits.length < 10 then buf.getLsbD (i + bits.length) else bits.getD (i + bits.length - 10) false := by
  induction bits generalizing buf with
  | nil => simp [hi]
  | cons b bs ih =>
    rw [List.foldl_cons, ih, List.length_cons]
    rcases lt_trichotomy (i + bs.length) 9 with hlt | heq | hgt
    · have hold : (shiftIn b buf).getLsbD (i + bs.length) = buf.getLsbD (i + (bs.length + 1)) := by
        rw [shiftIn_getLsbD b buf _ (by omega), if_neg hlt.ne, Nat.add_assoc]
      rw [if_pos (by omega), if_pos (by omega), hold]
    · have hnew : (shiftIn b buf).getLsbD 9 = b := by
        rw [shiftIn_getLsbD b buf _ (by decide), if_pos rfl]
      rw [if_pos (by omega), if_neg (by omega), heq, hnew, show i + (bs.length + 1) - 10 = 0 by omega, List.getD_cons_zero]
    · rw [if_neg (by omega), if_neg (by omega), show i + (bs.length + 1) - 10 = i + bs.length - 10 + 1 by omega,
        List.getD_cons_succ]

/-- Settles O45: after ten shifts no old bit is left. -/
theorem tenShiftsFillWindow : Obligations.TenShiftsFillWindow := by
  intro bits buf hlen i hi
  rw [foldl_shiftIn_getLsbD bits buf hi, hlen, if_neg (by omega), Nat.add_sub_cancel]

/-- A block has no list of numbers exactly when some sample of it is not a number. -/
theorem numericPairs_eq_none_iff (pairs : List (InSample × Time)) :
    numericPairs pairs = none ↔ ∃ now, (InSample.nonNumeric, now) ∈ pairs := by
  induction pairs with
  | nil => simp [numericPairs]
  | cons p rest ih =>
    obtain ⟨x | _, now⟩ := p
    · simp [numericPairs, ih]
    · simp [numericPairs]

theorem exec_rxBlock_of_nonNumeric {s : State} (hc : s.configured = true) {pairs : List (InSample × Time)}
    (h : ∃ now, (InSample.nonNumeric, now) ∈ pairs) : exec (.rxBlock pairs) s = .next { s with resp := some .refused } := by
  have hn := (numericPairs_eq_none_iff pairs).mpr h
  simp only [exec, execRxBlock, hc, if_true, hn, refuse]

/-- Settles O52: one such sample in the block is enough. -/
theorem nonNumericBlockRefused : Obligations.NonNumericBlockRefused :=
  fun _ before after now hc => exec_rxBlock_of_nonNumeric hc ⟨now, List.mem_append_right before (List.mem_cons_self (l := after))⟩

end Sys2Proof.Machine
end

section
/-! PROOF. The Tone Oscillator: OSC_STEP at the unit port (40_oscillator.md R111), the accumulator of PW bits (R112) and the phase law
(R117). -/

namespace Sys2Proof.Machine

/-! ### OSC_STEP at the unit port -/

/-- OSC_STEP in its operand range advances the phase by the increment the build holds (40_oscillator.md R111). -/
theorem exec_oscStep_of_range {s : State} {inc : Num} (hc : s.configured = true) (h : IncInRange inc) :
    exec (.oscStep inc) s = .next { s with
      tx := { s.tx with txPhase := wrapPhase (s.tx.txPhase + heldIncrement s.build.phaseWidth inc) }
      resp := some (.sample (Config.sine s.tx.txPhase)) } :=
  (whenConfigured_true hc _).trans (if_pos h)

theorem exec_oscStep_of_unconfigured {s : State} (hc : s.configured = false) (inc : Num) :
    exec (.oscStep inc) s = .next { s with resp := some .refused } :=
  whenConfigured_false hc _

theorem exec_oscStep_of_not_range {s : State} {inc : Num} (h : ¬ IncInRange inc) :
    exec (.oscStep inc) s = .next { s with resp := some .refused } := by
  by_cases hc : s.configured = true
  · exact (whenConfigured_true hc _).trans (if_neg h)
  · exact exec_oscStep_of_unconfigured (Bool.eq_false_iff.mpr hc) inc

theorem heldIncrement_of_onGrid {width : Option Nat} {inc : Num} (h : ∀ w, width = some w → onGrid w inc = true) :
    heldIncrement width inc = inc := by
  rcases heldIncrement_cases width inc with ⟨-, e⟩ | ⟨w, hw, hoff, -⟩
  · exact e
  · rw [h w hw] at hoff
    cases hoff

/-- In a build with a PW-bit phase the increment held is a value of PW bits (10_state.md R59; log entry 26). -/
theorem exists_heldIncrement_eq_phaseOfAcc (w : Nat) {inc : Num} (h : IncInRange inc) :
    ∃ v : BitVec w, heldIncrement (some w) inc = phaseOfAcc v :=
  have ⟨h0, h1, hg⟩ := heldIncrement_range (some w) h.1 h.2
  exists_phaseOfAcc (hg w rfl) h0 h1

/-- Settles O17: the increment held is `inc` on the grid, and a value of PW bits off it. -/
theorem oscStepAdvancesPhase : Obligations.OscStepAdvancesPhase := by
  intro s inc
  refine ⟨fun hc h0 h1 hgrid => ?_, fun w hc h0 h1 hw => ?_, fun h => ?_⟩
  · have hheld : heldIncrement s.build.phaseWidth inc = inc := heldIncrement_of_onGrid fun w hw => by
      obtain ⟨n, hn⟩ := hgrid w hw
      exact (onGrid_iff w inc).mpr ⟨n, eq_div_of_mul_eq (by positivity) hn⟩
    rw [exec_oscStep_of_range hc ⟨h0, h1⟩, hheld, wrapPhase]
  · obtain ⟨v, hv⟩ := exists_heldIncrement_eq_phaseOfAcc w ⟨h0, h1⟩
    refine ⟨v, ?_⟩
    rw [exec_oscStep_of_range hc ⟨h0, h1⟩, hw, hv, phaseOfAcc, wrapPhase]
  · rcases h with hc | hneg | hge
    · exact exec_oscStep_of_unconfigured hc inc
    · exact exec_oscStep_of_not_range fun h => absurd h.1 hneg.not_ge
    · exact exec_oscStep_of_not_range fun h => absurd h.2 hge.not_gt

/-! ### The accumulator of PW bits -/

/-- Settles O55: both the single subtraction and the dropped carry are the remainder modulo `2^PW`. -/
theorem accumulatorMatchesPhase : Obligations.AccumulatorMatchesPhase := by
  intro pw acc ftw
  have hsum : phaseOfAcc acc + phaseOfAcc ftw = ((acc.toNat + ftw.toNat : Nat) : Num) / ((2 ^ pw : Nat) : Num) := by
    simp only [phaseOfAcc]
    push_cast
    ring
  obtain ⟨ha0, ha1⟩ := phaseOfAcc_range acc
  obtain ⟨hf0, hf1⟩ := phaseOfAcc_range ftw
  calc wrapPhase (phaseOfAcc acc + phaseOfAcc ftw)
      = Int.fract (phaseOfAcc acc + phaseOfAcc ftw) := wrapPhase_eq_fract (add_nonneg ha0 hf0) (by linarith)
    _ = (((acc.toNat + ftw.toNat) % 2 ^ pw : Nat) : Num) / ((2 ^ pw : Nat) : Num) := by
        rw [hsum, Int.fract_div_natCast_eq_div_natCast_mod]
    _ = phaseOfAcc (accStep acc ftw) := by
        rw [phaseOfAcc, accStep, BitVec.toNat_add, Nat.cast_pow, Nat.cast_ofNat]

/-! ### The phase law -/

@[simp] theorem oscRun_nil (t : TxBank) : oscRun [] t = ([], t) := rfl

theorem oscRun_cons (inc : Num) (rest : List Num) (t : TxBank) :
    oscRun (inc :: rest) t =
      (Config.sine t.txPhase :: (oscRun rest (oscStep inc t).2).1, (oscRun rest (oscStep inc t).2).2) := rfl

/-- A step from a phase in `[0, 1)` is a full reduction modulo 1 (40_oscillator.md R111 (d)). -/
theorem oscStep_bank_eq_fract {inc : Num} {t : TxBank} (h0 : 0 ≤ t.txPhase) (h1 : t.txPhase < 1) (hi : IncInRange inc) :
    (oscStep inc t).2 = { t with txPhase := Int.fract (t.txPhase + inc) } := by
  rw [oscStep, wrapPhase_eq_fract (add_nonneg h0 hi.1) (by linarith [hi.2])]

/-- Reducing on the way changes nothing modulo 1. -/
theorem fract_fract_add (x y : Num) : Int.fract (Int.fract x + y) = Int.fract (x + y) :=
  Int.fract_eq_fract.mpr ⟨-⌊x⌋, by rw [Int.fract]; push_cast; ring⟩

theorem oscRun_length (incs : List Num) (t : TxBank) : (oscRun incs t).1.length = incs.length := by
  induction incs generalizing t with
  | nil => rfl
  | cons inc rest ih => simp only [oscRun_cons, List.length_cons, ih]

/-- The phase law for the bank: the wraps on the way add up to one reduction modulo 1 (40_oscillator.md R117). -/
theorem oscRun_bank_eq_fract {incs : List Num} {t : TxBank} (h0 : 0 ≤ t.txPhase) (h1 : t.txPhase < 1)
    (hi : ∀ inc ∈ incs, IncInRange inc) :
    (oscRun incs t).2 = { t with txPhase := Int.fract (t.txPhase + incs.sum) } := by
  induction incs generalizing t with
  | nil => rw [oscRun_nil, List.sum_nil, add_zero, Int.fract_eq_self.mpr ⟨h0, h1⟩]
  | cons inc rest ih =>
    obtain ⟨hinc, hrest⟩ := List.forall_mem_cons.mp hi
    rw [oscRun_cons, oscStep_bank_eq_fract h0 h1 hinc, ih (Int.fract_nonneg _) (Int.fract_lt_one _) hrest,
      fract_fract_add, add_assoc, List.sum_cons]

/-- Sample `k` is the sine of the phase that the first `k` increments leave (40_oscillator.md R111: the sample is taken before the
advance). -/
theorem oscRun_sample {incs : List Num} (t : TxBank) {k : Nat} (hk : k < incs.length) :
    (oscRun incs t).1[k]? = some (Config.sine (oscRun (incs.take k) t).2.txPhase) := by
  induction incs generalizing t k with
  | nil => cases hk
  | cons inc rest ih =>
    cases k with
    | zero => rfl
    | succ k =>
      rw [oscRun_cons, List.getElem?_cons_succ, List.take_succ_cons, oscRun_cons]
      exact ih _ (Nat.lt_of_succ_lt_succ hk)

/-- Settles O18: the phase law for the whole list gives the bank, and for its first `k` increments sample `k`. -/
theorem phaseLaw : Obligations.PhaseLaw := by
  intro incs t h0 h1 hi
  refine ⟨oscRun_bank_eq_fract h0 h1 hi, oscRun_length incs t, fun k hk => ?_⟩
  rw [oscRun_sample t hk, oscRun_bank_eq_fract h0 h1 fun inc hinc => hi inc (List.mem_of_mem_take hinc)]

end Sys2Proof.Machine
end

section
/-! PROOF. The ideal sine (40_oscillator.md R114): its symmetries and its sign in turns, from which every property listed there
follows. -/

namespace Sys2Proof.Machine

/-- Half a turn later the ideal sine is the negative (40_oscillator.md R114). -/
theorem sineIdeal_add_half (p : Num) : sineIdeal (p + 1 / 2) = -sineIdeal p := by
  rw [sineIdeal, sineIdeal, ← Real.sin_add_pi]
  push_cast
  ring_nf

/-- The ideal sine is symmetric about a quarter turn (40_oscillator.md R114). -/
theorem sineIdeal_half_sub (p : Num) : sineIdeal (1 / 2 - p) = sineIdeal p := by
  rw [sineIdeal, sineIdeal, ← Real.sin_pi_sub]
  push_cast
  ring_nf

theorem sineIdeal_zero : sineIdeal 0 = 0 := by simp [sineIdeal]

theorem sineIdeal_quarter : sineIdeal (1 / 4) = 1 := by
  rw [sineIdeal, ← Real.sin_pi_div_two]
  push_cast
  ring_nf

theorem sineIdeal_half : sineIdeal (1 / 2) = 0 := by
  rw [← zero_add (1 / 2 : Num), sineIdeal_add_half, sineIdeal_zero, neg_zero]

theorem sineIdeal_three_quarters : sineIdeal (3 / 4) = -1 := by
  rw [show (3 / 4 : Num) = 1 / 4 + 1 / 2 by norm_num, sineIdeal_add_half, sineIdeal_quarter]

theorem sineIdeal_pos {p : Num} (h0 : 0 < p) (h1 : p < 1 / 2) : 0 < sineIdeal p := by
  have hp0 : (0 : ℝ) < p := by exact_mod_cast h0
  have hp1 : (p : ℝ) < 1 / 2 := by simpa using (Rat.cast_lt (K := ℝ)).mpr h1
  have hpi := Real.pi_pos
  exact Real.sin_pos_of_pos_of_lt_pi (by positivity) (by nlinarith)

theorem sineIdeal_neg {p : Num} (h0 : 1 / 2 < p) (h1 : p < 1) : sineIdeal p < 0 := by
  have hpos : 0 < sineIdeal (p - 1 / 2) := sineIdeal_pos (by linarith) (by linarith)
  rw [← sub_add_cancel p (1 / 2), sineIdeal_add_half]
  exact neg_neg_of_pos hpos

/-- The ideal sine is sign-exact (40_oscillator.md R115). -/
theorem sineIdeal_signExact : SignExact sineIdeal := by
  intro p h0 h1
  constructor
  · exact fun hs => not_lt.mp fun hp => (sineIdeal_neg hp h1).not_ge hs
  · intro hp
    rcases h0.eq_or_lt with rfl | h0
    · exact sineIdeal_zero.ge
    · rcases hp.eq_or_lt with rfl | hp
      · exact sineIdeal_half.ge
      · exact (sineIdeal_pos h0 hp).le

/-- Settles O58: the two symmetries, the values at 0 and at a quarter turn, and the sign on the first half turn. -/
theorem idealSineProperties : Obligations.IdealSineProperties :=
  ⟨sineIdeal_zero, sineIdeal_half, fun _ => sineIdeal_pos, fun _ => sineIdeal_neg, sineIdeal_quarter, sineIdeal_three_quarters,
    fun p _ _ => sineIdeal_add_half p, fun p _ _ => sineIdeal_half_sub p, sineIdeal_signExact⟩

theorem sineIdeal_le_of_le_quarter {p q : Num} (h0 : 0 ≤ p) (hpq : p ≤ q) (hq : q ≤ 1 / 4) : sineIdeal p ≤ sineIdeal q := by
  have h0 : (0 : ℝ) ≤ p := by exact_mod_cast h0
  have hpq : (p : ℝ) ≤ q := by exact_mod_cast hpq
  have hq : (q : ℝ) ≤ 1 / 4 := by simpa using (Rat.cast_le (K := ℝ)).mpr hq
  have hpi := Real.pi_pos
  exact Real.sin_le_sin_of_le_of_le_pi_div_two (by nlinarith) (by nlinarith) (by nlinarith)

/-- Between `p` and its mirror phase `1/2 − p` the ideal sine is nowhere below its value at the two ends. -/
theorem sineIdeal_le_of_between {p q : Num} (h0 : 0 ≤ p) (hpq : p ≤ q) (hq : q ≤ 1 / 2 - p) : sineIdeal p ≤ sineIdeal q := by
  rcases le_total q (1 / 4) with h | h
  · exact sineIdeal_le_of_le_quarter h0 hpq h
  · rw [← sineIdeal_half_sub q]
    exact sineIdeal_le_of_le_quarter h0 (by linarith) (by linarith)

end Sys2Proof.Machine
end

section
/-! PROOF. The lookup sine (40_oscillator.md R115, R116): rounding half away from zero, the entries of a table by the symmetries of the
ideal sine, and the sign of a lookup by the entry it reads. -/

namespace Sys2Proof.Machine

/-! ### Rounding half away from zero -/

theorem IsRoundedHalfAway.abs_sub_le {n : Int} {x : ℝ} (h : IsRoundedHalfAway n x) : |(n : ℝ) - x| ≤ 1 / 2 :=
  h.elim le_of_lt fun h => h.1.le

theorem IsRoundedHalfAway.neg {n : Int} {x : ℝ} (h : IsRoundedHalfAway n x) : IsRoundedHalfAway (-n) (-x) := by
  have hdist : |((-n : Int) : ℝ) - -x| = |(n : ℝ) - x| := by rw [← abs_neg]; push_cast; ring_nf
  rw [IsRoundedHalfAway, hdist, Int.cast_neg, abs_neg, abs_neg]
  exact h

/-- A positive integer `k` is reached from `k − 1/2` on: this is where halves go away from zero. -/
theorem IsRoundedHalfAway.le_iff {n k : Int} {x : ℝ} (h : IsRoundedHalfAway n x) (hk : 0 < k) :
    k ≤ n ↔ (k : ℝ) - 1 / 2 ≤ x := by
  obtain ⟨hlo, hhi⟩ := abs_le.mp h.abs_sub_le
  constructor
  · intro hkn
    have hkn : (k : ℝ) ≤ n := by exact_mod_cast hkn
    linarith
  · intro hx
    by_contra hnk
    have hnk : (n : ℝ) + 1 ≤ k := by exact_mod_cast not_le.mp hnk
    have hk : (1 : ℝ) ≤ k := by exact_mod_cast hk
    have hn : (0 : ℝ) ≤ n := by linarith
    obtain rfl : x = n + 1 / 2 := by linarith
    rcases h with h | ⟨-, h⟩
    · linarith [(abs_lt.mp h).1]
    · rw [abs_of_nonneg hn, abs_of_nonneg (by linarith)] at h
      linarith

theorem IsRoundedHalfAway.le_of_same {n m : Int} {x : ℝ} (hn : IsRoundedHalfAway n x) (hm : IsRoundedHalfAway m x) : n ≤ m := by
  rcases lt_or_ge 0 n with hpos | hneg
  · exact (hm.le_iff hpos).mpr ((hn.le_iff hpos).mp le_rfl)
  · by_contra hlt
    have hle : -m ≤ -n := (hn.neg.le_iff (by omega)).mpr ((hm.neg.le_iff (by omega)).mp le_rfl)
    omega

/-- A real number has one rounding. -/
theorem IsRoundedHalfAway.unique {n m : Int} {x : ℝ} (hn : IsRoundedHalfAway n x) (hm : IsRoundedHalfAway m x) : n = m :=
  le_antisymm (hn.le_of_same hm) (hm.le_of_same hn)

theorem isRoundedHalfAway_intCast (n : Int) : IsRoundedHalfAway n (n : ℝ) := .inl (by norm_num)

theorem isRoundedHalfAway_of_between {n : Int} {x : ℝ} (hlo : (n : ℝ) - 1 / 2 < x) (hhi : x < (n : ℝ) + 1 / 2) :
    IsRoundedHalfAway n x :=
  .inl (abs_lt.mpr ⟨by linarith, by linarith⟩)

/-! ### The entries of a table -/

/-- The angle of entry `i` is the phase `i × 2^−AW` (40_oscillator.md R116). -/
theorem sin_tableAngle (aw i : Nat) : Real.sin (2 * Real.pi * i / 2 ^ aw) = sineIdeal ((i : Num) / 2 ^ aw) := by
  rw [sineIdeal, mul_div_assoc]
  push_cast
  rfl

theorem isSineTable_iff (aw sw : Nat) (table : List Int) : IsSineTable aw sw table ↔
    table.length = 2 ^ aw ∧
      ∀ i < 2 ^ aw, IsRoundedHalfAway (table.getD i 0) ((2 ^ (sw - 1) - 1) * sineIdeal ((i : Num) / 2 ^ aw)) := by
  simp only [IsSineTable, sin_tableAngle]

/-- A table of one entry has no entry 1, so entry 1 above 0 needs an address bit. -/
theorem IsSineTable.exists_width_eq_succ {aw sw : Nat} {table : List Int} (ht : IsSineTable aw sw table)
    (h1 : 0 < table.getD 1 0) : ∃ m, aw = m + 1 := by
  refine Nat.exists_eq_succ_of_ne_zero ?_
  rintro rfl
  rw [List.getD_eq_default _ _ (by rw [ht.1, pow_zero])] at h1
  exact h1.false

section Entries
variable {m sw : Nat} {table : List Int} (ht : IsSineTable (m + 1) sw table)
include ht

theorem IsSineTable.entry {i : Nat} (hi : i < 2 ^ (m + 1)) :
    IsRoundedHalfAway (table.getD i 0) ((2 ^ (sw - 1) - 1) * sineIdeal ((i : Num) / 2 ^ (m + 1))) :=
  ((isSineTable_iff ..).mp ht).2 i hi

theorem IsSineTable.entry_zero : table.getD 0 0 = 0 := by
  have h := ht.entry (Nat.two_pow_pos _)
  rw [Nat.cast_zero, zero_div, sineIdeal_zero, mul_zero] at h
  exact h.unique (by simpa using isRoundedHalfAway_intCast 0)

/-- The table is odd-symmetric (40_oscillator.md R116). -/
theorem IsSineTable.entry_add_half {i : Nat} (hi : i < 2 ^ m) : table.getD (i + 2 ^ m) 0 = -table.getD i 0 := by
  have hphase : ((i + 2 ^ m : Nat) : Num) / 2 ^ (m + 1) = (i : Num) / 2 ^ (m + 1) + 1 / 2 := by
    push_cast
    rw [pow_succ]
    field_simp
  have h := ht.entry (i := i + 2 ^ m) (by rw [pow_succ]; omega)
  rw [hphase, sineIdeal_add_half, mul_neg] at h
  exact h.unique (ht.entry (by rw [pow_succ]; omega)).neg

/-- An entry strictly inside the first half turn is at least entry 1 before rounding, so it is above 0 with it. -/
theorem IsSineTable.entry_pos (h1 : 0 < table.getD 1 0) {i : Nat} (h0 : 0 < i) (hi : i < 2 ^ m) : 0 < table.getD i 0 := by
  have hamp : (0 : ℝ) ≤ 2 ^ (sw - 1) - 1 := sub_nonneg.mpr (one_le_pow₀ one_le_two)
  have hlast : (i : Num) / 2 ^ (m + 1) ≤ 1 / 2 - ((1 : Nat) : Num) / 2 ^ (m + 1) := by
    have hi : (i : Num) + 1 ≤ 2 ^ m := by exact_mod_cast hi
    rw [le_sub_iff_add_le, ← add_div, div_le_div_iff₀ (by positivity) two_pos, pow_succ]
    push_cast
    linarith
  have hsine : sineIdeal (((1 : Nat) : Num) / 2 ^ (m + 1)) ≤ sineIdeal ((i : Num) / 2 ^ (m + 1)) :=
    sineIdeal_le_of_between (by positivity) (by gcongr; exact h0) hlast
  have hone := ((ht.entry (i := 1) (by rw [pow_succ]; omega)).le_iff one_pos).mp h1
  exact ((ht.entry (by rw [pow_succ]; omega)).le_iff one_pos).mpr (hone.trans (mul_le_mul_of_nonneg_left hsine hamp))

/-- The entries of the first half turn and the one at its end are at least 0, the later ones below 0 (40_oscillator.md R115). -/
theorem IsSineTable.entry_nonneg_iff (h1 : 0 < table.getD 1 0) {i : Nat} (hi : i < 2 ^ (m + 1)) :
    0 ≤ table.getD i 0 ↔ i ≤ 2 ^ m := by
  rcases lt_or_ge i (2 ^ m) with hlt | hge
  · refine iff_of_true ?_ hlt.le
    rcases i.eq_zero_or_pos with rfl | h0
    · exact ht.entry_zero.ge
    · exact (ht.entry_pos h1 h0 hlt).le
  · obtain ⟨j, rfl⟩ := Nat.exists_eq_add_of_le' hge
    have hj : j < 2 ^ m := by rw [pow_succ] at hi; omega
    rw [ht.entry_add_half hj]
    rcases j.eq_zero_or_pos with rfl | h0
    · exact iff_of_true (by rw [ht.entry_zero, neg_zero]) (zero_add _).le
    · have hpos := ht.entry_pos h1 h0 hj
      exact iff_of_false (by omega) (by omega)

end Entries

/-! ### The entry that a phase reads -/

theorem lutSine_of_index {aw k : Nat} {table : List Int} {p : Num} (h0 : (k : Num) ≤ p * 2 ^ aw) (h1 : p * 2 ^ aw < k + 1) :
    lutSine aw table p = table.getD k 0 := by
  have hfloor : ⌊p * 2 ^ aw⌋ = (k : Int) := Int.floor_eq_iff.mpr ⟨by exact_mod_cast h0, by exact_mod_cast h1⟩
  rw [lutSine, hfloor, Int.toNat_natCast]

theorem exists_index (aw : Nat) {p : Num} (h0 : 0 ≤ p) (h1 : p < 1) :
    ∃ k : Nat, k < 2 ^ aw ∧ (k : Num) ≤ p * 2 ^ aw ∧ p * 2 ^ aw < k + 1 := by
  have hscaled : 0 ≤ p * 2 ^ aw := by positivity
  refine ⟨⌊p * 2 ^ aw⌋₊, (Nat.floor_lt hscaled).mpr ?_, Nat.floor_le hscaled, Nat.lt_floor_add_one _⟩
  push_cast
  exact mul_lt_of_lt_one_left (by positivity) h1

/-- The two bounds of 40_oscillator.md R115, 1/2 and one table step above it, in table steps. -/
theorem half_scaled (m : Nat) : (1 / 2 : Num) * 2 ^ (m + 1) = 2 ^ m := by
  rw [pow_succ]
  ring

theorem half_add_step_scaled (m : Nat) : (1 / 2 + 1 / 2 ^ (m + 1) : Num) * 2 ^ (m + 1) = 2 ^ m + 1 := by
  rw [add_mul, half_scaled, div_mul_cancel₀ _ (by positivity)]

theorem lt_half_add_step_iff (m : Nat) (p : Num) : p < 1 / 2 + 1 / 2 ^ (m + 1) ↔ p * 2 ^ (m + 1) < 2 ^ m + 1 := by
  rw [← half_add_step_scaled, mul_lt_mul_iff_left₀ (by positivity)]

theorem half_lt_iff (m : Nat) (p : Num) : 1 / 2 < p ↔ 2 ^ m < p * 2 ^ (m + 1) := by
  rw [← half_scaled, mul_lt_mul_iff_left₀ (by positivity)]

section Lookup
variable {m sw : Nat} {table : List Int} (ht : IsSineTable (m + 1) sw table)
include ht

theorem lutSine_nonneg_iff (h1 : 0 < table.getD 1 0) {p : Num} (hp0 : 0 ≤ p) (hp1 : p < 1) :
    0 ≤ lutSine (m + 1) table p ↔ p < 1 / 2 + 1 / 2 ^ (m + 1) := by
  obtain ⟨k, hk, hlo, hhi⟩ := exists_index (m + 1) hp0 hp1
  rw [lutSine_of_index hlo hhi, ht.entry_nonneg_iff h1 hk, lt_half_add_step_iff]
  constructor
  · intro h
    have h : (k : Num) ≤ 2 ^ m := by exact_mod_cast h
    linarith
  · intro h
    have h : (k : Num) < 2 ^ m + 1 := hlo.trans_lt h
    exact Nat.lt_succ_iff.mp (by exact_mod_cast h)

theorem lutSine_add_half {p : Num} (hp0 : 0 ≤ p) (hp1 : p < 1 / 2) :
    lutSine (m + 1) table (p + 1 / 2) = -lutSine (m + 1) table p := by
  obtain ⟨k, -, hlo, hhi⟩ := exists_index (m + 1) hp0 (by linarith)
  have hk : k < 2 ^ m := by
    have hp : p * 2 ^ (m + 1) < 2 ^ m := by rwa [← half_scaled m, mul_lt_mul_iff_left₀ (by positivity)]
    exact_mod_cast hlo.trans_lt hp
  have hshift : (p + 1 / 2) * 2 ^ (m + 1) = p * 2 ^ (m + 1) + 2 ^ m := by rw [add_mul, half_scaled]
  rw [lutSine_of_index hlo hhi, ← ht.entry_add_half hk]
  exact lutSine_of_index (by rw [hshift]; push_cast; linarith) (by rw [hshift]; push_cast; linarith)

/-- Between 1/2 and the next table step the lookup reads the entry of 1/2, which is 0 (40_oscillator.md R115). -/
theorem lutSine_eq_zero {p : Num} (hp0 : 1 / 2 < p) (hp1 : p < 1 / 2 + 1 / 2 ^ (m + 1)) : lutSine (m + 1) table p = 0 := by
  have hlo : ((0 + 2 ^ m : Nat) : Num) ≤ p * 2 ^ (m + 1) := by
    push_cast
    linarith [(half_lt_iff m p).mp hp0]
  have hhi : p * 2 ^ (m + 1) < ((0 + 2 ^ m : Nat) : Num) + 1 := by
    push_cast
    linarith [(lt_half_add_step_iff m p).mp hp1]
  rw [lutSine_of_index hlo hhi, ht.entry_add_half (Nat.two_pow_pos m), ht.entry_zero, neg_zero]

/-- Away from the one table step above 1/2 the lookup has the sign of the ideal sine (40_oscillator.md R115). -/
theorem lutSine_nonneg_iff_sineIdeal (h1 : 0 < table.getD 1 0) {p : Num} (hp0 : 0 ≤ p) (hp1 : p < 1)
    (hp : p ≤ 1 / 2 ∨ 1 / 2 + 1 / 2 ^ (m + 1) ≤ p) : 0 ≤ lutSine (m + 1) table p ↔ 0 ≤ sineIdeal p := by
  have hstep : (0 : Num) < 1 / 2 ^ (m + 1) := by positivity
  rw [lutSine_nonneg_iff ht h1 hp0 hp1, sineIdeal_signExact p hp0 hp1]
  rcases hp with hp | hp
  · exact iff_of_true (by linarith) hp
  · exact iff_of_false hp.not_gt (by linarith)

end Lookup

/-- A multiple of the table step is not strictly between 1/2 and the next one. -/
theorem multiple_le_half_or_ge (m n : Nat) :
    (n : Num) / 2 ^ (m + 1) ≤ 1 / 2 ∨ 1 / 2 + 1 / 2 ^ (m + 1) ≤ (n : Num) / 2 ^ (m + 1) := by
  rcases le_or_gt n (2 ^ m) with h | h
  · have h : (n : Num) ≤ 2 ^ m := by exact_mod_cast h
    exact .inl (by rwa [div_le_iff₀ (by positivity), half_scaled])
  · have h : (2 : Num) ^ m + 1 ≤ n := by exact_mod_cast h
    exact .inr (by rwa [le_div_iff₀ (by positivity), half_add_step_scaled])

/-- A sixteenth of a turn has a sine of at least 1/4, so three bits round it above 0 (40_oscillator.md R115). -/
theorem IsSineTable.entry_one_pos {sw : Nat} {table : List Int} (hsw : 3 ≤ sw) (ht : IsSineTable 4 sw table) :
    0 < table.getD 1 0 := by
  have hamp : (3 : ℝ) ≤ 2 ^ (sw - 1) - 1 := by
    have : (2 : ℝ) ^ 2 ≤ 2 ^ (sw - 1) := pow_le_pow_right₀ one_le_two (by omega)
    linarith
  have hsine : 1 / 4 ≤ sineIdeal (((1 : Nat) : Num) / 2 ^ 4) := by
    have hpi := Real.pi_pos
    have h := Real.mul_le_sin (x := 2 * Real.pi * (1 / 16)) (by positivity) (by linarith)
    calc (1 / 4 : ℝ) = 2 / Real.pi * (2 * Real.pi * (1 / 16)) := by field_simp; norm_num
      _ ≤ Real.sin (2 * Real.pi * (1 / 16)) := h
      _ = sineIdeal (((1 : Nat) : Num) / 2 ^ 4) := by rw [sineIdeal]; norm_num
  refine ((ht.entry (m := 3) (by norm_num)).le_iff one_pos).mpr ?_
  push_cast
  nlinarith

/-- Settles O20: the sign and the symmetry of the entry read, and the sign of the ideal sine at the same phase. -/
theorem lookupSineSign : Obligations.LookupSineSign := by
  refine ⟨fun aw sw table ht h1 => ?_, fun sw table => IsSineTable.entry_one_pos⟩
  obtain ⟨m, rfl⟩ := ht.exists_width_eq_succ h1
  have hstep : (1 : Num) / 2 ^ (m + 1) ≤ 1 / 2 := by
    gcongr
    exact le_self_pow₀ one_le_two m.succ_ne_zero
  refine ⟨fun p => lutSine_nonneg_iff ht h1, fun p => lutSine_add_half ht, fun p => lutSine_nonneg_iff_sineIdeal ht h1,
    fun p hp0 hp1 => ⟨lutSine_eq_zero ht hp0 hp1, sineIdeal_neg hp0 (by linarith)⟩, fun n hn => ?_⟩
  have hlt : (n : Num) / 2 ^ (m + 1) < 1 := by
    rw [div_lt_one (by positivity)]
    exact_mod_cast hn
  exact lutSine_nonneg_iff_sineIdeal ht h1 (by positivity) hlt (multiple_le_half_or_ge m n)

/-! ### The default table -/

theorem sineIdeal_one_sixteenth : sineIdeal (1 / 16) = √(2 - √2) / 2 := by
  rw [sineIdeal, ← Real.sin_pi_div_eight]
  push_cast
  ring_nf

theorem sineIdeal_one_eighth : sineIdeal (1 / 8) = √2 / 2 := by
  rw [sineIdeal, ← Real.sin_pi_div_four]
  push_cast
  ring_nf

theorem sineIdeal_three_sixteenths : sineIdeal (3 / 16) = √(2 + √2) / 2 := by
  rw [sineIdeal, ← Real.cos_pi_div_eight, ← Real.sin_pi_div_two_sub]
  push_cast
  ring_nf

theorem sqrt_two_bounds : 1.414 < √2 ∧ √2 < 1.415 :=
  ⟨Real.lt_sqrt_of_sq_lt (by norm_num), (Real.sqrt_lt' (by norm_num)).mpr (by norm_num)⟩

/-- The first quarter turn of the table, from bounds on the square roots that its sines are. -/
theorem sineTable16_rounded_quarter {i : Nat} (hi : i ≤ 4) :
    IsRoundedHalfAway (sineTable16.getD i 0) (127 * sineIdeal ((i : Num) / 16)) := by
  obtain ⟨hlo, hhi⟩ := sqrt_two_bounds
  have hlo1 : 0.764 < √(2 - √2) := Real.lt_sqrt_of_sq_lt (by linarith)
  have hhi1 : √(2 - √2) < 0.779 := (Real.sqrt_lt' (by norm_num)).mpr (by linarith)
  have hlo3 : 1.84 < √(2 + √2) := Real.lt_sqrt_of_sq_lt (by linarith)
  have hhi3 : √(2 + √2) < 1.85 := (Real.sqrt_lt' (by norm_num)).mpr (by linarith)
  interval_cases i
  · rw [show ((0 : Nat) : Num) / 16 = 0 by norm_num, sineIdeal_zero]
    exact isRoundedHalfAway_of_between (by norm_num [sineTable16]) (by norm_num [sineTable16])
  · rw [show ((1 : Nat) : Num) / 16 = 1 / 16 by norm_num, sineIdeal_one_sixteenth]
    exact isRoundedHalfAway_of_between (n := 49) (by norm_num; linarith) (by norm_num; linarith)
  · rw [show ((2 : Nat) : Num) / 16 = 1 / 8 by norm_num, sineIdeal_one_eighth]
    exact isRoundedHalfAway_of_between (n := 90) (by norm_num; linarith) (by norm_num; linarith)
  · rw [show ((3 : Nat) : Num) / 16 = 3 / 16 by norm_num, sineIdeal_three_sixteenths]
    exact isRoundedHalfAway_of_between (n := 117) (by norm_num; linarith) (by norm_num; linarith)
  · rw [show ((4 : Nat) : Num) / 16 = 1 / 4 by norm_num, sineIdeal_quarter]
    exact isRoundedHalfAway_of_between (n := 127) (by norm_num) (by norm_num)

/-- The first half turn of the table is its first quarter and the quarter's mirror image. -/
theorem sineTable16_rounded_half {i : Nat} (hi : i ≤ 8) :
    IsRoundedHalfAway (sineTable16.getD i 0) (127 * sineIdeal ((i : Num) / 16)) := by
  rcases le_total i 4 with h | h
  · exact sineTable16_rounded_quarter h
  · have hmirror : ∀ j ≤ 8, sineTable16.getD (8 - j) 0 = sineTable16.getD j 0 := by decide
    have hphase : ((8 - i : Nat) : Num) / 16 = 1 / 2 - (i : Num) / 16 := by
      rw [Nat.cast_sub hi]
      push_cast
      ring
    rw [← hmirror i hi, ← sineIdeal_half_sub, ← hphase]
    exact sineTable16_rounded_quarter (by omega)

theorem sineTable16_rounded {i : Nat} (hi : i < 16) :
    IsRoundedHalfAway (sineTable16.getD i 0) (127 * sineIdeal ((i : Num) / 16)) := by
  rcases lt_or_ge i 8 with h | h
  · exact sineTable16_rounded_half h.le
  · obtain ⟨j, rfl⟩ := Nat.exists_eq_add_of_le' h
    have hodd : ∀ j < 8, sineTable16.getD (j + 8) 0 = -sineTable16.getD j 0 := by decide
    have hphase : ((j + 8 : Nat) : Num) / 16 = (j : Num) / 16 + 1 / 2 := by
      push_cast
      ring
    rw [hodd j (by omega), hphase, sineIdeal_add_half, mul_neg]
    exact (sineTable16_rounded_half (by omega)).neg

/-- Settles O21: the first quarter turn by bounds, the rest by the symmetries of the table and of the sine. -/
theorem lookupTableIsRoundedSine : Obligations.LookupTableIsRoundedSine := by
  refine (isSineTable_iff 4 8 sineTable16).mpr ⟨rfl, fun i hi => ?_⟩
  rw [show (2 : ℝ) ^ (8 - 1) - 1 = 127 by norm_num, show (2 : Num) ^ 4 = 16 by norm_num]
  exact sineTable16_rounded hi

end Sys2Proof.Machine
end

section
/-! PROOF. The Symbol Framer and the Transmit Scheduler at the unit port (41_framer_scheduler.md): the symbols of a message, position by
position (R121 to R123), and what TX_SCHEDULE, SCHED_POP, FRAMER_NEXT and FRAMER_SYM do (R124 to R127). -/

namespace Sys2Proof.Machine

/-! ### The symbols of a message -/

/-- The bit symbols come in groups of ten, one group for each byte (41_framer_scheduler.md R121). -/
theorem symKind_succ_of_lt {m : Message} {k : Nat} (h : k < 10 * m.bytes.length) : symKind m (k + 1) =
    if k % 10 = 0 then .start (k / 10) else if k % 10 = 9 then .stop (k / 10) else .data (k / 10) (k % 10 - 1) := by
  rw [symKind, if_neg (by omega), if_neg (by omega), if_neg (by unfold donePos; omega), Nat.add_sub_cancel]

theorem symKind_start {m : Message} {i : Nat} (hi : i < m.bytes.length) : symKind m (1 + 10 * i) = .start i := by
  rw [Nat.add_comm, symKind_succ_of_lt (by omega), if_pos (by omega), show 10 * i / 10 = i by omega]

theorem symKind_stop {m : Message} {i : Nat} (hi : i < m.bytes.length) : symKind m (10 + 10 * i) = .stop i := by
  rw [show 10 + 10 * i = (9 + 10 * i) + 1 by omega, symKind_succ_of_lt (by omega), if_neg (by omega), if_pos (by omega),
    show (9 + 10 * i) / 10 = i by omega]

theorem symKind_data {m : Message} {i j : Nat} (hi : i < m.bytes.length) (hj : j < 8) :
    symKind m (2 + 10 * i + j) = .data i j := by
  rw [show 2 + 10 * i + j = (1 + 10 * i + j) + 1 by omega, symKind_succ_of_lt (by omega), if_neg (by omega),
    if_neg (by omega), show (1 + 10 * i + j) / 10 = i by omega, show (1 + 10 * i + j) % 10 - 1 = j by omega]

theorem symKind_tail (m : Message) : symKind m (1 + 10 * m.bytes.length) = .tail := by
  rw [symKind, if_neg (by omega), if_pos rfl]

/-- A data bit's tone is the bit itself (41_framer_scheduler.md R122). -/
theorem symTone_data {m : Message} {k i j : Nat} (h : symKind m k = .data i j) :
    symTone m k = some ((m.bytes.getD i 0).getLsbD j) := by
  simp only [symTone, h, payloadBit, byteBit_eq]
  rfl

/-- Settles O22: the kind of every position, from which its tone and length are read off. -/
theorem symbolSequence : Obligations.SymbolSequence := by
  intro c m
  refine ⟨⟨rfl, rfl, rfl⟩, fun i hi => ?_, ?_, (symKind_eq_done_iff m _).mpr le_rfl⟩
  · have hstart := symKind_start hi
    have hstop := symKind_stop hi
    refine ⟨hstart, ?_, ?_, hstop, ?_, ?_, fun j hj => ?_⟩
    · simp only [symTone, hstart]
    · simp only [symDur, hstart]
    · simp only [symTone, hstop]
    · simp only [symDur, hstop]
    · have hdata := symKind_data hi hj
      exact ⟨hdata, symTone_data hdata, by simp only [symDur, hdata]⟩
  · have htail := symKind_tail m
    exact ⟨htail, by simp only [symTone, htail], by simp only [symDur, htail]⟩

/-! ### TX_SCHEDULE -/

/-- A unit-level operation is refused where its own work would be, or before CONFIGURE (47_system_ops.md R213). -/
theorem whenConfigured_eq_refuse {s : State} {run : Host.Outcome State Fault Refusal}
    (h : s.configured = true → run = refuse s) : whenConfigured s run = refuse s := by
  cases hc : s.configured with
  | true => rw [whenConfigured_true hc, h hc]
  | false => exact whenConfigured_false hc run

theorem exec_txSchedule_of_room {s : State} {id : MsgId} {bytes : List Byte} (hc : s.configured = true)
    (room : queueFull s.build s.tx = false) (fits : payloadTooLong s.build bytes = false) :
    exec (.txSchedule id bytes) s = .next { s with
      tx := { s.tx with txFifo := s.tx.txFifo ++ [{ id := id, bytes := bytes }] }
      resp := some .ok } :=
  (whenConfigured_true hc _).trans (if_neg (by simp [room, fits]))

/-- A full queue and a payload longer than the store are refused (20_memory.md R62, 93_implementation_defined.md U7). -/
theorem exec_txSchedule_refused {s : State} (id : MsgId) {bytes : List Byte}
    (h : s.configured = true → queueFull s.build s.tx = true ∨ payloadTooLong s.build bytes = true) :
    exec (.txSchedule id bytes) s = .next { s with resp := some .refused } :=
  whenConfigured_eq_refuse fun hc => if_pos ((Bool.or_eq_true _ _).mpr (h hc))

theorem queueFull_eq_true_iff (b : Build) (t : TxBank) :
    queueFull b t = true ↔ ∃ d, b.txqDepth = some d ∧ d ≤ t.txFifo.length := by
  unfold queueFull
  cases b.txqDepth <;> simp

theorem payloadTooLong_eq_true_iff (b : Build) (bytes : List Byte) :
    payloadTooLong b bytes = true ↔ ∃ d, b.txMaxLen = some d ∧ d < bytes.length := by
  unfold payloadTooLong
  cases b.txMaxLen <;> simp

/-- Settles O23: room and fit are the two capacity checks. -/
theorem txScheduleAppends : Obligations.TxScheduleAppends := by
  intro s id bytes
  refine ⟨fun hc room fits => exec_txSchedule_of_room hc ((queueFull_eq_false_iff _ _).mpr room)
    ((payloadTooLong_eq_false_iff _ _).mpr fits), fun h => exec_txSchedule_refused id fun hc => ?_⟩
  rcases h with hn | hfull | hlong
  · exact absurd (hc.symm.trans hn) (by decide)
  · exact .inl ((queueFull_eq_true_iff _ _).mpr hfull)
  · exact .inr ((payloadTooLong_eq_true_iff _ _).mpr hlong)

/-! ### SCHED_POP -/

theorem exec_schedPop_of_head {s : State} {m : Message} {q : List Message} (hc : s.configured = true)
    (ha : s.tx.txActive = none) (hq : s.tx.txFifo = m :: q) :
    exec .schedPop s = .next { s with tx := activate s.params m q s.tx, resp := some .ok } := by
  simp only [exec, execSchedPop, whenConfigured_true hc, ha, hq]
  rfl

/-- SCHED_POP is refused while a message is active and with an empty queue (41_framer_scheduler.md R127). -/
theorem exec_schedPop_refused {s : State} (h : s.configured = true → s.tx.txActive ≠ none ∨ s.tx.txFifo = []) :
    exec .schedPop s = .next { s with resp := some .refused } := by
  refine whenConfigured_eq_refuse fun hc => ?_
  cases ha : s.tx.txActive with
  | some m => rfl
  | none =>
    have hq : s.tx.txFifo = [] := (h hc).resolve_left fun hn => hn ha
    rw [hq]

/-- Settles O24: the bank with the head of the queue active is that of `activate`. -/
theorem schedPopActivatesHead : Obligations.SchedPopActivatesHead := by
  intro s
  exact ⟨fun m q => exec_schedPop_of_head, fun h => exec_schedPop_refused fun hc => h.resolve_left (by simp [hc])⟩

/-! ### FRAMER_NEXT -/

theorem exec_framerNext_of_lt {s : State} {m : Message} (hc : s.configured = true) (ha : s.tx.txActive = some m)
    (hp : s.tx.txPos < donePos m) :
    exec .framerNext s = .next { s with tx := framerNext s.params m s.tx, resp := some .ok } := by
  simp only [exec, execFramerNext, whenConfigured_true hc, ha, if_neg (not_le.mpr hp)]
  rfl

/-- FRAMER_NEXT is refused with no active message and at DONE (41_framer_scheduler.md R124). -/
theorem exec_framerNext_refused {s : State}
    (h : s.configured = true → ∀ m, s.tx.txActive = some m → donePos m ≤ s.tx.txPos) :
    exec .framerNext s = .next { s with resp := some .refused } := by
  refine whenConfigured_eq_refuse fun hc => ?_
  cases ha : s.tx.txActive with
  | none => rfl
  | some m => exact if_pos (h hc m ha)

/-- FRAMER_NEXT said once: the next position, and the length of its symbol added to the boundary (41_framer_scheduler.md R123,
R124). -/
theorem framerNext_eq (c : ParamRegs) (m : Message) (t : TxBank) : framerNext c m t = { t with
    txPos := t.txPos + 1
    txBoundary := t.txBoundary + if t.txPos < 10 * m.bytes.length then c.symLen
      else if t.txPos = 10 * m.bytes.length then c.tailLen else 0 } := by
  rw [← symDur_succ]
  unfold framerNext
  cases symDur c m (t.txPos + 1) <;> simp

/-- Settles O25: the length added, by the position that is left. -/
theorem framerNextMovesOn : Obligations.FramerNextMovesOn := by
  intro s
  refine ⟨fun m hc ha hp => ?_, fun m hc ha hp => ?_, fun m hc ha hp => ?_,
    fun h => exec_framerNext_refused fun hc m hm => ?_⟩
  · rw [exec_framerNext_of_lt hc ha (by unfold donePos; omega), framerNext_eq, if_pos hp]
  · rw [exec_framerNext_of_lt hc ha (by unfold donePos; omega), framerNext_eq, if_neg (by omega), if_pos hp]
  · rw [exec_framerNext_of_lt hc ha (by unfold donePos; omega), framerNext_eq, if_neg (by omega), if_neg (by omega), add_zero]
  · rcases h with hn | hnone | ⟨m', hm', hdone⟩
    · exact absurd (hc.symm.trans hn) (by decide)
    · exact absurd (hm.symm.trans hnone) (by simp)
    · obtain rfl := Option.some.inj (hm.symm.trans hm')
      exact hdone.ge

/-! ### FRAMER_SYM -/

theorem exec_framerSym_of_active {s : State} {m : Message} (hc : s.configured = true) (ha : s.tx.txActive = some m) :
    exec .framerSym s = .next { s with
      resp := some (.symbol (symKind m s.tx.txPos) (symTone m s.tx.txPos) (symDur s.params m s.tx.txPos)) } := by
  simp only [exec, execFramerSym, whenConfigured_true hc, ha]
  rfl

theorem exec_framerSym_refused {s : State} (h : s.configured = true → s.tx.txActive = none) :
    exec .framerSym s = .next { s with resp := some .refused } :=
  whenConfigured_eq_refuse fun hc => by rw [h hc]

/-- Settles O26: before DONE a symbol has a tone and a length, and DONE has neither. -/
theorem framerSymReads : Obligations.FramerSymReads := by
  intro s
  refine ⟨fun m hc ha hp => ?_, fun m hc ha hp => ?_,
    fun h => exec_framerSym_refused fun hc => h.resolve_left (by simp [hc])⟩
  · obtain ⟨tone, htone⟩ := Option.isSome_iff_exists.mp ((symTone_isSome_iff m _).mpr hp)
    obtain ⟨len, hlen⟩ := Option.isSome_iff_exists.mp ((symDur_isSome_iff s.params m _).mpr hp)
    refine ⟨_, tone, len, rfl, htone, hlen, ?_⟩
    rw [exec_framerSym_of_active hc ha, htone, hlen]
  · have hdone : symKind m s.tx.txPos = .done := (symKind_eq_done_iff m _).mpr hp.ge
    rw [exec_framerSym_of_active hc ha, symTone, symDur, hdone]

end Sys2Proof.Machine
end

section
/-! PROOF. The messages on the transmit path: the completions an operation reports and the ids it leaves pending (41_framer_scheduler.md
R130, 47_system_ops.md R216), and the number of samples a message takes (R128, R131). -/

namespace Sys2Proof.Machine

/-! ### The receive path completes nothing -/

/-- The ids that a list of events reports complete, in order. -/
def completions (events : List Event) : List MsgId := events.filterMap Event.completedId

@[simp] theorem completions_nil : completions [] = [] := rfl

@[simp] theorem completions_append (a b : List Event) : completions (a ++ b) = completions a ++ completions b :=
  List.filterMap_append

@[simp] theorem completions_flushMessage (now : Time) (r : RxBank) : completions (flushMessage now r).1 = [] := by
  rcases flushMessage_cases now r with ⟨-, e⟩ | ⟨-, e⟩ <;> rw [e] <;> rfl

@[simp] theorem completions_deframeFail (now : Time) (r : RxBank) : completions (deframeFail now r).1 = [] :=
  completions_flushMessage now r

@[simp] theorem completions_deframeFlush (now : Time) (r : RxBank) : completions (deframeFlush now r).1 = [] :=
  completions_flushMessage now r

@[simp] theorem completions_deframeBit (b : Bit) (now : Time) (r : RxBank) : completions (deframeBit b now r).1 = [] := by
  rcases deframeBit_cases b now r with ⟨-, e⟩ | ⟨-, -, e⟩ | ⟨-, -, e⟩ <;> rw [e]
  · rfl
  · rfl
  · exact completions_flushMessage now _

@[simp] theorem completions_rxTick (c : ParamRegs) (x : Sample) (now : Time) (r : RxBank) :
    completions (rxTick c x now r).1 = [] := by
  rcases rxTick_cases c x now r with ⟨b, -, e⟩ | ⟨-, e⟩ | ⟨-, e⟩ <;> rw [e]
  · exact completions_deframeBit b now _
  · exact completions_deframeFail now _
  · rfl

@[simp] theorem completions_rxBlock (c : ParamRegs) (pairs : List (Sample × Time)) (r : RxBank) :
    completions (rxBlock c pairs r).1 = [] := by
  induction pairs generalizing r with
  | nil => rfl
  | cons p rest ih => rw [rxBlock, completions_append, completions_rxTick, ih, List.append_nil]

/-! ### Ids through the transmit units -/

theorem pendingIds_of_none {t : TxBank} (h : t.txActive = none) : pendingIds t = t.txFifo.map Message.id := by
  simp only [pendingIds, h, Option.toList_none, List.nil_append]

/-- A message that SCHED_POP activates stays pending, at the head (41_framer_scheduler.md R127). -/
theorem pendingIds_activate {c : ParamRegs} {m : Message} {q : List Message} {t : TxBank} (ha : t.txActive = none)
    (hq : t.txFifo = m :: q) : pendingIds (activate c m q t) = pendingIds t := by
  rw [pendingIds_of_none ha, hq]
  rfl

@[simp] theorem pendingIds_framerNext (c : ParamRegs) (m : Message) (t : TxBank) :
    pendingIds (framerNext c m t) = pendingIds t := by
  simp only [pendingIds, framerNext_txActive, framerNext_txFifo]

/-- A scheduled message becomes the last pending one (41_framer_scheduler.md R126). -/
theorem pendingIds_schedule (t : TxBank) (m : Message) :
    pendingIds { t with txFifo := t.txFifo ++ [m] } = pendingIds t ++ [m.id] := by
  simp [pendingIds]

/-- A tick reports complete exactly the messages that leave (41_framer_scheduler.md R130). -/
theorem txTick_conserves (c : ParamRegs) (t : TxBank) :
    completions (txTick c t).events ++ pendingIds (txTick c t).bank = pendingIds t := by
  obtain ⟨-, -, -, hids, -⟩ := bringUp_spec c t
  rcases txTick_cases c t with ⟨-, -, e⟩ | ⟨m, tone, -, -, -, -, e⟩ <;> rw [e] <;> exact hids

theorem txBlock_conserves (c : ParamRegs) (n : Nat) (t : TxBank) :
    completions (txBlock c n t).events ++ pendingIds (txBlock c n t).bank = pendingIds t := by
  induction n generalizing t with
  | zero => rfl
  | succ n ih =>
    calc completions (txBlock c (n + 1) t).events ++ pendingIds (txBlock c (n + 1) t).bank
        = completions (txTick c t).events ++ (completions (txBlock c n (txTick c t).bank).events ++
            pendingIds (txBlock c n (txTick c t).bank).bank) := by simp only [txBlock, completions_append, List.append_assoc]
      _ = completions (txTick c t).events ++ pendingIds (txTick c t).bank := by rw [ih]
      _ = pendingIds t := txTick_conserves c t

/-! ### Ids through every operation -/

/-- A next state reports complete and leaves pending the ids that were pending in `s`, then `added`; O29 asks nothing of another outcome. -/
def Conserves (s : State) (added : List MsgId) : Host.Outcome State Fault Refusal → Prop
  | .next t => completions t.lastEvents ++ pendingIds t.tx = pendingIds s.tx ++ added
  | .fault _ => True
  | .refused _ => True

theorem conserves_answer {s u : State} {a : Response}
    (h : completions a.eventList ++ pendingIds u.tx = pendingIds s.tx) : Conserves s [] (answer a u) :=
  h.trans (List.append_nil _).symm

/-- An answer without completions that leaves the transmit bank alone. -/
theorem conserves_answer_of_tx_eq {s u : State} {a : Response} (ha : completions a.eventList = []) (hu : u.tx = s.tx) :
    Conserves s [] (answer a u) :=
  conserves_answer (by rw [ha, hu, List.nil_append])

theorem conserves_refuse (s : State) : Conserves s [] (refuse s) :=
  conserves_answer_of_tx_eq (a := .refused) rfl rfl

theorem conserves_ite {s : State} {added : List MsgId} {p : Prop} [Decidable p] {x y : Host.Outcome State Fault Refusal}
    (hx : Conserves s added x) (hy : Conserves s added y) : Conserves s added (if p then x else y) := by
  split
  · exact hx
  · exact hy

theorem conserves_whenConfigured {s : State} {run : Host.Outcome State Fault Refusal} (h : Conserves s [] run) :
    Conserves s [] (whenConfigured s run) :=
  conserves_ite h (conserves_refuse s)

theorem receive_conserves {i : Instr} (hi : i.isReceive = true) (s : State) : Conserves s [] (exec i s) := by
  cases i with
  | rxTick sample now =>
    refine conserves_ite ?_ (conserves_answer_of_tx_eq rfl rfl)
    cases sample with
    | nonNumeric => exact conserves_refuse s
    | num x => exact conserves_ite (conserves_refuse s) (conserves_answer_of_tx_eq (completions_rxTick ..) rfl)
  | rxBlock pairs =>
    refine conserves_ite ?_ (conserves_answer_of_tx_eq rfl rfl)
    cases numericPairs pairs with
    | none => exact conserves_refuse s
    | some ps => exact conserves_ite (conserves_refuse s) (conserves_answer_of_tx_eq (completions_rxBlock ..) rfl)
  | discStep sample =>
    refine conserves_whenConfigured ?_
    cases sample with
    | nonNumeric => exact conserves_refuse s
    | num x => exact conserves_answer_of_tx_eq rfl rfl
  | btrStep raw => exact conserves_whenConfigured (conserves_answer_of_tx_eq rfl rfl)
  | deframeBit b now =>
    exact conserves_whenConfigured
      (conserves_ite (conserves_refuse s) (conserves_answer_of_tx_eq (completions_deframeBit ..) rfl))
  | deframeFail now => exact conserves_whenConfigured (conserves_answer_of_tx_eq (completions_deframeFail ..) rfl)
  | deframeFlush now => exact conserves_whenConfigured (conserves_answer_of_tx_eq (completions_deframeFlush ..) rfl)
  | reset | configure | txSchedule | txTick | txBlock | oscStep | toneSel | schedPop | framerNext | framerSym => cases hi

/-- TX_SCHEDULE adds its message's id where it is accepted, and is refused elsewhere (41_framer_scheduler.md R126). -/
theorem txSchedule_conserves (id : MsgId) (bytes : List Byte) (s : State) :
    Conserves s [] (exec (.txSchedule id bytes) s) ∨ Conserves s [id] (exec (.txSchedule id bytes) s) := by
  by_cases h : s.configured = true → queueFull s.build s.tx = true ∨ payloadTooLong s.build bytes = true
  · left
    rw [exec_txSchedule_refused id h]
    exact conserves_refuse s
  · right
    obtain ⟨hc, hfree⟩ := Classical.not_imp.mp h
    obtain ⟨room, fits⟩ := not_or.mp hfree
    rw [exec_txSchedule_of_room hc (Bool.eq_false_iff.mpr room) (Bool.eq_false_iff.mpr fits)]
    exact pendingIds_schedule s.tx _

theorem transmit_conserves {i : Instr} (hi : i.isTransmit = true) (s : State) :
    Conserves s [] (exec i s) ∨ ∃ id bytes, i = .txSchedule id bytes ∧ Conserves s [id] (exec i s) := by
  cases i with
  | txSchedule id bytes => exact (txSchedule_conserves id bytes s).imp_right fun h => ⟨id, bytes, rfl, h⟩
  | txTick =>
    exact .inl (conserves_ite (conserves_answer (txTick_conserves ..)) (conserves_answer_of_tx_eq rfl rfl))
  | txBlock n =>
    exact .inl (conserves_ite (conserves_answer (txBlock_conserves ..)) (conserves_answer_of_tx_eq rfl rfl))
  | oscStep inc =>
    exact .inl (conserves_whenConfigured (conserves_ite (conserves_answer rfl) (conserves_refuse s)))
  | toneSel tone => exact .inl (conserves_whenConfigured (conserves_answer_of_tx_eq rfl rfl))
  | schedPop =>
    refine .inl (conserves_whenConfigured ?_)
    split
    · rename_i ha hq
      exact conserves_answer (pendingIds_activate ha hq)
    · exact conserves_refuse s
    · exact conserves_refuse s
  | framerNext =>
    refine .inl (conserves_whenConfigured ?_)
    split
    · exact conserves_refuse s
    · exact conserves_ite (conserves_refuse s) (conserves_answer (pendingIds_framerNext ..))
  | framerSym =>
    refine .inl (conserves_whenConfigured ?_)
    split
    · exact conserves_refuse s
    · exact conserves_answer_of_tx_eq rfl rfl
  | reset | configure | rxTick | rxBlock | discStep | btrStep | deframeBit | deframeFail | deframeFlush => cases hi

/-- Settles O29: ids go through each operation of the two paths, and CONFIGURE is refused. -/
theorem completionsInOrder : Obligations.CompletionsInOrder := by
  intro i s t hc hi ht
  rcases path_cases i with rfl | ⟨p, rfl⟩ | htx | hrx
  · exact absurd rfl hi
  · have h : Conserves s [] (exec (.configure p) s) := by
      rw [exec, execConfigure_configured hc]
      exact conserves_refuse s
    exact ⟨[], by rwa [ht] at h, .inl rfl⟩
  · rcases transmit_conserves htx s with h | ⟨id, bytes, e, h⟩
    · exact ⟨[], by rwa [ht] at h, .inl rfl⟩
    · exact ⟨[id], by rwa [ht] at h, .inr ⟨id, bytes, e, rfl⟩⟩
  · have h := receive_conserves hrx s
    exact ⟨[], by rwa [ht] at h, .inl rfl⟩

/-! ### The samples of one message -/

/-- The boundary at the tail is the end of the message (41_framer_scheduler.md R128, R131). -/
theorem symbolEnd_tail (c : ParamRegs) (m : Message) :
    symbolEnd c m (donePos m - 1) = messageEnd c m.bytes.length := by
  have hpos : donePos m - 1 = 1 + 10 * m.bytes.length := by unfold donePos; omega
  rw [hpos, symbolEnd, min_eq_right (by omega), if_pos le_rfl, messageEnd]

/-- No symbol ends after the message, for lengths that are not negative, whatever the other parameters are. -/
theorem symbolEnd_le_messageEnd {c : ParamRegs} (hs : 0 ≤ c.symLen) (ht : 0 ≤ c.tailLen) (m : Message) (k : Nat) :
    symbolEnd c m k ≤ messageEnd c m.bytes.length := by
  have hsym : ((min k (10 * m.bytes.length) : Nat) : Num) * c.symLen ≤ (10 * m.bytes.length : Nat) * c.symLen := by
    gcongr
    exact min_le_right ..
  have htail : (if 1 + 10 * m.bytes.length ≤ k then c.tailLen else 0) ≤ c.tailLen := by
    split
    · exact le_rfl
    · exact ht
  exact add_le_add (add_le_add le_rfl hsym) htail

@[simp] theorem settle_txN (c : ParamRegs) (m : Message) (t : TxBank) : (settle c m t).txN = t.txN := by
  obtain ⟨-, -, hn, -, -⟩ := settle_frame c m t
  exact hn

@[simp] theorem settle_txActive (c : ParamRegs) (m : Message) (t : TxBank) : (settle c m t).txActive = t.txActive := by
  obtain ⟨-, -, -, ha, -⟩ := settle_frame c m t
  exact ha

@[simp] theorem settle_txFifo (c : ParamRegs) (m : Message) (t : TxBank) : (settle c m t).txFifo = t.txFifo := by
  obtain ⟨-, -, -, -, hq⟩ := settle_frame c m t
  exact hq

/-- Message `m` is being sent and nothing waits behind it; the boundary is exact (41_framer_scheduler.md R131). -/
structure Sending (c : ParamRegs) (m : Message) (t : TxBank) : Prop where
  active : t.txActive = some m
  alone : t.txFifo = []
  boundary : t.txBoundary = symbolEnd c m t.txPos
  before_done : t.txPos < donePos m

theorem sending_activate (c : ParamRegs) (m : Message) (t : TxBank) : Sending c m (activate c m [] t) where
  active := rfl
  alone := rfl
  boundary := (symbolEnd_zero c m).symm
  before_done := by unfold donePos; simp

/-- With no message active a tick first activates the head of the queue (42_modulator.md R142, 41_framer_scheduler.md R127). -/
theorem txTick_activate {c : ParamRegs} {m : Message} {q : List Message} {t : TxBank} (ha : t.txActive = none)
    (hq : t.txFifo = m :: q) : txTick c t = txTick c (activate c m q t) := by
  have hup : bringUp c t = bringUp c (activate c m q t) := by
    simp only [bringUp, ha, hq, takeFrom, activate_txActive, settle_txFifo, activate_txFifo]
  rw [txTick, hup, txTick]

section Sending
variable {c : ParamRegs} {m : Message} {t : TxBank} (h : Sending c m t)
include h

/-- The inner loop reaches DONE only at or after the end of the message (41_framer_scheduler.md R131). -/
theorem Sending.messageEnd_le_of_done (hd : donePos m ≤ (settle c m t).txPos) :
    messageEnd c m.bytes.length ≤ (t.txN : Num) := by
  have hpos : (settle c m t).txPos = donePos m := le_antisymm (settle_pos_le h.before_done.le) hd
  rcases passSymbols_passed (donePos m - t.txPos) h.boundary with hstay | hpassed
  · exact absurd (hstay.symm.trans hpos) h.before_done.ne
  · rwa [← settle, hpos, symbolEnd_tail] at hpassed

/-- At or after the end of the message the inner loop reaches DONE. -/
theorem Sending.done_of_messageEnd_le (hs : 0 ≤ c.symLen) (ht : 0 ≤ c.tailLen)
    (he : messageEnd c m.bytes.length ≤ (t.txN : Num)) : donePos m ≤ (settle c m t).txPos := by
  refine (settle_done c m t).resolve_right (not_lt.mpr ?_)
  calc (settle c m t).txBoundary
      = symbolEnd c m (settle c m t).txPos := settle_boundary h.boundary
    _ ≤ messageEnd c m.bytes.length := symbolEnd_le_messageEnd hs ht m _
    _ ≤ (t.txN : Num) := he
    _ = ((settle c m t).txN : Num) := by rw [settle_txN]

/-- A tick before the end of the message produces a sample, reports nothing and counts the sample (42_modulator.md R142). -/
theorem Sending.txTick_produces (he : (t.txN : Num) < messageEnd c m.bytes.length) :
    (txTick c t).sample.isSome = true ∧ (txTick c t).events = [] ∧
      Sending c m (txTick c t).bank ∧ (txTick c t).bank.txN = t.txN + 1 := by
  have hnd : ¬ donePos m ≤ (settle c m t).txPos := fun hd => absurd (h.messageEnd_le_of_done hd) (not_le.mpr he)
  have hup : bringUp c t = (settle c m t, []) := by simp only [bringUp, h.active, if_neg hnd]
  rcases txTick_cases c t with ⟨hidle, -, -⟩ | ⟨m', tone, -, -, -, -, e⟩
  · rw [hup, settle_txActive, h.active] at hidle
    cases hidle
  · rw [e, hup]
    exact ⟨rfl, rfl, ⟨(settle_txActive ..).trans h.active, (settle_txFifo ..).trans h.alone, settle_boundary h.boundary,
      not_le.mp hnd⟩, congrArg (· + 1) (settle_txN c m t)⟩

/-- A tick at or after the end of the message completes it and is idle (41_framer_scheduler.md R130, 42_modulator.md R143). -/
theorem Sending.txTick_completes (hs : 0 ≤ c.symLen) (ht : 0 ≤ c.tailLen)
    (he : messageEnd c m.bytes.length ≤ (t.txN : Num)) :
    (txTick c t).sample = none ∧ (txTick c t).events = [.completed m.id] ∧
      (txTick c t).bank.txActive = none ∧ (txTick c t).bank.txFifo = [] ∧ (txTick c t).bank.txPhase = 0 := by
  have hq : (settle c m t).txFifo = [] := (settle_txFifo ..).trans h.alone
  have hup : bringUp c t = (release (settle c m t), [.completed m.id]) := by
    simp only [bringUp, h.active, if_pos (h.done_of_messageEnd_le hs ht he), hq, takeFrom]
  rcases txTick_cases c t with ⟨-, -, e⟩ | ⟨m', tone, hactive, -⟩
  · rw [e, hup]
    exact ⟨rfl, rfl, rfl, hq, rfl⟩
  · rw [hup] at hactive
    cases hactive

end Sending

/-- An idle Scheduler stays as it is, with the phase at 0 (42_modulator.md R143). -/
theorem txTick_of_idle {c : ParamRegs} {t : TxBank} (ha : t.txActive = none) (hq : t.txFifo = []) (hp : t.txPhase = 0) :
    txTick c t = { bank := t, sample := none, events := [] } := by
  have hup : bringUp c t = (t, []) := by simp only [bringUp, ha, hq, takeFrom]
  have hphase : { t with txPhase := 0 } = t := by rw [← hp]
  rcases txTick_cases c t with ⟨-, -, e⟩ | ⟨m, tone, hactive, -⟩
  · rw [e, hup, hphase]
  · rw [hup, ha] at hactive
    cases hactive

theorem txBlock_of_idle {c : ParamRegs} {t : TxBank} (ha : t.txActive = none) (hq : t.txFifo = []) (hp : t.txPhase = 0)
    (n : Nat) : txBlock c n t = { bank := t, samples := [], events := [] } := by
  induction n with
  | zero => rfl
  | succ n ih => simp only [txBlock, txTick_of_idle ha hq hp, ih, Option.toList_none, List.append_nil]

/-- A block that reaches past the end of the message produces the samples that are left, completes the message and ends idle
(41_framer_scheduler.md R128, R131). -/
theorem Sending.txBlock_completes {c : ParamRegs} {m : Message} {t : TxBank} (h : Sending c m t) (hs : 0 ≤ c.symLen)
    (ht : 0 ≤ c.tailLen) {n : Nat} (hn : ⌈messageEnd c m.bytes.length⌉₊ - t.txN < n) :
    (txBlock c n t).samples.length = ⌈messageEnd c m.bytes.length⌉₊ - t.txN ∧
      (txBlock c n t).events = [.completed m.id] ∧ (txBlock c n t).bank.txActive = none ∧
      (txBlock c n t).bank.txFifo = [] ∧ (txBlock c n t).bank.txPhase = 0 := by
  induction n generalizing t with
  | zero => cases hn
  | succ n ih =>
    rcases lt_or_ge (t.txN : Num) (messageEnd c m.bytes.length) with he | he
    · obtain ⟨hsample, hevents, hnext, hcount⟩ := h.txTick_produces he
      have hleft : t.txN < ⌈messageEnd c m.bytes.length⌉₊ := Nat.lt_ceil.mpr he
      obtain ⟨sample, hsample⟩ := Option.isSome_iff_exists.mp hsample
      obtain ⟨hlen, hrest, hidle⟩ := ih hnext (by rw [hcount]; omega)
      refine ⟨?_, ?_, hidle⟩
      · rw [hcount] at hlen
        simp only [txBlock, hsample, Option.toList_some, List.length_append, List.length_singleton, hlen]
        omega
      · simp only [txBlock, hevents, List.nil_append, hrest]
    · obtain ⟨hsample, hevents, ha, hq, hp⟩ := h.txTick_completes hs ht he
      have hleft : ⌈messageEnd c m.bytes.length⌉₊ ≤ t.txN := Nat.ceil_le.mpr he
      simp only [txBlock, hsample, hevents, txBlock_of_idle ha hq hp, ha, hq, hp, Option.toList_none, List.append_nil,
        List.length_nil, Nat.sub_eq_zero_of_le hleft, and_self]

theorem exec_txBlock_configured {s : State} (hc : s.configured = true) (n : Nat) : exec (.txBlock n) s = .next { s with
    tx := (txBlock s.params n s.tx).bank
    resp := some (.txBlock (txBlock s.params n s.tx).samples (txBlock s.params n s.tx).events) } :=
  if_pos hc

/-- Settles O32: the first tick activates the message, and the block sends it from sample 0. -/
theorem messageSampleCount : Obligations.MessageSampleCount := by
  intro s m n hc ha hq _ hs ht hn
  obtain ⟨n, rfl⟩ := Nat.exists_eq_succ_of_ne_zero (Nat.ne_zero_of_lt hn)
  have hactivate : txBlock s.params (n + 1) s.tx = txBlock s.params (n + 1) (activate s.params m [] s.tx) := by
    simp only [txBlock, txTick_activate ha hq]
  obtain ⟨hlen, hevents, hidle⟩ := (sending_activate s.params m s.tx).txBlock_completes hs ht hn
  rw [← hactivate] at hlen hevents hidle
  exact ⟨_, _, exec_txBlock_configured hc (n + 1), by rw [hevents], hlen, hidle⟩

end Sys2Proof.Machine
end

section
/-! PROOF. The Modulator (42_modulator.md): TONE_SEL (R140), the passes of TX_TICK's loop (R142), the idle tick (R143), blocks as
sequences of ticks (R145), and the sample operations before CONFIGURE (R148, 46_demodulator.md R204). -/

namespace Sys2Proof.Machine

/-! ### The sample operations and TONE_SEL, from the state -/

section Unconfigured
variable {s : State} (hc : s.configured = false)
include hc

theorem exec_txTick_unconfigured : exec .txTick s = .next { s with resp := some (.txTick none []) } :=
  if_neg (by simp [hc])

theorem exec_txBlock_unconfigured (n : Nat) : exec (.txBlock n) s = .next { s with resp := some (.txBlock [] []) } :=
  if_neg (by simp [hc])

theorem exec_rxTick_unconfigured (x : InSample) (now : Time) :
    exec (.rxTick x now) s = .next { s with resp := some (.events []) } :=
  if_neg (by simp [hc])

theorem exec_rxBlock_unconfigured (pairs : List (InSample × Time)) :
    exec (.rxBlock pairs) s = .next { s with resp := some (.events []) } :=
  if_neg (by simp [hc])

end Unconfigured

/-- Settles O16: none of the four looks at its operands before CONFIGURE. -/
theorem unconfiguredTicksAreSilent : Obligations.UnconfiguredTicksAreSilent := fun _ hc =>
  ⟨exec_txTick_unconfigured hc, exec_txBlock_unconfigured hc, exec_rxTick_unconfigured hc, exec_rxBlock_unconfigured hc⟩

theorem exec_toneSel_configured {s : State} (hc : s.configured = true) (tone : Bit) :
    exec (.toneSel tone) s = .next { s with resp := some (.inc (toneSel s.params tone)) } :=
  whenConfigured_true hc _

/-- Settles O19: the two inputs of the mux, and the refusal of a unit-level operation before CONFIGURE. -/
theorem toneSelSelectsIncrement : Obligations.ToneSelSelectsIncrement := fun _ =>
  ⟨fun hc => ⟨exec_toneSel_configured hc true, exec_toneSel_configured hc false⟩, fun hc _ => whenConfigured_false hc _⟩

theorem exec_txTick_configured {s : State} (hc : s.configured = true) : exec .txTick s = .next { s with
    tx := (txTick s.params s.tx).bank
    resp := some (.txTick (txTick s.params s.tx).sample (txTick s.params s.tx).events) } :=
  if_pos hc

/-- TX_TICK has the same outcome from any two transmit banks whose ticks agree. -/
theorem exec_txTick_congr {s : State} {t : TxBank} (hc : s.configured = true)
    (h : txTick s.params s.tx = txTick s.params t) : exec .txTick s = exec .txTick { s with tx := t } := by
  rw [exec_txTick_configured hc, exec_txTick_configured (s := { s with tx := t }) hc, h]

/-! ### The loop of TX_TICK, pass by pass -/

section Loop
variable {c : ParamRegs} {m : Message} {t u : TxBank}

/-- The inner loop does nothing at DONE or while the current symbol owns sample `tx_n` (42_modulator.md R142). -/
theorem settle_eq_self (h : donePos m ≤ t.txPos ∨ (t.txN : Num) < t.txBoundary) : settle c m t = t := by
  have hstop : ¬ (t.txPos < donePos m ∧ t.txBoundary ≤ (t.txN : Num)) := fun ⟨hp, hb⟩ =>
    h.elim (not_le.mpr hp) (not_lt.mpr hb)
  unfold settle
  cases donePos m - t.txPos with
  | zero => rfl
  | succ fuel => exact if_neg hstop

/-- A symbol that has ended is passed by FRAMER_NEXT, and the loop goes on from there (42_modulator.md R142). -/
theorem settle_framerNext (hp : t.txPos < donePos m) (hb : t.txBoundary ≤ (t.txN : Num)) :
    settle c m t = settle c m (framerNext c m t) := by
  have hfuel : donePos m - t.txPos = donePos m - (framerNext c m t).txPos + 1 := by
    rw [framerNext_txPos]
    omega
  rw [settle, hfuel, passSymbols, if_pos ⟨hp, hb⟩, settle]

/-- The outer loop reads the bank of an active message only through the inner loop. -/
theorem bringUp_congr_settle (ht : t.txActive = some m) (hu : u.txActive = some m) (h : settle c m t = settle c m u) :
    bringUp c t = bringUp c u := by
  simp only [bringUp, ht, hu, h]

/-- At DONE the message is reported complete, and the loop goes on with no message active (41_framer_scheduler.md R130). -/
theorem bringUp_of_done (ha : t.txActive = some m) (hp : donePos m ≤ t.txPos) :
    bringUp c t = ((bringUp c (release t)).1, .completed m.id :: (bringUp c (release t)).2) := by
  simp only [bringUp, ha, settle_eq_self (.inl hp), if_pos hp, release_txActive, release_txFifo]

/-- The loop leaves a symbol that owns the sample as it is. -/
theorem bringUp_of_owned (ha : t.txActive = some m) (hp : t.txPos < donePos m) (hn : (t.txN : Num) < t.txBoundary) :
    bringUp c t = (t, []) := by
  simp only [bringUp, ha, settle_eq_self (.inr hn), if_neg (not_le.mpr hp)]

/-- An idle tick zeroes the phase and writes nothing else (42_modulator.md R143). -/
theorem txTick_idle (ha : t.txActive = none) (hq : t.txFifo = []) :
    txTick c t = { bank := { t with txPhase := 0 }, sample := none, events := [] } := by
  simp only [txTick, bringUp, ha, hq, takeFrom]

theorem txTick_framerNext (ha : t.txActive = some m) (hp : t.txPos < donePos m) (hb : t.txBoundary ≤ (t.txN : Num)) :
    txTick c t = txTick c (framerNext c m t) := by
  have hup : bringUp c t = bringUp c (framerNext c m t) :=
    bringUp_congr_settle ha ((framerNext_txActive c m t).trans ha) (settle_framerNext hp hb)
  rw [txTick, hup, txTick]

theorem txTick_of_done (ha : t.txActive = some m) (hp : donePos m ≤ t.txPos) : txTick c t =
    { txTick c (release t) with events := .completed m.id :: (txTick c (release t)).events } := by
  rw [txTick, bringUp_of_done ha hp, txTick]
  cases (bringUp c (release t)).1.txActive <;> rfl

/-- A tick that finds the owner of the sample selects its increment, steps the oscillator and counts (42_modulator.md R141). -/
theorem txTick_of_owned {tone : Bit} (ha : t.txActive = some m) (htone : symTone m t.txPos = some tone)
    (hn : (t.txN : Num) < t.txBoundary) : txTick c t =
    { bank := { t with
        txInc := toneSel c tone
        txPhase := wrapPhase (t.txPhase + toneSel c tone)
        txN := t.txN + 1 }
      sample := some (Config.sine t.txPhase)
      events := [] } := by
  have hp : t.txPos < donePos m := (symTone_isSome_iff m _).mp (Option.isSome_iff_exists.mpr ⟨tone, htone⟩)
  simp only [txTick, bringUp_of_owned ha hp hn, ha, htone, Option.getD_some, oscStep]

end Loop

/-- Settles O27: each clause is the tick's own equation for that pass of the loop. -/
theorem txTickFollowsLoop : Obligations.TxTickFollowsLoop := by
  intro s
  refine ⟨exec_txTick_unconfigured, fun hc ha hq => ?idle, fun m q hc ha hq => ?activate, fun m hc ha hp hb => ?passed,
    fun m hc ha hp => ?done, fun m tone hc ha hn htone => ?owned⟩
  case idle => rw [exec_txTick_configured hc, txTick_idle ha hq]
  case activate => exact exec_txTick_congr hc (txTick_activate ha hq)
  case passed => exact exec_txTick_congr hc (txTick_framerNext ha hp hb)
  case done =>
    refine ⟨_, _, _, exec_txTick_configured (s := { s with tx := release s.tx }) hc, rfl, ?_⟩
    rw [exec_txTick_configured hc, txTick_of_done ha hp.ge]
  case owned =>
    rw [exec_txTick_configured hc, txTick_of_owned ha htone hn]
    rfl

/-- Settles O28: the two ends of a tick, each with what the loop has found. -/
theorem txTickProducesOrIdles : Obligations.TxTickProducesOrIdles := by
  intro s hc
  refine ⟨_, _, _, exec_txTick_configured hc, ?_⟩
  rcases txTick_cases s.params s.tx with ⟨ha, hq, e⟩ | ⟨m, tone, ha, -, hp, hn, e⟩ <;> rw [e]
  · exact .inl ⟨rfl, ha, hq, rfl⟩
  · exact .inr ⟨rfl, m, _, ha, rfl, hp, hn⟩

/-! ### Blocks of ticks -/

/-- Settles O30: both equations are those of the block's recursion. -/
theorem txBlockIsTicks : Obligations.TxBlockIsTicks := fun s hc =>
  ⟨exec_txBlock_configured hc 0, fun n => ⟨_, _, _, _, _, _, exec_txTick_configured hc, rfl,
    exec_txBlock_configured (s := { s with tx := (txTick s.params s.tx).bank, resp := _ }) hc n, rfl,
    exec_txBlock_configured hc (n + 1)⟩⟩

/-- A block of `a + b` ticks is a block of `a` and then one of `b` (42_modulator.md R145 (d)). -/
theorem txBlock_add (c : ParamRegs) (a b : Nat) (t : TxBank) : txBlock c (a + b) t =
    { bank := (txBlock c b (txBlock c a t).bank).bank
      samples := (txBlock c a t).samples ++ (txBlock c b (txBlock c a t).bank).samples
      events := (txBlock c a t).events ++ (txBlock c b (txBlock c a t).bank).events } := by
  induction a generalizing t with
  | zero => simp only [Nat.zero_add, txBlock, List.nil_append]
  | succ a ih => simp only [Nat.succ_add, txBlock, ih, List.append_assoc]

/-- Settles O31: the two blocks of a configured block's ticks, and nothing at all before CONFIGURE. -/
theorem txBlockSplits : Obligations.TxBlockSplits := by
  intro s a b
  cases hc : s.configured with
  | false =>
    exact ⟨_, _, _, _, _, _, exec_txBlock_unconfigured hc a, rfl,
      exec_txBlock_unconfigured (s := { s with resp := _ }) hc b, rfl, exec_txBlock_unconfigured hc (a + b)⟩
  | true =>
    refine ⟨_, _, _, _, _, _, exec_txBlock_configured hc a, rfl,
      exec_txBlock_configured (s := { s with tx := (txBlock s.params a s.tx).bank, resp := _ }) hc b, rfl, ?_⟩
    rw [exec_txBlock_configured hc, txBlock_add]

end Sys2Proof.Machine
end

section
/-! PROOF. The Frequency Discriminator (43_discriminator.md): DISC_STEP at the unit port (R156), the limiter on blocks (R157), the delay
line as a shift register of DELAY_LEN entries (R158) and the warm-up (R160). -/

namespace Sys2Proof.Machine

/-! ### DISC_STEP at the unit port -/

/-- Settles O33: a ring entry is known by its integer, so the product is the one DISC_STEP writes. -/
theorem discStepCorrelates : Obligations.DiscStepCorrelates := by
  intro s
  refine ⟨fun x pol product sum hc hpol hproduct hsum => ?_, whenConfigured_eq_refuse fun _ => rfl,
    fun hc x => whenConfigured_false hc _⟩
  obtain rfl : pol = polarity x := hpol
  obtain rfl : product = tritMul (polarity x) (ringRead s.rx.delayLine s.rx.dpos) :=
    tritInt_injective (hproduct.trans (tritInt_tritMul _ _).symm)
  subst hsum
  exact exec_discStep_num hc x

/-! ### The limiter -/

/-- Two numeric samples that the limiter does not tell apart: the same stamp and the same sign (R157). -/
def SameSign (p q : Sample × Time) : Prop := p.2 = q.2 ∧ (0 ≤ p.1 ↔ 0 ≤ q.1)

section Limiter
variable (c : ParamRegs) {p q : Sample × Time} (r : RxBank)

theorem rxTick_congr (h : SameSign p q) : rxTick c p.1 p.2 r = rxTick c q.1 q.2 r := by
  simp only [rxTick, discStep_congr c p.1 r h.2, h.1]

theorem tickByte_congr (h : SameSign p q) : tickByte c p.1 r = tickByte c q.1 r := by
  simp only [tickByte, discStep_congr c p.1 r h.2]

theorem rxBlock_congr {ps qs : List (Sample × Time)} (h : List.Forall₂ SameSign ps qs) :
    rxBlock c ps r = rxBlock c qs r := by
  induction h generalizing r with
  | nil => rfl
  | cons hpq _ ih => simp only [rxBlock, rxTick_congr c r hpq, ih]

theorem blockOverflows_congr (build : Build) {ps qs : List (Sample × Time)} (h : List.Forall₂ SameSign ps qs) :
    blockOverflows build c ps r = blockOverflows build c qs r := by
  induction h generalizing r with
  | nil => rfl
  | cons hpq _ ih => simp only [blockOverflows, tickByte_congr c r hpq, rxTick_congr c r hpq, ih]

end Limiter

/-- Blocks of numbers that agree in signs and stamps are numeric, and agree so as lists of numbers. -/
theorem exists_numericPairs_sameSign {a b : List (InSample × Time)}
    (h : List.Forall₂ (fun p q => p.2 = q.2 ∧ ∃ x y : Sample, p.1 = .num x ∧ q.1 = .num y ∧ (0 ≤ x ↔ 0 ≤ y)) a b) :
    ∃ ps qs, numericPairs a = some ps ∧ numericPairs b = some qs ∧ List.Forall₂ SameSign ps qs := by
  induction h with
  | nil => exact ⟨[], [], rfl, rfl, .nil⟩
  | @cons p q _ _ hpq _ ih =>
    obtain ⟨ps, qs, hps, hqs, hsame⟩ := ih
    obtain ⟨_, now⟩ := p
    obtain ⟨_, now'⟩ := q
    obtain ⟨rfl, x, y, rfl, rfl, hsign⟩ := hpq
    exact ⟨(x, now) :: ps, (y, now) :: qs, by rw [numericPairs, hps, Option.map_some], by rw [numericPairs, hqs, Option.map_some],
      .cons ⟨rfl, hsign⟩ hsame⟩

/-- Settles O36: an RX_BLOCK reads its samples in the overflow test and in the ticks, and both see the signs alone. -/
theorem onlySignsMatter : Obligations.OnlySignsMatter := by
  intro s a b h
  obtain ⟨ps, qs, hps, hqs, hsame⟩ := exists_numericPairs_sameSign h
  simp only [exec, execRxBlock, hps, hqs, blockOverflows_congr s.params s.rx s.build hsame, rxBlock_congr s.params s.rx hsame]

/-! ### The delay line as a shift register -/

/-- The delay-line entry that is read `k` samples from now, as it stands now. -/
def delayAhead (c : ParamRegs) (k : Nat) (r : RxBank) : Trit := ringRead r.delayLine ((r.dpos + k) % c.delayLen)

/-- Less than one turn of the ring ahead lies another place. -/
theorem add_mod_ne_self {pos length k : Nat} (h0 : 0 < k) (hk : k < length) : (pos + k) % length ≠ pos := by
  intro h
  have hpos : pos < length := h ▸ Nat.mod_lt _ (by omega)
  rcases Nat.lt_or_ge (pos + k) length with hlt | hge
  · rw [Nat.mod_eq_of_lt hlt] at h
    omega
  · rw [Nat.mod_eq_sub_mod hge, Nat.mod_eq_of_lt (by omega)] at h
    omega

section Delay
variable {c : ParamRegs} {r : RxBank}

/-- The entry read next is the one at the position (R156). -/
theorem delayAhead_zero (hp : r.dpos % c.delayLen = r.dpos) : delayAhead c 0 r = ringRead r.delayLine r.dpos := by
  rw [delayAhead, Nat.add_zero, hp]

/-- A sample brings every other entry one place nearer (R158). -/
theorem delayAhead_discStep (x : Sample) {k : Nat} (hk : k + 1 < c.delayLen) :
    delayAhead c k (discStep c x r).2 = delayAhead c (k + 1) r := by
  have hplace : (ringNext r.dpos c.delayLen + k) % c.delayLen = (r.dpos + (k + 1)) % c.delayLen := by
    rw [ringNext, Nat.mod_add_mod, Nat.add_assoc, Nat.add_comm 1 k]
  rw [delayAhead, discStep_dpos, discStep_delayLine, hplace,
    ringRead_ringWrite_other _ (add_mod_ne_self k.succ_pos hk), delayAhead]

/-- A sample's own polarity is read after all other entries (R158). -/
theorem delayAhead_discStep_last (x : Sample) {k : Nat} (hk : k + 1 = c.delayLen) (hp : r.dpos < r.delayLine.length)
    (hlen : r.delayLine.length = c.delayLen) : delayAhead c k (discStep c x r).2 = polarity x := by
  have hplace : (ringNext r.dpos c.delayLen + k) % c.delayLen = r.dpos := by
    rw [ringNext, Nat.mod_add_mod, Nat.add_assoc, Nat.add_comm 1 k, hk, Nat.add_mod_right, Nat.mod_eq_of_lt (hlen ▸ hp)]
  rw [delayAhead, discStep_dpos, discStep_delayLine, hplace, ringRead_ringWrite_same _ hp]

theorem discRun_cons (c : ParamRegs) (x : Sample) (xs : List Sample) (r : RxBank) : discRun c (x :: xs) r =
    ((discStep c x r).1 :: (discRun c xs (discStep c x r).2).1, (discRun c xs (discStep c x r).2).2) := rfl

/-- Each sample of a run moves the position by one place. -/
theorem discRun_dpos (xs : List Sample) (hp : r.dpos % c.delayLen = r.dpos) :
    (discRun c xs r).2.dpos = (r.dpos + xs.length) % c.delayLen := by
  induction xs generalizing r with
  | nil => exact hp.symm
  | cons x xs ih =>
    rw [discRun_cons, ih (Nat.mod_mod _ _), discStep_dpos, ringNext, Nat.mod_add_mod, List.length_cons, Nat.add_assoc,
      Nat.add_comm 1]

/-- A run shorter than the delay line brings the entries it has not reached nearer by its length. -/
theorem delayAhead_discRun (xs : List Sample) {k : Nat} (hk : k + xs.length < c.delayLen) :
    delayAhead c k (discRun c xs r).2 = delayAhead c (k + xs.length) r := by
  induction xs generalizing r with
  | nil => rfl
  | cons x xs ih =>
    rw [List.length_cons, ← Nat.add_assoc] at hk
    rw [discRun_cons, ih (by omega), delayAhead_discStep x hk, List.length_cons, Nat.add_assoc]

end Delay

/-- Settles O34: the first polarity is written as the last entry to be read, and the samples after it bring it to the front. -/
theorem delayIsRingLength : Obligations.DelayIsRingLength := by
  intro c r x xs h hlen
  have hlt : r.dpos < c.delayLen := by rcases h.dpos_lt with hlt | ⟨h0, -⟩ <;> omega
  have hp : r.dpos % c.delayLen = r.dpos := Nat.mod_eq_of_lt hlt
  have hback : (discRun c (x :: xs) r).2.dpos = r.dpos := by
    rw [discRun_dpos _ hp, List.length_cons, hlen, Nat.add_mod_right, hp]
  refine ⟨hback, ?_⟩
  calc ringRead (discRun c (x :: xs) r).2.delayLine r.dpos
      = delayAhead c 0 (discRun c (x :: xs) r).2 := by rw [delayAhead_zero (by rw [hback, hp]), hback]
    _ = delayAhead c xs.length (discStep c x r).2 := by
        rw [discRun_cons, delayAhead_discRun xs (by omega), Nat.zero_add]
    _ = polarity x := delayAhead_discStep_last x hlen (by rw [h.delay_length]; exact hlt) h.delay_length

/-! ### The warm-up -/

/-- The bank while the next `n` samples meet unwritten delay-line entries only, and no product has entered the sum (R160). -/
structure WarmUp (c : ParamRegs) (n : Nat) (r : RxBank) : Prop where
  dpos_mod : r.dpos % c.delayLen = r.dpos
  unwritten_ahead : ∀ k < n, delayAhead c k r = .zero
  ring_zero : r.corrRing = List.replicate c.corrLen .zero
  sum_zero : r.corrSum = 0

theorem ringRead_replicate_zero (n pos : Nat) : ringRead (List.replicate n .zero) pos = .zero := by
  rw [ringRead, List.getD_eq_getElem?_getD, List.getElem?_replicate]
  split <;> rfl

theorem tritMul_zero (t : Trit) : tritMul t .zero = .zero := by
  cases t <;> rfl

/-- The bank that CONFIGURE leaves is warming up for DELAY_LEN samples (R160). -/
theorem warmUp_cleared (c : ParamRegs) (n : Nat) : WarmUp c n (RxBank.cleared c.delayLen c.corrLen) where
  dpos_mod := Nat.zero_mod _
  unwritten_ahead _ _ := ringRead_replicate_zero _ _
  ring_zero := rfl
  sum_zero := rfl

section Step
variable {c : ParamRegs} {n : Nat} {r : RxBank} (h : WarmUp c (n + 1) r) (x : Sample)
include h

/-- The polarity of a warm-up sample is multiplied by 0. -/
theorem WarmUp.product_zero : tritMul (polarity x) (ringRead r.delayLine r.dpos) = .zero := by
  rw [← delayAhead_zero h.dpos_mod, h.unwritten_ahead 0 n.succ_pos, tritMul_zero]

/-- A warm-up sample adds 0 to the sum and removes 0 from it. -/
theorem WarmUp.discStep_corrSum : (discStep c x r).2.corrSum = 0 := by
  rw [Machine.discStep_corrSum, h.product_zero, h.ring_zero, ringRead_replicate_zero, h.sum_zero]
  rfl

theorem WarmUp.discStep_raw : (discStep c x r).1 = !c.invert := by
  rw [Machine.discStep_raw, h.discStep_corrSum]
  exact Bool.true_xor c.invert

/-- A sample uses up one of the samples of the warm-up. -/
theorem WarmUp.after_discStep (hn : n + 1 ≤ c.delayLen) : WarmUp c n (discStep c x r).2 where
  dpos_mod := Nat.mod_mod _ _
  unwritten_ahead k hk := by rw [delayAhead_discStep x (by omega), h.unwritten_ahead (k + 1) (by omega)]
  ring_zero := by rw [discStep_corrRing, h.product_zero, h.ring_zero, ringWrite, List.set_replicate_self]
  sum_zero := h.discStep_corrSum x

end Step

/-- A run within the warm-up answers `bit(not INVERT)` throughout and leaves the sum at 0 (R160). -/
theorem WarmUp.discRun_eq {c : ParamRegs} {xs : List Sample} {r : RxBank} (h : WarmUp c xs.length r)
    (hlen : xs.length ≤ c.delayLen) :
    (discRun c xs r).1 = List.replicate xs.length (!c.invert) ∧ (discRun c xs r).2.corrSum = 0 := by
  induction xs generalizing r with
  | nil => exact ⟨rfl, h.sum_zero⟩
  | cons x xs ih =>
    obtain ⟨hraw, hsum⟩ := ih (h.after_discStep x hlen) (Nat.le_of_succ_le hlen)
    refine ⟨?_, hsum⟩
    rw [discRun_cons, h.discStep_raw x, hraw, List.length_cons, List.replicate_succ]

/-- Settles O35: the bank after CONFIGURE is warming up for as many samples as the run has. -/
theorem warmUpRawIsConstant : Obligations.WarmUpRawIsConstant := fun c xs _ hlen =>
  (warmUp_cleared c xs.length).discRun_eq hlen

end Sys2Proof.Machine
end

section
/-! PROOF. Bit Timing Recovery (44_bit_timing.md): the two branches of BTR_STEP (R171), the clean bits of a run of equal raw bits (R173)
and the failure test at the transition that ends the run (R174). -/

namespace Sys2Proof.Machine

/-! ### The two branches of BTR_STEP -/

section Branches
variable (c : ParamRegs) {raw : Bit} {r : RxBank}

/-- A raw bit equal to the previous one (R171): the floor of `emitted_bits` decides between a clean bit and nothing. -/
theorem btrStep_of_same (h : r.prevBit = some raw) : btrStep c raw r =
    (if ⌊r.emittedBits + c.bitStep⌋ ≠ ⌊r.emittedBits⌋ then .cleanBit raw else .nothing,
      { r with emittedBits := r.emittedBits + c.bitStep }) := by
  rcases btrStep_cases c raw r with ⟨-, hf, e⟩ | ⟨-, hf, e⟩ | ⟨hp, -⟩ | ⟨hp, -⟩
  · rw [e, if_pos hf]
  · rw [e, if_neg (not_not.mpr hf)]
  · exact absurd h hp
  · exact absurd h hp

/-- A transition (R171): `emitted_bits` before its reset decides between the failure and nothing. -/
theorem btrStep_of_transition (h : r.prevBit ≠ some raw) : btrStep c raw r =
    (if r.emittedBits < 1 then .failure else .nothing, { r with prevBit := some raw, emittedBits := 1 / 2 }) := by
  rcases btrStep_cases c raw r with ⟨hp, -⟩ | ⟨hp, -⟩ | ⟨-, he, e⟩ | ⟨-, he, e⟩
  · exact absurd hp h
  · exact absurd hp h
  · rw [e, if_pos he]
  · rw [e, if_neg (not_lt.mpr he)]

end Branches

/-- Settles O38: on a configured block the unit port answers with BTR_STEP's own branches. -/
theorem btrStepBranches : Obligations.BtrStepBranches := by
  refine fun s raw => ⟨fun hc hp => ?_, fun hc hp => ?_, fun hc => whenConfigured_false hc _⟩
  · rw [exec_btrStep_configured hc, btrStep_of_same _ hp]
  · rw [exec_btrStep_configured hc, btrStep_of_transition _ hp]

/-! ### Runs of raw bits -/

/-- A run is extended by one BTR_STEP at its end. -/
theorem btrRun_concat (c : ParamRegs) (bs : List Bit) (raw : Bit) (r : RxBank) : btrRun c (bs ++ [raw]) r =
    ((btrRun c bs r).1 ++ [(btrStep c raw (btrRun c bs r).2).1], (btrStep c raw (btrRun c bs r).2).2) := by
  induction bs generalizing r with
  | nil => rfl
  | cons b bs ih => simp only [List.cons_append, btrRun, ih]

section EqualBits
variable (c : ParamRegs) {b : Bit} {r : RxBank} (hp : r.prevBit = some b) (m : Nat)
include hp

/-- Bits equal to the previous one leave it as it is. -/
theorem btrRun_replicate_prevBit : (btrRun c (List.replicate m b) r).2.prevBit = some b := by
  cases m with
  | zero => exact hp
  | succ m => rw [List.replicate_succ', btrRun_concat, btrStep_prevBit]

/-- Bits equal to the previous one each add BIT_STEP to `emitted_bits`. -/
theorem btrRun_replicate_emittedBits :
    (btrRun c (List.replicate m b) r).2.emittedBits = r.emittedBits + (m : ℚ) * c.bitStep := by
  induction m with
  | zero => simp [btrRun]
  | succ m ih =>
    rw [List.replicate_succ', btrRun_concat, btrStep_of_same c (btrRun_replicate_prevBit c hp m), ih,
      Nat.cast_succ, add_one_mul, add_assoc]

/-- The results of a run, one bit longer: a clean bit is added exactly when the accumulated value's floor moves (R173 (a)). -/
theorem btrRun_replicate_succ : (btrRun c (List.replicate (m + 1) b) r).1 =
    (btrRun c (List.replicate m b) r).1 ++
      [if ⌊r.emittedBits + (m : ℚ) * c.bitStep + c.bitStep⌋ ≠ ⌊r.emittedBits + (m : ℚ) * c.bitStep⌋
        then .cleanBit b else .nothing] := by
  rw [List.replicate_succ', btrRun_concat, btrStep_of_same c (btrRun_replicate_prevBit c hp m),
    btrRun_replicate_emittedBits c hp]

/-- A run without a transition answers no failure, whatever BIT_STEP is. -/
theorem btrRun_replicate_clean_or_nothing :
    ∀ res ∈ (btrRun c (List.replicate m b) r).1, res = .cleanBit b ∨ res = .nothing := by
  induction m with
  | zero => exact fun _ h => absurd h List.not_mem_nil
  | succ m ih =>
    intro res h
    rw [btrRun_replicate_succ c hp, List.mem_append, List.mem_singleton] at h
    rcases h with h | rfl
    · exact ih res h
    · exact ite_eq_or_eq ..

end EqualBits

/-! ### The slicer -/

/-- A step of at most 1 moves the floor by 0 or 1, never more (R173 (b)). -/
theorem floor_add_eq_or_succ {step : ℚ} (h0 : 0 < step) (h1 : step ≤ 1) (e : ℚ) :
    ⌊e + step⌋ = ⌊e⌋ ∨ ⌊e + step⌋ = ⌊e⌋ + 1 := by
  have hlow : ⌊e⌋ ≤ ⌊e + step⌋ := Int.floor_mono (le_add_of_nonneg_right h0.le)
  have hhigh : ⌊e + step⌋ ≤ ⌊e⌋ + 1 := Int.floor_add_one e ▸ Int.floor_mono (add_le_add_right h1 e)
  omega

/-- The clean bits of a run of equal bits are the integers that `emitted_bits` reaches or passes (R173 (b), (c)). -/
theorem count_cleanBit_btrRun_replicate {c : ParamRegs} (h0 : 0 < c.bitStep) (h1 : c.bitStep ≤ 1) {b : Bit} {r : RxBank}
    (hp : r.prevBit = some b) (m : Nat) :
    ((btrRun c (List.replicate m b) r).1.count (.cleanBit b) : Int) =
      ⌊r.emittedBits + (m : ℚ) * c.bitStep⌋ - ⌊r.emittedBits⌋ := by
  induction m with
  | zero => simp [btrRun]
  | succ m ih =>
    rw [btrRun_replicate_succ c hp, List.count_append, Nat.cast_add, ih, Nat.cast_succ, add_one_mul, ← add_assoc]
    rcases floor_add_eq_or_succ h0 h1 (r.emittedBits + m * c.bitStep) with hsame | hmoved
    · simp [hsame]
    · simp [hmoved, sub_add_eq_add_sub]

/-- Settles O40: a transition leaves `emitted_bits` at 1/2, whose floor is 0. -/
theorem cleanBitsPerPeriod : Obligations.CleanBitsPerPeriod := by
  intro c r b m hp he h0 h1
  have hfloor : ⌊(1 / 2 : ℚ)⌋ = 0 := by norm_num
  have hcount := count_cleanBit_btrRun_replicate h0 h1 hp m
  rw [he, hfloor, sub_zero] at hcount
  exact ⟨hcount, btrRun_replicate_clean_or_nothing c hp m⟩

/-! ### The failure test -/

/-- Settles O39: the second transition tests the `emitted_bits` that the `m` ticks between accumulated from 1/2. -/
theorem transitionSpacingFails : Obligations.TransitionSpacingFails := by
  intro c r b m hp he
  have htransition : (btrRun c (List.replicate m b) r).2.prevBit ≠ some !b := by
    simp [btrRun_replicate_prevBit c hp]
  rw [btrRun_concat, List.getLast?_concat, btrStep_of_transition c htransition, btrRun_replicate_emittedBits c hp, he]

end Sys2Proof.Machine
end

section
/-! PROOF. The Byte Deframer at the unit port (45_deframer.md R186 to R188): what DEFRAME_FLUSH, DEFRAME_FAIL and DEFRAME_BIT do to the
receive bank in each of their branches, and with it what they answer on a configured block. -/

namespace Sys2Proof.Machine

/-! ### DEFRAME_FLUSH and DEFRAME_FAIL -/

/-- The flush of an empty list is no event and no change (R187). -/
theorem flushMessage_of_nil {r : RxBank} (now : Time) (hb : r.rxBytes = []) : flushMessage now r = ([], r) := by
  rcases flushMessage_cases now r with ⟨-, e⟩ | ⟨hne, -⟩
  · exact e
  · exact absurd hb hne

/-- The flush of a message in progress emits its bytes with its start stamp (R187). -/
theorem flushMessage_of_start {r : RxBank} (now : Time) {t0 : Time} (hb : r.rxBytes ≠ []) (ht : r.rxStart = some t0) :
    flushMessage now r = ([.received r.rxBytes t0 now], { r with rxBytes := [], rxStart := none }) := by
  rcases flushMessage_cases now r with ⟨hnil, -⟩ | ⟨-, e⟩
  · exact absurd hnil hb
  · rw [e, ht, Option.getD_some]

section Flush
variable {s : State} (hc : s.configured = true) (now : Time)
include hc

theorem exec_deframeFlush_configured : exec (.deframeFlush now) s = .next { s with
    rx := (flushMessage now s.rx).2
    resp := some (.events (flushMessage now s.rx).1) } := whenConfigured_true hc _

theorem exec_deframeFail_configured : exec (.deframeFail now) s = .next { s with
    rx := { (flushMessage now s.rx).2 with symbolCount := 0 }
    resp := some (.events (flushMessage now s.rx).1) } := whenConfigured_true hc _

end Flush

/-- Settles O43: the unit port answers with the two branches of the flush. -/
theorem deframeFlushEmits : Obligations.DeframeFlushEmits := by
  refine fun s now => ⟨fun hc hb => ?_, fun t0 hc hb ht => ?_, fun hc => whenConfigured_false hc _⟩
  · rw [exec_deframeFlush_configured hc, flushMessage_of_nil now hb]
  · rw [exec_deframeFlush_configured hc, flushMessage_of_start now hb ht]

/-- Settles O44: the same two branches, and the count at 0. -/
theorem deframeFailResetsCount : Obligations.DeframeFailResetsCount := by
  refine fun s now => ⟨fun hc hb => ?_, fun t0 hc hb ht => ?_, fun hc => whenConfigured_false hc _⟩
  · rw [exec_deframeFail_configured hc, flushMessage_of_nil now hb]
  · rw [exec_deframeFail_configured hc, flushMessage_of_start now hb ht]

/-! ### DEFRAME_BIT -/

section Branches
variable {b : Bit} {r : RxBank}

theorem deframeBit_of_counting (now : Time) (hn : r.symbolCount < 9) : deframeBit b now r = ([], shifted b r) :=
  if_neg (not_le.mpr (Nat.succ_lt_succ hn))

theorem deframeBit_of_valid (now : Time) (hn : 9 ≤ r.symbolCount) (hv : validFrame (shiftIn b r.symbolBuffer) = true) :
    deframeBit b now r = ([], appendByte (windowByte (shiftIn b r.symbolBuffer)) now (shifted b r)) :=
  (if_pos (Nat.succ_le_succ hn)).trans (if_pos hv)

theorem deframeBit_of_mismatch (now : Time) (hn : 9 ≤ r.symbolCount)
    (hv : validFrame (shiftIn b r.symbolBuffer) = false) : deframeBit b now r = flushMessage now (shifted b r) :=
  (if_pos (Nat.succ_le_succ hn)).trans (if_neg (Bool.eq_false_iff.mp hv))

/-- While counting, and on a mismatch, there is no byte that could overflow. -/
theorem overflows_of_no_byte (build : Build) (h : r.symbolCount < 9 ∨ validFrame (shiftIn b r.symbolBuffer) = false) :
    overflows build (decodedByte b r) r = false := by
  rcases decodedByte_cases b r with ⟨hn, hv, -⟩ | ⟨-, e⟩
  · rcases h with h | h
    · exact absurd hn (not_le.mpr h)
    · exact absurd hv (Bool.eq_false_iff.mp h)
  · rw [e]; rfl

/-- With room for one more byte nothing overflows (20_memory.md R63). -/
theorem overflows_of_room {build : Build} (h : ∀ d, build.rxMaxLen = some d → r.rxBytes.length < d) (byte : Option Byte) :
    overflows build byte r = false := by
  rw [Bool.eq_false_iff, Ne, overflows_iff]
  rintro ⟨-, d, hd, hle⟩
  exact absurd (h d hd) (not_lt.mpr hle)

end Branches

/-- Settles O42: the three branches of DEFRAME_BIT, the flush of the third by whether a message is in progress. -/
theorem deframeBitChecksWindow : Obligations.DeframeBitChecksWindow := by
  rintro s b now _ rfl
  rw [← shiftIn_eq]
  have hmismatch (h : shiftIn b s.rx.symbolBuffer &&& 0x201#10 ≠ 0x200#10) :
      validFrame (shiftIn b s.rx.symbolBuffer) = false := beq_false_of_ne h
  refine ⟨fun hc hn => ?_, fun hc hn hv hroom => ?_, fun hc hn hv hb => ?_, fun t0 hc hn hv hb ht => ?_,
    fun hc => whenConfigured_false hc _⟩
  · rw [exec_deframeBit_of_fits hc now (overflows_of_no_byte _ (.inl hn)), deframeBit_of_counting now hn]
    rfl
  · rw [exec_deframeBit_of_fits hc now (overflows_of_room hroom _), deframeBit_of_valid now hn (beq_iff_eq.mpr hv)]
    rfl
  · rw [exec_deframeBit_of_fits hc now (overflows_of_no_byte _ (.inr (hmismatch hv))),
      deframeBit_of_mismatch now hn (hmismatch hv), flushMessage_of_nil now (r := shifted b s.rx) hb]
    rfl
  · rw [exec_deframeBit_of_fits hc now (overflows_of_no_byte _ (.inr (hmismatch hv))),
      deframeBit_of_mismatch now hn (hmismatch hv), flushMessage_of_start now (r := shifted b s.rx) hb ht]
    rfl

end Sys2Proof.Machine
end

section
/-! PROOF. The round trip of Framer and Deframer (45_deframer.md R193): the bits between the preamble and the tail are the frames of the
bytes, and the Deframer goes through four phases, each stated as what a run of bits makes of a bank: mark, the first frame, the frames
after it, and the ten 1s that end the message. -/

namespace Sys2Proof.Machine

/-! ### The frames -/

/-- The frame of a byte as the Framer sends it: 0, its data bits from bit 0 on, 1 (41_framer_scheduler.md R121, R122). -/
def byteFrame (v : Byte) : List Bit :=
  (List.range 10).map fun j => if j = 0 then false else if j = 9 then true else v.getLsbD (j - 1)

@[simp] theorem byteFrame_length (v : Byte) : (byteFrame v).length = 10 := by
  rw [byteFrame, List.length_map, List.length_range]

theorem byteFrame_getD {v : Byte} {j : Nat} (hj : j < 10) : (byteFrame v).getD j false =
    if j = 0 then false else if j = 9 then true else v.getLsbD (j - 1) := by
  simp [byteFrame, hj]

theorem flatMap_byteFrame_length (vs : List Byte) : (vs.flatMap byteFrame).length = 10 * vs.length := by
  simp [List.length_flatMap, Nat.mul_comm]

/-- A list over `0` to `k·n - 1` is made of `n` groups of `k`. -/
theorem map_range_mul {α : Type} (k n : Nat) (g : Nat → α) : (List.range (k * n)).map g =
    (List.range n).flatMap fun i => (List.range k).map fun j => g (k * i + j) := by
  induction n with
  | zero => rfl
  | succ n ih =>
    rw [Nat.mul_succ, List.range_add, List.map_append, ih, List.range_succ, List.flatMap_append, List.flatMap_singleton,
      List.map_map]
    rfl

/-- The tone of bit `j` of frame `i` is bit `j` of the frame of byte `i`. -/
theorem symTone_frame {m : Message} {i j : Nat} (hi : i < m.bytes.length) (hj : j < 10) :
    symTone m (10 * i + j + 1) =
      some (if j = 0 then false else if j = 9 then true else (m.bytes.getD i 0).getLsbD (j - 1)) := by
  have hkind := symKind_succ_of_lt (m := m) (k := 10 * i + j) (by omega)
  rw [show (10 * i + j) % 10 = j by omega, show (10 * i + j) / 10 = i by omega] at hkind
  by_cases h0 : j = 0
  · rw [if_pos h0] at hkind ⊢
    rw [symTone, hkind]
  · by_cases h9 : j = 9
    · rw [if_neg h0, if_pos h9] at hkind ⊢
      rw [symTone, hkind]
    · rw [if_neg h0, if_neg h9] at hkind
      rw [symTone_data hkind, if_neg h0, if_neg h9]

/-- The bits between the preamble and the tail are the frames of the bytes, in order. -/
theorem frameBits_eq_flatMap (m : Message) : frameBits m = m.bytes.flatMap byteFrame := by
  have hgroup : ∀ i ∈ List.range m.bytes.length,
      ((List.range 10).map fun j => (symTone m (10 * i + j + 1)).getD Config.toneOfDone) = byteFrame (m.bytes.getD i 0) := by
    intro i hi
    refine List.map_congr_left fun j hj => ?_
    rw [symTone_frame (List.mem_range.mp hi) (List.mem_range.mp hj), Option.getD_some]
  have hbytes : (List.range m.bytes.length).map (fun i => m.bytes.getD i 0) = m.bytes :=
    List.ext_getElem (by simp) fun i _ h => by simp [h]
  calc frameBits m
      = (List.range m.bytes.length).flatMap fun i => byteFrame (m.bytes.getD i 0) :=
        (map_range_mul 10 _ _).trans (List.flatMap_congr hgroup)
    _ = ((List.range m.bytes.length).map fun i => m.bytes.getD i 0).flatMap byteFrame := (List.flatMap_map ..).symm
    _ = m.bytes.flatMap byteFrame := by rw [hbytes]

/-! ### Runs of clean bits -/

theorem length_of_map_fst {xs : List (Bit × Time)} {bits : List Bit} (h : xs.map Prod.fst = bits) :
    xs.length = bits.length := by
  rw [← h, List.length_map]

/-- From every bank with `P` the clean bits `xs` give the events `es` and a bank with `Q`. -/
def Deframes (P : RxBank → Prop) (xs : List (Bit × Time)) (es : List Event) (Q : RxBank → Prop) : Prop :=
  ∀ r, P r → (deframeRun xs r).1 = es ∧ Q (deframeRun xs r).2

theorem deframeRun_append (xs ys : List (Bit × Time)) (r : RxBank) : deframeRun (xs ++ ys) r =
    ((deframeRun xs r).1 ++ (deframeRun ys (deframeRun xs r).2).1, (deframeRun ys (deframeRun xs r).2).2) := by
  induction xs generalizing r with
  | nil => rfl
  | cons x xs ih => simp only [List.cons_append, deframeRun, ih, List.append_assoc]

theorem Deframes.append {P Q R : RxBank → Prop} {xs ys : List (Bit × Time)} {es fs : List Event}
    (h : Deframes P xs es Q) (h' : Deframes Q ys fs R) : Deframes P (xs ++ ys) (es ++ fs) R := by
  intro r hr
  obtain ⟨hes, hq⟩ := h r hr
  obtain ⟨hfs, hr'⟩ := h' _ hq
  rw [deframeRun_append]
  exact ⟨by rw [hes, hfs], hr'⟩

/-- The bank after the shifts of a run of bits alone. -/
def shiftedBy (bits : List Bit) (r : RxBank) : RxBank :=
  { r with
    symbolBuffer := bits.foldl (fun v b => shiftIn b v) r.symbolBuffer
    symbolCount := r.symbolCount + bits.length }

theorem shiftedBy_cons (b : Bit) (bits : List Bit) (r : RxBank) :
    shiftedBy (b :: bits) r = shiftedBy bits (shifted b r) := by
  simp only [shiftedBy, shifted, List.foldl_cons, List.length_cons, Nat.add_assoc, Nat.add_comm 1]

theorem shifted_shiftedBy (b : Bit) (bits : List Bit) (r : RxBank) :
    shifted b (shiftedBy bits r) = shiftedBy (bits ++ [b]) r := by
  simp only [shiftedBy, shifted, List.foldl_concat, List.length_append, List.length_singleton, Nat.add_assoc]

/-! ### Before the end of a frame -/

/-- No window is valid yet, `k` bits into a frame: there is no check before the frame's end, or the bits since the count was 0 that
came before the frame are all 1, and no message is in progress (45_deframer.md R191). -/
def Seeking (k : Nat) (r : RxBank) : Prop :=
  r.symbolCount ≤ k ∨
    (r.rxBytes = [] ∧ ∀ i, 10 ≤ i + r.symbolCount → i + k < 10 → r.symbolBuffer.getLsbD i = true)

/-- No message is in progress, and all bits since the count was 0 are 1: mark, before a transmission or after it. -/
structure OnMark (r : RxBank) : Prop where
  empty : r.rxBytes = []
  marks : ∀ i, 10 ≤ i + r.symbolCount → i < 10 → r.symbolBuffer.getLsbD i = true

theorem OnMark.seeking {r : RxBank} (h : OnMark r) : Seeking 0 r := .inr ⟨h.empty, h.marks⟩

theorem onMark_of_count_zero {r : RxBank} (hn : r.symbolCount = 0) (hb : r.rxBytes = []) : OnMark r :=
  ⟨hb, fun i h10 hi => absurd hi (by omega)⟩

theorem validFrame_eq (buf : BitVec 10) : validFrame buf = (!buf.getLsbD 0 && buf.getLsbD 9) := validFrame_iff buf

/-- A bit that moves a 1 into the place of the start bit is shifted in and nothing more, when there is nothing to flush. -/
theorem deframeBit_of_mark_first {r : RxBank} (b : Bit) (now : Time) (hb : r.rxBytes = [])
    (h1 : 9 ≤ r.symbolCount → r.symbolBuffer.getLsbD 1 = true) : deframeBit b now r = ([], shifted b r) := by
  rcases Nat.lt_or_ge r.symbolCount 9 with hn | hn
  · exact deframeBit_of_counting now hn
  · have hmismatch : validFrame (shiftIn b r.symbolBuffer) = false := by
      rw [validFrame_eq, shiftIn_getLsbD _ _ 0 (by decide), if_neg (by decide), h1 hn]; rfl
    rw [deframeBit_of_mismatch now hn hmismatch, flushMessage_of_nil now (r := shifted b r) hb]

/-- None of the first nine bits of a frame completes a valid window, and none flushes a message. -/
theorem Seeking.deframeBit_eq {r : RxBank} {k : Nat} (h : Seeking k r) (hk : k < 9) (b : Bit) (now : Time) :
    deframeBit b now r = ([], shifted b r) ∧ Seeking (k + 1) (shifted b r) := by
  rcases h with hn | ⟨hb, hmark⟩
  · exact ⟨deframeBit_of_counting now (by omega), .inl (Nat.succ_le_succ hn)⟩
  · refine ⟨deframeBit_of_mark_first b now hb fun hn => hmark 1 (by omega) (by omega), .inr ⟨hb, fun i h10 hi => ?_⟩⟩
    have h10' : 10 ≤ i + (r.symbolCount + 1) := h10
    exact (shiftIn_getLsbD b _ i (by omega)).trans ((if_neg (by omega)).trans (hmark (i + 1) (by omega) (by omega)))

theorem Seeking.deframeRun_eq {xs : List (Bit × Time)} {r : RxBank} {k : Nat} (h : Seeking k r) (hk : k + xs.length ≤ 9) :
    deframeRun xs r = ([], shiftedBy (xs.map Prod.fst) r) := by
  induction xs generalizing r k with
  | nil => rfl
  | cons x xs ih =>
    obtain ⟨b, now⟩ := x
    rw [List.length_cons] at hk
    obtain ⟨hstep, hnext⟩ := h.deframeBit_eq (by omega) b now
    rw [deframeRun, hstep, ih hnext (by omega), List.map_cons, shiftedBy_cons]
    rfl

/-- 1s on mark stay on mark. -/
theorem deframes_marks {xs : List (Bit × Time)} (hx : ∀ p ∈ xs, p.1 = true) : Deframes OnMark xs [] OnMark := by
  induction xs with
  | nil => exact fun r hr => ⟨rfl, hr⟩
  | cons x xs ih =>
    rintro r ⟨hb, hmark⟩
    obtain ⟨b, now⟩ := x
    obtain rfl : b = true := hx (b, now) List.mem_cons_self
    have hstep := deframeBit_of_mark_first true now hb fun hn => hmark 1 (by omega) (by decide)
    have hnext : OnMark (shifted true r) := by
      refine ⟨hb, fun i h10 hi => ?_⟩
      have h10' : 10 ≤ i + (r.symbolCount + 1) := h10
      refine (shiftIn_getLsbD true _ i hi).trans ?_
      split
      · rfl
      · exact hmark (i + 1) (by omega) (by omega)
    rw [deframeRun, hstep]
    exact ih (fun p hp => hx p (List.mem_cons_of_mem _ hp)) _ hnext

/-! ### The tenth bit -/

/-- The stamp of the tenth bit of a group. -/
def tenthStamp (xs : List (Bit × Time)) : Time := (xs.map Prod.snd).getD 9 ⟨0⟩

/-- The window after a group of ten bits is the group. -/
theorem shiftedBy_window {bits : List Bit} (hlen : bits.length = 10) (r : RxBank) {i : Nat} (hi : i < 10) :
    (shiftedBy bits r).symbolBuffer.getLsbD i = bits.getD i false :=
  tenShiftsFillWindow bits r.symbolBuffer hlen i hi

/-- A group of ten bits with nothing found before it is nine shifts and one check (45_deframer.md R191). -/
theorem Seeking.deframeRun_ten {xs : List (Bit × Time)} {r : RxBank} (h : Seeking 0 r) (hlen : xs.length = 10) :
    deframeRun xs r =
      if validFrame (shiftedBy (xs.map Prod.fst) r).symbolBuffer then
        ([], appendByte (windowByte (shiftedBy (xs.map Prod.fst) r).symbolBuffer) (tenthStamp xs)
          (shiftedBy (xs.map Prod.fst) r))
      else flushMessage (tenthStamp xs) (shiftedBy (xs.map Prod.fst) r) := by
  obtain rfl | ⟨ys, ⟨b, now⟩, rfl⟩ := List.eq_nil_or_concat' xs
  · cases hlen
  have hys : ys.length = 9 := by simpa using hlen
  have hstamp : tenthStamp (ys ++ [(b, now)]) = now := by simp [tenthStamp, hys]
  have hcount : 9 ≤ (shiftedBy (ys.map Prod.fst) r).symbolCount := by simp [shiftedBy, hys]
  have hlast : deframeRun (ys ++ [(b, now)]) r = deframeBit b now (shiftedBy (ys.map Prod.fst) r) := by
    rw [deframeRun_append, h.deframeRun_eq (by omega)]
    simp [deframeRun]
  rw [hlast, hstamp, List.map_append, List.map_singleton, ← shifted_shiftedBy]
  split
  · next hv => exact deframeBit_of_valid now hcount hv
  · next hv => exact deframeBit_of_mismatch now hcount (Bool.eq_false_iff.mpr hv)

/-- The frame of a byte is a valid window with that byte in it (30_encoding.md R94, R95). -/
theorem window_of_byteFrame {v : Byte} {buf : BitVec 10} (h : ∀ i < 10, buf.getLsbD i = (byteFrame v).getD i false) :
    validFrame buf = true ∧ windowByte buf = v := by
  constructor
  · rw [validFrame_eq, h 0 (by decide), h 9 (by decide), byteFrame_getD (by decide), byteFrame_getD (by decide)]
    rfl
  · refine BitVec.eq_of_getLsbD_eq fun j hj => ?_
    rw [windowByte_getLsbD _ _ hj, h _ (by omega), byteFrame_getD (by omega), if_neg (by omega), if_neg (by omega),
      Nat.add_sub_cancel]

/-- A frame adds its byte (45_deframer.md R186, R190). -/
theorem Seeking.deframeRun_frame {xs : List (Bit × Time)} {v : Byte} {r : RxBank} (h : Seeking 0 r)
    (hx : xs.map Prod.fst = byteFrame v) :
    deframeRun xs r = ([], appendByte v (tenthStamp xs) (shiftedBy (byteFrame v) r)) := by
  have hlen : xs.length = 10 := (length_of_map_fst hx).trans (byteFrame_length v)
  obtain ⟨hvalid, hbyte⟩ := window_of_byteFrame fun i hi => shiftedBy_window (byteFrame_length v) r hi
  rw [h.deframeRun_ten hlen, hx, hvalid, hbyte, if_pos rfl]

/-! ### The phases of a message -/

/-- The bytes of a message in progress and its start stamp, right after the end of a frame. -/
structure Holding (bytes : List Byte) (start : Time) (r : RxBank) : Prop where
  count : r.symbolCount = 0
  held : r.rxBytes = bytes
  started : r.rxStart = some start
  nonempty : bytes ≠ []

theorem Holding.seeking {bytes : List Byte} {start : Time} {r : RxBank} (h : Holding bytes start r) : Seeking 0 r :=
  .inl h.count.le

/-- The first frame starts the message, stamped at its stop bit (R186 (d)). -/
theorem deframes_first_frame {xs : List (Bit × Time)} {v : Byte} (hx : xs.map Prod.fst = byteFrame v) :
    Deframes OnMark xs [] (Holding [v] (tenthStamp xs)) := by
  intro r hr
  rw [hr.seeking.deframeRun_frame hx]
  refine ⟨rfl, ⟨rfl, ?_, ?_, List.cons_ne_nil _ _⟩⟩
  · simp [appendByte, shiftedBy, hr.empty]
  · simp [appendByte, shiftedBy, hr.empty]

/-- A later frame adds its byte and leaves the start stamp. -/
theorem deframes_next_frame {xs : List (Bit × Time)} {v : Byte} (hx : xs.map Prod.fst = byteFrame v) (bytes : List Byte)
    (start : Time) : Deframes (Holding bytes start) xs [] (Holding (bytes ++ [v]) start) := by
  intro r hr
  rw [hr.seeking.deframeRun_frame hx]
  refine ⟨rfl, ⟨rfl, ?_, ?_, List.append_ne_nil_of_left_ne_nil hr.nonempty _⟩⟩
  · simp [appendByte, shiftedBy, hr.held]
  · simp [appendByte, shiftedBy, hr.held, hr.started, hr.nonempty]

theorem deframes_frames {vs : List Byte} {xs : List (Bit × Time)} (hx : xs.map Prod.fst = vs.flatMap byteFrame)
    (bytes : List Byte) (start : Time) : Deframes (Holding bytes start) xs [] (Holding (bytes ++ vs) start) := by
  induction vs generalizing xs bytes with
  | nil =>
    obtain rfl : xs = [] := List.map_eq_nil_iff.mp hx
    exact fun r hr => ⟨rfl, by rwa [List.append_nil]⟩
  | cons v vs ih =>
    rw [List.flatMap_cons, List.map_eq_append_iff] at hx
    obtain ⟨frame, rest, rfl, hframe, hrest⟩ := hx
    rw [List.append_cons]
    exact (deframes_next_frame hframe bytes start).append (ih hrest (bytes ++ [v]))

/-- Ten 1s after a frame are a mismatch, which emits the message with the stamp of the tenth (R187 (b), R190). -/
theorem deframes_ten_marks {xs : List (Bit × Time)} (hx : xs.map Prod.fst = List.replicate 10 true) (bytes : List Byte)
    (start : Time) :
    Deframes (Holding bytes start) xs [.received bytes start (tenthStamp xs)] OnMark := by
  intro r hr
  have hlen : xs.length = 10 := (length_of_map_fst hx).trans List.length_replicate
  have hwindow {i : Nat} (hi : i < 10) : (shiftedBy (List.replicate 10 true) r).symbolBuffer.getLsbD i = true := by
    rw [shiftedBy_window List.length_replicate r hi, List.getD_replicate _ hi]
  have hmismatch : validFrame (shiftedBy (List.replicate 10 true) r).symbolBuffer = false := by
    rw [validFrame_eq, hwindow (by decide)]; rfl
  have hflush := flushMessage_of_start (tenthStamp xs) (r := shiftedBy (List.replicate 10 true) r)
    (hr.held ▸ hr.nonempty) hr.started
  rw [hr.seeking.deframeRun_ten hlen, hx, hmismatch, if_neg Bool.false_ne_true, hflush]
  refine ⟨?_, rfl, fun i _ hi => hwindow hi⟩
  rw [← hr.held]; rfl

/-- A whole message between 1s, with the stamps of its first stop bit and of the tenth 1 after it. -/
theorem deframes_message {lead first rest ten trail : List (Bit × Time)} {v : Byte} {vs : List Byte}
    (hlead : ∀ p ∈ lead, p.1 = true) (hfirst : first.map Prod.fst = byteFrame v)
    (hrest : rest.map Prod.fst = vs.flatMap byteFrame) (hten : ten.map Prod.fst = List.replicate 10 true)
    (htrail : ∀ p ∈ trail, p.1 = true) :
    Deframes OnMark (lead ++ (first ++ (rest ++ (ten ++ trail))))
      [.received (v :: vs) (tenthStamp first) (tenthStamp ten)] OnMark :=
  (deframes_marks hlead).append <| (deframes_first_frame hfirst).append <| (deframes_frames hrest _ _).append <|
    (deframes_ten_marks hten _ _).append (deframes_marks htrail)

/-- The stamp of the tenth bit of a group inside a run, by its place in the run. -/
theorem tenthStamp_eq_getD (before after : List (Bit × Time)) {group : List (Bit × Time)} (hlen : group.length = 10) :
    ((before ++ (group ++ after)).map Prod.snd).getD (before.length + 9) ⟨0⟩ = tenthStamp group := by
  rw [List.map_append, List.getD_append_right _ _ _ _ (by simp), List.map_append, List.length_map, Nat.add_sub_cancel_left,
    List.getD_append _ _ _ _ (by simp [hlen]), tenthStamp]

/-- The round trip for a run of stamped bits. -/
theorem deframeRun_message {xs : List (Bit × Time)} {v : Byte} {vs : List Byte} {lead trail : Nat} {r : RxBank}
    (hx : xs.map Prod.fst =
      List.replicate lead true ++ (v :: vs).flatMap byteFrame ++ List.replicate (10 + trail) true) (hr : OnMark r) :
    (deframeRun xs r).1 = [.received (v :: vs) ((xs.map Prod.snd).getD (lead + 9) ⟨0⟩)
      ((xs.map Prod.snd).getD (lead + 10 * (v :: vs).length + 9) ⟨0⟩)] := by
  rw [List.flatMap_cons, List.replicate_add, List.append_assoc, List.append_assoc] at hx
  obtain ⟨before, _, rfl, hbefore, hx⟩ := List.map_eq_append_iff.mp hx
  obtain ⟨first, _, rfl, hfirst, hx⟩ := List.map_eq_append_iff.mp hx
  obtain ⟨rest, _, rfl, hrest, hx⟩ := List.map_eq_append_iff.mp hx
  obtain ⟨ten, after, rfl, hten, hafter⟩ := List.map_eq_append_iff.mp hx
  have hmarks {n : Nat} {ys : List (Bit × Time)} (hy : ys.map Prod.fst = List.replicate n true) :
      ∀ p ∈ ys, p.1 = true := fun p hp => List.eq_of_mem_replicate (hy ▸ List.mem_map_of_mem hp)
  have hlead : before.length = lead := (length_of_map_fst hbefore).trans List.length_replicate
  have hfirstLen : first.length = 10 := (length_of_map_fst hfirst).trans (byteFrame_length v)
  have hrestLen : rest.length = 10 * vs.length := (length_of_map_fst hrest).trans (flatMap_byteFrame_length vs)
  have htenLen : ten.length = 10 := (length_of_map_fst hten).trans List.length_replicate
  have hpast : (before ++ (first ++ rest)).length = lead + 10 * (v :: vs).length := by
    simp only [List.length_append, List.length_cons]; omega
  have hstart := tenthStamp_eq_getD before (rest ++ (ten ++ after)) hfirstLen
  have hstop := tenthStamp_eq_getD (before ++ (first ++ rest)) after htenLen
  rw [hpast, List.append_assoc, List.append_assoc] at hstop
  rw [← hlead, hstart, hlead, hstop]
  exact (deframes_message (hmarks hbefore) hfirst hrest hten (hmarks hafter) r hr).1

/-- Settles O46: the stamped bits are a message between 1s, or only 1s when there is no byte. -/
theorem framerDeframerRoundTrip : Obligations.FramerDeframerRoundTrip := by
  intro m lead trail stamps r htrail hn hb hlen
  have hbits : (List.replicate lead true ++ frameBits m ++ List.replicate trail true).length = stamps.length := by
    simp [hlen, frameBits, Nat.add_assoc]
  have hfst := List.map_fst_zip hbits.le
  have hsnd := List.map_snd_zip hbits.ge
  have hr := onMark_of_count_zero hn hb
  cases hbytes : m.bytes with
  | nil =>
    have hmarks : ∀ p ∈ (List.replicate lead true ++ frameBits m ++ List.replicate trail true).zip stamps, p.1 = true := by
      rw [frameBits_eq_flatMap, hbytes, List.flatMap_nil, List.append_nil, ← List.replicate_add]
      exact fun p hp => List.eq_of_mem_replicate (List.of_mem_zip hp).1
    exact (deframes_marks hmarks r hr).1
  | cons v vs =>
    obtain ⟨trail, rfl⟩ := Nat.exists_eq_add_of_le htrail
    rw [frameBits_eq_flatMap, hbytes] at hfst hsnd ⊢
    rw [deframeRun_message hfst hr, hsnd, if_neg (List.cons_ne_nil _ _)]

end Sys2Proof.Machine
end

section
/-! PROOF. RX_TICK (46_demodulator.md R200, R202): the tick by the result of the two units before the Deframer, the units and the tick
from the state, and the one event a tick can deliver. -/

namespace Sys2Proof.Machine

/-! ### The tick by the result of Bit Timing Recovery -/

section Result
variable {c : ParamRegs} {x : Sample} {r : RxBank}

@[simp] theorem beforeDeframer_rxBytes (c : ParamRegs) (x : Sample) (r : RxBank) :
    (beforeDeframer c x r).2.rxBytes = r.rxBytes := by
  rw [beforeDeframer, btrStep_rxBytes, discStep_rxBytes]

theorem rxTick_of_failure (now : Time) (h : (beforeDeframer c x r).1 = .failure) :
    rxTick c x now r = deframeFail now (beforeDeframer c x r).2 := by
  unfold beforeDeframer at *
  simpa [h] using rxTick_cases c x now r

theorem rxTick_of_nothing (now : Time) (h : (beforeDeframer c x r).1 = .nothing) :
    rxTick c x now r = ([], (beforeDeframer c x r).2) := by
  unfold beforeDeframer at *
  simpa [h] using rxTick_cases c x now r

theorem tickByte_of_cleanBit {b : Bit} (h : (beforeDeframer c x r).1 = .cleanBit b) :
    tickByte c x r = decodedByte b (beforeDeframer c x r).2 := by
  unfold beforeDeframer at *
  simpa [h] using tickByte_cases c x r

/-- Without a clean bit a tick decodes nothing (R200). -/
theorem tickByte_eq_none (h : ∀ b, (beforeDeframer c x r).1 ≠ .cleanBit b) : tickByte c x r = none := by
  rcases tickByte_cases c x r with ⟨b, hb, -⟩ | ⟨-, e⟩
  · exact absurd hb (h b)
  · exact e

end Result

/-! ### RX_TICK from the state -/

section Configured
variable {s : State} (hc : s.configured = true)
include hc

theorem exec_rxTick_nonNumeric (now : Time) : exec (.rxTick .nonNumeric now) s = .next { s with resp := some .refused } :=
  if_pos hc

theorem exists_exec_rxTick_num (x : Sample) (now : Time) : ∃ t, exec (.rxTick (.num x) now) s = .next t := by
  cases ho : overflows s.build (tickByte s.params x s.rx) s.rx with
  | true => exact ⟨_, exec_rxTick_of_overflow hc now ho⟩
  | false => exact ⟨_, exec_rxTick_of_fits hc now ho⟩

/-- A tick without a clean bit has no byte that could overflow. -/
theorem exec_rxTick_of_no_cleanBit {x : Sample} (now : Time) (h : ∀ b, (beforeDeframer s.params x s.rx).1 ≠ .cleanBit b) :
    exec (.rxTick (.num x) now) s = .next { s with
      rx := (rxTick s.params x now s.rx).2
      resp := some (.events (rxTick s.params x now s.rx).1) } :=
  exec_rxTick_of_fits hc now (by rw [tickByte_eq_none h]; rfl)

end Configured

/-- Settles O48: the two units before the Deframer leave the bank of `beforeDeframer`, and its result selects the third. -/
theorem rxTickComposesUnits : Obligations.RxTickComposesUnits := by
  refine fun s now => ⟨fun hc x => exec_rxTick_unconfigured hc x now, fun hc x => ?_, fun hc => exec_rxTick_nonNumeric hc now⟩
  obtain ⟨t, ht⟩ := exists_exec_rxTick_num hc x now
  refine ⟨_, _, t, _, _, exec_discStep_num hc x, rfl,
    exec_btrStep_configured (s := { s with rx := (discStep s.params x s.rx).2, resp := _ }) hc _, rfl, ht,
    fun b (hb : (beforeDeframer s.params x s.rx).1 = .cleanBit b) hroom => ?_,
    fun (hfail : (beforeDeframer s.params x s.rx).1 = .failure) => ?_,
    fun (hnone : (beforeDeframer s.params x s.rx).1 = .nothing) => ?_⟩
  · rw [← ht, exec_rxTick_of_fits hc now (overflows_of_room hroom _), rxTick_of_cleanBit now hb]
    exact exec_deframeBit_of_fits (s := { s with rx := (beforeDeframer s.params x s.rx).2, resp := _ }) hc now
      (overflows_of_room (by simpa using hroom) _)
  · rw [← ht, exec_rxTick_of_no_cleanBit hc now (by simp [hfail]), rxTick_of_failure now hfail]
    exact exec_deframeFail_configured (s := { s with rx := (beforeDeframer s.params x s.rx).2, resp := _ }) hc now
  · have htick := exec_rxTick_of_no_cleanBit hc now (x := x) (by simp [hnone])
    rw [rxTick_of_nothing now hnone] at htick
    exact Host.Outcome.next.inj (ht.symm.trans htick)

/-! ### At most one event -/

/-- No event, or one non-empty message that ends now (R202). -/
def AtMostOneMessage (now : Time) (events : List Event) : Prop :=
  events = [] ∨ ∃ bytes start, bytes ≠ [] ∧ events = [.received bytes start now]

theorem flushMessage_atMostOneMessage (now : Time) (r : RxBank) : AtMostOneMessage now (flushMessage now r).1 := by
  rcases flushMessage_cases now r with ⟨-, e⟩ | ⟨hne, e⟩ <;> rw [e]
  · exact .inl rfl
  · exact .inr ⟨_, _, hne, rfl⟩

/-- Only a mismatch delivers, and it is a flush (45_deframer.md R186). -/
theorem deframeBit_atMostOneMessage (b : Bit) (now : Time) (r : RxBank) : AtMostOneMessage now (deframeBit b now r).1 := by
  rcases deframeBit_cases b now r with ⟨-, e⟩ | ⟨-, -, e⟩ | ⟨-, -, e⟩ <;> rw [e]
  · exact .inl rfl
  · exact .inl rfl
  · exact flushMessage_atMostOneMessage now _

theorem rxTick_atMostOneMessage (c : ParamRegs) (x : Sample) (now : Time) (r : RxBank) :
    AtMostOneMessage now (rxTick c x now r).1 := by
  rcases rxTick_cases c x now r with ⟨b, -, e⟩ | ⟨-, e⟩ | ⟨-, e⟩ <;> rw [e]
  · exact deframeBit_atMostOneMessage b now _
  · exact flushMessage_atMostOneMessage now _
  · exact .inl rfl

/-- Settles O49: a tick that completes delivers what its one Deframer operation does; any other tick delivers nothing. -/
theorem rxTickAtMostOneEvent : Obligations.RxTickAtMostOneEvent := by
  intro s t x now ht
  cases hc : s.configured with
  | false =>
    obtain rfl := Host.Outcome.next.inj ((exec_rxTick_unconfigured hc x now).symm.trans ht)
    exact .inl rfl
  | true =>
    cases x with
    | nonNumeric =>
      obtain rfl := Host.Outcome.next.inj ((exec_rxTick_nonNumeric hc now).symm.trans ht)
      exact .inl rfl
    | num x =>
      cases ho : overflows s.build (tickByte s.params x s.rx) s.rx with
      | true =>
        obtain rfl := Host.Outcome.next.inj ((exec_rxTick_of_overflow hc now ho).symm.trans ht)
        exact .inl rfl
      | false =>
        obtain rfl := Host.Outcome.next.inj ((exec_rxTick_of_fits hc now ho).symm.trans ht)
        exact rxTick_atMostOneMessage s.params x now s.rx

end Sys2Proof.Machine
end

section
/-! PROOF. RX_BLOCK (46_demodulator.md R201): a block of two parts is the two parts in order, in its ticks and in the overflow test of a
bounded build; and a block of one sample is the tick. -/

namespace Sys2Proof.Machine

/-! ### The ticks and the overflow test of a block -/

theorem rxBlock_append (c : ParamRegs) (ps qs : List (Sample × Time)) (r : RxBank) : rxBlock c (ps ++ qs) r =
    ((rxBlock c ps r).1 ++ (rxBlock c qs (rxBlock c ps r).2).1, (rxBlock c qs (rxBlock c ps r).2).2) := by
  induction ps generalizing r with
  | nil => rfl
  | cons p ps ih => simp only [List.cons_append, rxBlock, ih, List.append_assoc]

theorem blockOverflows_append (build : Build) (c : ParamRegs) (ps qs : List (Sample × Time)) (r : RxBank) :
    blockOverflows build c (ps ++ qs) r =
      (blockOverflows build c ps r || blockOverflows build c qs (rxBlock c ps r).2) := by
  induction ps generalizing r with
  | nil => rfl
  | cons p ps ih => simp only [List.cons_append, blockOverflows, rxBlock, ih, Bool.or_assoc]

/-- A DEFRAME_BIT holds at most one byte more (45_deframer.md R186). -/
theorem deframeBit_rxBytes_length_le (b : Bit) (now : Time) (r : RxBank) :
    (deframeBit b now r).2.rxBytes.length ≤ r.rxBytes.length + 1 := by
  rcases deframeBit_rxBytes b now r with ⟨v, -, e⟩ | ⟨-, e | e⟩ <;> rw [e] <;> simp

/-- A tick holds at most one byte more (R200). -/
theorem rxTick_rxBytes_length_le (c : ParamRegs) (x : Sample) (now : Time) (r : RxBank) :
    (rxTick c x now r).2.rxBytes.length ≤ r.rxBytes.length + 1 := by
  rw [← beforeDeframer_rxBytes c x r]
  cases h : (beforeDeframer c x r).1 with
  | cleanBit b => rw [rxTick_of_cleanBit now h]; exact deframeBit_rxBytes_length_le b now _
  | failure => rw [rxTick_of_failure now h]; simp [deframeFail, takeError_timing]
  | nothing => rw [rxTick_of_nothing now h]; exact Nat.le_succ _

/-- With room for a byte on every tick no tick of a block overflows (20_memory.md R63). -/
theorem blockOverflows_of_room {build : Build} (c : ParamRegs) {ps : List (Sample × Time)} {r : RxBank}
    (h : ∀ d, build.rxMaxLen = some d → r.rxBytes.length + ps.length ≤ d) : blockOverflows build c ps r = false := by
  induction ps generalizing r with
  | nil => rfl
  | cons p ps ih =>
    simp only [List.length_cons] at h
    have hheld := rxTick_rxBytes_length_le c p.1 p.2 r
    have hfirst : overflows build (tickByte c p.1 r) r = false := overflows_of_room (fun d hd => by have := h d hd; omega) _
    have hrest : blockOverflows build c ps (rxTick c p.1 p.2 r).2 = false := ih fun d hd => by have := h d hd; omega
    rw [blockOverflows, hfirst, hrest, Bool.or_false]

/-! ### RX_BLOCK from the state -/

/-- A numeric sample and its stamp as the operand of RX_BLOCK (30_encoding.md R99). -/
def numericOperand (p : Sample × Time) : InSample × Time := (.num p.1, p.2)

@[simp] theorem numericPairs_map_numericOperand (ps : List (Sample × Time)) :
    numericPairs (ps.map numericOperand) = some ps := by
  induction ps with
  | nil => rfl
  | cons p ps ih => simp only [List.map_cons, numericOperand, numericPairs, ih, Option.map_some]

/-- A block without a sample that is not a number is the operand of a list of numbers. -/
theorem exists_map_numericOperand {pairs : List (InSample × Time)} (h : ∀ p ∈ pairs, p.1 ≠ .nonNumeric) :
    ∃ ps : List (Sample × Time), ps.map numericOperand = pairs := by
  rw [← Set.mem_range, Set.range_list_map]
  rintro ⟨x | _, now⟩ hp
  · exact ⟨(x, now), rfl⟩
  · exact absurd rfl (h _ hp)

section Configured
variable {s : State} (hc : s.configured = true) {pairs : List (InSample × Time)} {ps : List (Sample × Time)}
  (hn : numericPairs pairs = some ps)
include hc hn

theorem exec_rxBlock_of_overflow (ho : blockOverflows s.build s.params ps s.rx = true) :
    exec (.rxBlock pairs) s = .next { s with resp := some .refused } := by
  simp only [exec, execRxBlock, hc, if_true, hn, ho, refuse]

theorem exec_rxBlock_of_fits (ho : blockOverflows s.build s.params ps s.rx = false) :
    exec (.rxBlock pairs) s = .next { s with
      rx := (rxBlock s.params ps s.rx).2
      resp := some (.events (rxBlock s.params ps s.rx).1) } := by
  simp only [exec, execRxBlock, hc, if_true, hn, ho, Bool.false_eq_true, if_false, answer, State.withRx]

theorem exists_exec_rxBlock : ∃ t, exec (.rxBlock pairs) s = .next t := by
  cases ho : blockOverflows s.build s.params ps s.rx with
  | true => exact ⟨_, exec_rxBlock_of_overflow hc hn ho⟩
  | false => exact ⟨_, exec_rxBlock_of_fits hc hn ho⟩

end Configured

/-! ### A block in two parts -/

/-- RX_BLOCK `a` leads from `s` to `u` and RX_BLOCK `b` from `u` to `v`; both answer and RX_BLOCK `a ++ b` has their effect and their
events in order, or one of them is refused and so is the whole (R201, log entry 6). -/
def RunsInParts (s : State) (a b : List (InSample × Time)) (u v : State) : Prop :=
  exec (.rxBlock a) s = .next u ∧ exec (.rxBlock b) u = .next v ∧
    ((∃ events moreEvents, u.resp = some (.events events) ∧ v.resp = some (.events moreEvents) ∧
        exec (.rxBlock (a ++ b)) s = .next { v with resp := some (.events (events ++ moreEvents)) }) ∨
      (u.resp = some .refused ∨ v.resp = some .refused) ∧
        exec (.rxBlock (a ++ b)) s = .next { s with resp := some .refused })

/-- On a configured block a part is refused exactly where the whole is: the overflow test of `ps ++ qs` is that of its parts. -/
theorem exists_runsInParts_configured {s : State} (hc : s.configured = true) (ps qs : List (Sample × Time)) :
    ∃ u v, RunsInParts s (ps.map numericOperand) (qs.map numericOperand) u v ∧
      (blockOverflows s.build s.params (ps ++ qs) s.rx = false → u.resp ≠ some .refused ∧ v.resp ≠ some .refused) := by
  have ha := numericPairs_map_numericOperand ps
  have hb := numericPairs_map_numericOperand qs
  have hab : numericPairs (ps.map numericOperand ++ qs.map numericOperand) = some (ps ++ qs) := by
    rw [← List.map_append, numericPairs_map_numericOperand]
  have hwhole := blockOverflows_append s.build s.params ps qs s.rx
  cases hfirst : blockOverflows s.build s.params ps s.rx with
  | true =>
    rw [hfirst, Bool.true_or] at hwhole
    obtain ⟨v, hv⟩ := exists_exec_rxBlock (s := { s with resp := some .refused }) hc hb
    exact ⟨_, v, ⟨exec_rxBlock_of_overflow hc ha hfirst, hv, .inr ⟨.inl rfl, exec_rxBlock_of_overflow hc hab hwhole⟩⟩,
      by simp [hwhole]⟩
  | false =>
    rw [hfirst, Bool.false_or] at hwhole
    have hu := exec_rxBlock_of_fits hc ha hfirst
    cases hrest : blockOverflows s.build s.params qs (rxBlock s.params ps s.rx).2 with
    | true =>
      rw [hrest] at hwhole
      exact ⟨_, _, ⟨hu, exec_rxBlock_of_overflow (s := { s with rx := (rxBlock s.params ps s.rx).2, resp := _ }) hc hb hrest,
        .inr ⟨.inr rfl, exec_rxBlock_of_overflow hc hab hwhole⟩⟩, by simp [hwhole]⟩
    | false =>
      rw [hrest] at hwhole
      refine ⟨_, _, ⟨hu, exec_rxBlock_of_fits (s := { s with rx := (rxBlock s.params ps s.rx).2, resp := _ }) hc hb hrest,
        .inl ⟨_, _, rfl, rfl, ?_⟩⟩, by simp⟩
      rw [exec_rxBlock_of_fits hc hab hwhole, rxBlock_append]

/-- Settles O51: a numeric block is a list of numbers, and with room for a byte on every tick none of it overflows; before CONFIGURE no
part is looked at. -/
theorem rxBlockSplits : Obligations.RxBlockSplits := by
  intro s a b hnum
  rcases Bool.eq_false_or_eq_true s.configured with hc | hc
  · obtain ⟨ps, rfl⟩ := exists_map_numericOperand fun p hp => hnum p (List.mem_append_left b hp)
    obtain ⟨qs, rfl⟩ := exists_map_numericOperand fun p hp => hnum p (List.mem_append_right _ hp)
    obtain ⟨u, v, ⟨hu, hv, hparts⟩, hanswered⟩ := exists_runsInParts_configured hc ps qs
    refine ⟨u, v, hu, hv, hparts, fun hroom => hanswered (blockOverflows_of_room _ fun d hd => ?_)⟩
    simpa [Nat.add_assoc] using hroom d hd
  · exact ⟨_, _, exec_rxBlock_unconfigured hc a, exec_rxBlock_unconfigured (s := { s with resp := _ }) hc b,
      .inl ⟨_, _, rfl, rfl, exec_rxBlock_unconfigured hc _⟩, by simp⟩

/-- A block of one sample is the tick (R201). -/
theorem exec_rxBlock_singleton {s : State} (hc : s.configured = true) (x : Sample) (now : Time) :
    exec (.rxBlock [(.num x, now)]) s = exec (.rxTick (.num x) now) s := by
  have hn : numericPairs [(.num x, now)] = some [(x, now)] := rfl
  cases ho : overflows s.build (tickByte s.params x s.rx) s.rx with
  | true => rw [exec_rxTick_of_overflow hc now ho, exec_rxBlock_of_overflow hc hn (by simp [blockOverflows, ho])]
  | false =>
    rw [exec_rxTick_of_fits hc now ho, exec_rxBlock_of_fits hc hn (by simp [blockOverflows, ho])]
    simp only [rxBlock, List.append_nil]

/-- Settles O50: a block is split after its first sample. -/
theorem rxBlockIsTicks : Obligations.RxBlockIsTicks := by
  refine fun s hc => ⟨exec_rxBlock_of_fits hc (ps := []) rfl rfl, fun x now rest hnum => ?_⟩
  obtain ⟨u, v, hu, hv, hparts, hanswered⟩ := rxBlockSplits s [(.num x, now)] rest (by simpa using hnum)
  refine ⟨u, v, (exec_rxBlock_singleton hc x now).symm.trans hu, hv, hparts, fun hroom => hanswered fun d hd => ?_⟩
  have := hroom d hd
  rw [List.length_singleton]
  omega

end Sys2Proof.Machine
end

section
/-! PROOF. The bytes on the receive path (46_demodulator.md R202, 47_system_ops.md R216): what each unit of the receive path delivers and
holds is what was held and what it decodes; then every operation. -/

namespace Sys2Proof.Machine

/-! ### Bytes through the receive units -/

/-- The bytes that a list of events delivers, in order. -/
def delivered (events : List Event) : List Byte := events.flatMap Event.receivedBytes

@[simp] theorem delivered_nil : delivered [] = [] := rfl

@[simp] theorem delivered_append (a b : List Event) : delivered (a ++ b) = delivered a ++ delivered b :=
  List.flatMap_append

/-- The bytes that a unit delivers, followed by those it leaves held. -/
def deliveredThenHeld (k : List Event × RxBank) : List Byte := delivered k.1 ++ k.2.rxBytes

/-- A flush delivers what is held (45_deframer.md R187). -/
theorem flushMessage_bytes (now : Time) (r : RxBank) : deliveredThenHeld (flushMessage now r) = r.rxBytes := by
  rcases flushMessage_cases now r with ⟨-, e⟩ | ⟨-, e⟩ <;> rw [e]
  · rfl
  · simp [deliveredThenHeld, delivered, Event.receivedBytes]

/-- While counting, and on a mismatch, DEFRAME_BIT decodes nothing (45_deframer.md R186). -/
theorem decodedByte_eq_none {b : Bit} {r : RxBank} (h : r.symbolCount < 9 ∨ validFrame (shiftIn b r.symbolBuffer) = false) :
    decodedByte b r = none := by
  rcases decodedByte_cases b r with ⟨hn, hv, -⟩ | ⟨-, e⟩
  · exact absurd h (by simp [hn, hv])
  · exact e

/-- DEFRAME_BIT adds the byte it decodes, and delivers only on a mismatch, which decodes none (45_deframer.md R186). -/
theorem deframeBit_bytes (b : Bit) (now : Time) (r : RxBank) :
    deliveredThenHeld (deframeBit b now r) = r.rxBytes ++ (decodedByte b r).toList := by
  rcases deframeBit_cases b now r with ⟨hn, e⟩ | ⟨hn, hv, e⟩ | ⟨-, hv, e⟩ <;> rw [e]
  · rw [decodedByte_eq_none (.inl hn)]
    exact (List.append_nil _).symm
  · rw [decodedByte_of_valid hn hv]
    rfl
  · rw [decodedByte_eq_none (.inr hv)]
    exact (flushMessage_bytes now (shifted b r)).trans (List.append_nil _).symm

/-- A tick adds the byte of its clean bit, if there is one (46_demodulator.md R200). -/
theorem rxTick_bytes (c : ParamRegs) (x : Sample) (now : Time) (r : RxBank) :
    deliveredThenHeld (rxTick c x now r) = r.rxBytes ++ (tickByte c x r).toList := by
  rw [← beforeDeframer_rxBytes c x r]
  cases h : (beforeDeframer c x r).1 with
  | cleanBit b => rw [rxTick_of_cleanBit now h, tickByte_of_cleanBit h, deframeBit_bytes]
  | failure =>
    rw [rxTick_of_failure now h, tickByte_eq_none (by simp [h])]
    exact (flushMessage_bytes now _).trans (List.append_nil _).symm
  | nothing =>
    rw [rxTick_of_nothing now h, tickByte_eq_none (by simp [h])]
    exact (List.append_nil _).symm

/-- A block adds the bytes of its ticks, in order (46_demodulator.md R201). -/
theorem rxBlock_bytes (c : ParamRegs) (ps : List (Sample × Time)) (r : RxBank) :
    deliveredThenHeld (rxBlock c ps r) = r.rxBytes ++ blockBytes c ps r := by
  induction ps generalizing r with
  | nil => exact (List.append_nil _).symm
  | cons p ps ih =>
    obtain ⟨x, now⟩ := p
    calc deliveredThenHeld (rxBlock c ((x, now) :: ps) r)
        = delivered (rxTick c x now r).1 ++ deliveredThenHeld (rxBlock c ps (rxTick c x now r).2) := by
          simp only [deliveredThenHeld, rxBlock, delivered_append, List.append_assoc]
      _ = deliveredThenHeld (rxTick c x now r) ++ blockBytes c ps (rxTick c x now r).2 := by
          rw [ih, deliveredThenHeld, List.append_assoc]
      _ = r.rxBytes ++ blockBytes c ((x, now) :: ps) r := by rw [rxTick_bytes, blockBytes, List.append_assoc]

/-! ### Bytes through every operation -/

/-- From `s` operation `i` is refused, or it answers `a` and leaves the receive bank `r`, having delivered or still holding what was held
and what it decodes. -/
def KeepsBytes (i : Instr) (s : State) : Prop :=
  exec i s = .next { s with resp := some .refused } ∨
    ∃ r a, exec i s = .next { s with rx := r, resp := some a } ∧ a ≠ .refused ∧
      delivered a.eventList ++ r.rxBytes = s.rx.rxBytes ++ decodedBytes s i

theorem receive_keepsBytes {i : Instr} (hi : i.isReceive = true) {s : State} (hc : s.configured = true) : KeepsBytes i s := by
  cases i with
  | rxTick sample now =>
    cases sample with
    | nonNumeric => exact .inl (exec_rxTick_nonNumeric hc now)
    | num x =>
      cases ho : overflows s.build (tickByte s.params x s.rx) s.rx with
      | true => exact .inl (exec_rxTick_of_overflow hc now ho)
      | false => exact .inr ⟨_, _, exec_rxTick_of_fits hc now ho, nofun, rxTick_bytes ..⟩
  | rxBlock pairs =>
    cases hn : numericPairs pairs with
    | none => exact .inl (exec_rxBlock_of_nonNumeric hc ((numericPairs_eq_none_iff pairs).mp hn))
    | some ps =>
      cases ho : blockOverflows s.build s.params ps s.rx with
      | true => exact .inl (exec_rxBlock_of_overflow hc hn ho)
      | false =>
        refine .inr ⟨_, _, exec_rxBlock_of_fits hc hn ho, nofun, ?_⟩
        rw [decodedBytes, hn]
        exact rxBlock_bytes ..
  | discStep sample =>
    cases sample with
    | nonNumeric => exact .inl (whenConfigured_true hc _)
    | num x => exact .inr ⟨_, _, exec_discStep_num hc x, nofun, (List.append_nil _).symm⟩
  | btrStep raw =>
    refine .inr ⟨_, _, exec_btrStep_configured hc raw, nofun, ?_⟩
    rw [btrStep_rxBytes]
    exact (List.append_nil _).symm
  | deframeBit b now =>
    cases ho : overflows s.build (decodedByte b s.rx) s.rx with
    | true => exact .inl (exec_deframeBit_of_overflow hc now ho)
    | false => exact .inr ⟨_, _, exec_deframeBit_of_fits hc now ho, nofun, deframeBit_bytes ..⟩
  | deframeFail now =>
    exact .inr ⟨_, _, exec_deframeFail_configured hc now, nofun, (flushMessage_bytes ..).trans (List.append_nil _).symm⟩
  | deframeFlush now =>
    exact .inr ⟨_, _, exec_deframeFlush_configured hc now, nofun, (flushMessage_bytes ..).trans (List.append_nil _).symm⟩
  | reset | configure | txSchedule | txTick | txBlock | oscStep | toneSel | schedPop | framerNext | framerSym => cases hi

/-! ### The transmit path delivers nothing -/

theorem delivered_of_completions {events : List Event} (h : ∀ e ∈ events, ∃ id, e = .completed id) : delivered events = [] :=
  List.flatMap_eq_nil_iff.mpr fun e he => by
    obtain ⟨id, rfl⟩ := h e he
    rfl

@[simp] theorem delivered_txTick (c : ParamRegs) (t : TxBank) : delivered (txTick c t).events = [] := by
  obtain ⟨-, -, -, -, hcompleted⟩ := bringUp_spec c t
  rcases txTick_cases c t with ⟨-, -, e⟩ | ⟨m, tone, -, -, -, -, e⟩ <;> rw [e] <;> exact delivered_of_completions hcompleted

@[simp] theorem delivered_txBlock (c : ParamRegs) (n : Nat) (t : TxBank) : delivered (txBlock c n t).events = [] := by
  induction n generalizing t with
  | zero => rfl
  | succ n ih => rw [txBlock, delivered_append, delivered_txTick, ih, List.append_nil]

/-- The events of a next state deliver no byte; of another outcome nothing is asked. -/
def DeliversNothing : Host.Outcome State Fault Refusal → Prop
  | .next t => delivered t.lastEvents = []
  | .fault _ => True
  | .refused _ => True

theorem deliversNothing_whenConfigured {s : State} {run : Host.Outcome State Fault Refusal} (h : DeliversNothing run) :
    DeliversNothing (whenConfigured s run) :=
  iteInduction (fun _ => h) fun _ => delivered_nil

/-- Of the transmit operations only the ticks answer with events, and those are completions. -/
theorem transmit_deliversNothing {i : Instr} (hi : i.isTransmit = true) (s : State) : DeliversNothing (exec i s) := by
  cases i with
  | txTick => exact iteInduction (motive := DeliversNothing) (fun _ => delivered_txTick ..) fun _ => delivered_nil
  | txBlock n => exact iteInduction (motive := DeliversNothing) (fun _ => delivered_txBlock ..) fun _ => delivered_nil
  | txSchedule | oscStep | toneSel | schedPop | framerNext | framerSym =>
    refine deliversNothing_whenConfigured ?_
    repeat' split
    all_goals exact delivered_nil
  | reset | configure | rxTick | rxBlock | discStep | btrStep | deframeBit | deframeFail | deframeFlush => cases hi

theorem decodedBytes_of_transmit {i : Instr} (hi : i.isTransmit = true) (s : State) : decodedBytes s i = [] := by
  cases i with
  | txSchedule | txTick | txBlock | oscStep | toneSel | schedPop | framerNext | framerSym => rfl
  | reset | configure | rxTick | rxBlock | discStep | btrStep | deframeBit | deframeFail | deframeFlush => cases hi

/-! ### Every operation -/

theorem lastEvents_of_refused {t : State} (h : t.resp = some .refused) : t.lastEvents = [] := by
  rw [State.lastEvents, h]
  rfl

/-- Settles O47: the transmit path leaves the held bytes and delivers none, a configured block refuses CONFIGURE, and the receive path
accounts for every byte. -/
theorem noReceivedByteLost : Obligations.NoReceivedByteLost := by
  intro i s t hc hi ht
  rcases path_cases i with rfl | ⟨p, rfl⟩ | htx | hrx
  · exact absurd rfl hi
  · obtain rfl := Host.Outcome.next.inj ((execConfigure_configured hc p).symm.trans ht)
    exact ⟨fun h => absurd rfl h, fun _ => ⟨rfl, rfl⟩⟩
  · have hheld : t.rx = s.rx := by rw [(pathsWriteOwnBank i s t ht).1 htx]
    have hsilent : DeliversNothing (.next t) := ht ▸ transmit_deliversNothing htx s
    refine ⟨fun _ => ?_, fun h => ⟨lastEvents_of_refused h, hheld⟩⟩
    rw [decodedBytes_of_transmit htx, hheld, List.append_nil]
    exact congrArg (· ++ s.rx.rxBytes) hsilent
  · rcases receive_keepsBytes hrx hc with h | ⟨r, a, h, hne, hbytes⟩ <;> obtain rfl := Host.Outcome.next.inj (h.symm.trans ht)
    · exact ⟨fun h => absurd rfl h, fun _ => ⟨rfl, rfl⟩⟩
    · exact ⟨fun _ => hbytes, fun h => absurd (Option.some.inj h) hne⟩

end Sys2Proof.Machine
end

section
/-! PROOF. The system operations (47_system_ops.md): what each row of ValidConfig (R212) asks of the operand's fields, then CONFIGURE
(R211, R214), RESET (R210) and the operations refused before CONFIGURE (R213). -/

namespace Sys2Proof.Machine

/-! ### Rounding and quantisation -/

theorem le_roundHalfUp_iff {n : Int} {x : Num} : n ≤ roundHalfUp x ↔ (n : Num) - 1 / 2 ≤ x :=
  Int.le_floor.trans sub_le_iff_le_add.symm

theorem quantise_of_none {width : Option Nat} (h : width = none) (x : Num) : quantise width x = x := by
  rw [h, quantise_none]

theorem quantise_of_some {width : Option Nat} {w : Nat} (h : width = some w) (x : Num) :
    quantise width x = (⌊x * 2 ^ w + 1 / 2⌋ : ℚ) / 2 ^ w := by
  rw [h]
  rfl

/-- A tone at or above FS has an increment of at least one turn in every build: rounding never brings it below (10_state.md R29). -/
theorem one_le_quantise (width : Option Nat) {x : Num} (h : 1 ≤ x) : 1 ≤ quantise width x := by
  cases width with
  | none => exact h
  | some w =>
    have hp : (0 : Num) < 2 ^ w := by positivity
    have hr : (2 ^ w : Int) ≤ roundHalfUp (x * 2 ^ w) := le_roundHalfUp_iff.mpr (by push_cast; nlinarith)
    rw [quantise, one_le_div hp]
    exact_mod_cast hr

/-- The increment row of R212, on the value the build holds (47_system_ops.md R211 (d)). -/
theorem quantise_lt_one_iff (width : Option Nat) (x : Num) : quantise width x < 1 ↔
    (width = none → x < 1) ∧ ∀ w, width = some w → (⌊x * 2 ^ w + 1 / 2⌋ : ℚ) / 2 ^ w < 1 := by
  cases width with
  | none => simp
  | some w => simp [quantise_of_some]

/-! ### The lengths of the two rings -/

theorem delayLenOf_given {p : Params} {d : Nat} (h : p.delayLen = some d) : delayLenOf p = some (d : Int) := by
  simp only [delayLenOf, h]

theorem delayLenOf_derived {p : Params} (h : p.delayLen = none) :
    delayLenOf p = p.rxDelay.map fun d => roundHalfUp (d * p.fs) - 1 := by
  simp only [delayLenOf, h]

theorem corrLenOf_given {p : Params} {n : Nat} (h : p.corrLen = some n) : corrLenOf p = n := by
  simp only [corrLenOf, h]

theorem corrLenOf_derived {p : Params} (h : p.corrLen = none) : corrLenOf p = roundHalfUp (6 / 8 * p.fs / p.baud) := by
  simp only [corrLenOf, h]

/-- The DELAY_LEN row of 47_system_ops.md R212: a length given is not 0, one derived has `round(RX_DELAY × FS) ≥ 2`. -/
theorem delayLenOf_pos_iff (p : Params) : 0 < (delayLenOf p).getD 0 ↔
    (∀ d, p.delayLen = some d → 0 < d) ∧ (p.delayLen = none → ∃ d, p.rxDelay = some d ∧ 3 / 2 ≤ d * p.fs) := by
  cases hd : p.delayLen with
  | some d => simp [delayLenOf_given hd]
  | none =>
    cases hr : p.rxDelay with
    | none => simp [delayLenOf_derived hd, hr]
    | some d =>
      have two_le : 0 < roundHalfUp (d * p.fs) - 1 ↔ 3 / 2 ≤ d * p.fs := by
        rw [sub_pos, Int.lt_iff_add_one_le, le_roundHalfUp_iff]
        norm_num
      simpa [delayLenOf_derived hd, hr] using two_le

/-- The CORR_LEN row of 47_system_ops.md R212: a length given is not 0, one derived has `SYM_LEN ≥ 2/3`. -/
theorem corrLenOf_pos_iff (p : Params) : 0 < corrLenOf p ↔
    (∀ n, p.corrLen = some n → 0 < n) ∧ (p.corrLen = none → 2 / 3 ≤ p.fs / p.baud) := by
  cases hc : p.corrLen with
  | some n => simp [corrLenOf_given hc]
  | none =>
    have one_le : 0 < roundHalfUp (6 / 8 * p.fs / p.baud) ↔ 2 / 3 ≤ p.fs / p.baud := by
      rw [Int.lt_iff_add_one_le, le_roundHalfUp_iff, mul_div_assoc]
      constructor <;> intro h <;> norm_num at h ⊢ <;> linarith
    simp [corrLenOf_derived hc, one_le]

/-- The rings of a valid set have the lengths R31 and R32 give as integers (10_state.md). -/
theorem deriveRegs_ring_lengths {b : Build} {p : Params} (hv : validConfig b p = true) :
    ((deriveRegs b p).delayLen : Int) = (delayLenOf p).getD 0 ∧ ((deriveRegs b p).corrLen : Int) = corrLenOf p := by
  obtain ⟨-, -, -, -, -, -, -, -, -, hdelay, hcorr, -⟩ := (validConfig_iff b p).mp hv
  exact ⟨Int.toNat_of_nonneg hdelay.le, Int.toNat_of_nonneg hcorr.le⟩

/-! ### CONFIGURE -/

section Configure
variable {s : State} {p : Params}

theorem exec_configure_of_valid (hc : s.configured = false) (hv : validConfig s.build p = true) :
    exec (.configure p) s = .next { s.configuredWith p with resp := some .ok } :=
  (if_neg (by simp [hc])).trans (if_pos hv)

/-- Class (a) of 60_exceptions.md R226. -/
theorem exec_configure_of_invalid (hv : validConfig s.build p ≠ true) :
    exec (.configure p) s = .next { s with resp := some .refused } := by
  rcases execConfigure_cases p s with e | ⟨h, -⟩
  · exact e
  · exact absurd h hv

end Configure

/-- Settles O12: a row broken by the operand's fields is a row broken of ValidConfig. -/
theorem invalidConfigureRefused : Obligations.InvalidConfigureRefused := by
  intro s p _ hbad
  refine exec_configure_of_invalid fun hv => ?_
  obtain ⟨hfs, hbaud, hmark, hspace, hne, hpre, htail, hincMark, hincSpace, hdelay, hcorr, hrx⟩ := (validConfig_iff _ _).mp hv
  obtain ⟨delay_given, delay_derived⟩ := (delayLenOf_pos_iff p).mp hdelay
  obtain ⟨corr_given, corr_derived⟩ := (corrLenOf_pos_iff p).mp hcorr
  have below_fs : ∀ f, quantise s.build.phaseWidth (f / p.fs) < 1 → f < p.fs := fun f h =>
    (div_lt_one hfs).mp (lt_of_not_ge fun h1 => absurd h (not_lt.mpr (one_le_quantise _ h1)))
  rcases hbad with h | h | h | h | h | h | h | h | h | ⟨w, hw, h | h⟩ | ⟨hd, hr⟩ | h | ⟨hd, d, hr, h⟩ | h | ⟨hn, h⟩ | ⟨d, hr, h⟩
  · exact absurd hfs (not_lt.mpr h)
  · exact absurd hbaud (not_lt.mpr h)
  · exact absurd hmark (not_lt.mpr h)
  · exact absurd hspace (not_lt.mpr h)
  · exact hne h
  · exact absurd hpre (not_le.mpr h)
  · exact absurd htail (not_le.mpr h)
  · exact absurd (below_fs _ hincMark) (not_lt.mpr h)
  · exact absurd (below_fs _ hincSpace) (not_lt.mpr h)
  · exact absurd (((quantise_lt_one_iff _ _).mp hincMark).2 w hw) (not_lt.mpr h)
  · exact absurd (((quantise_lt_one_iff _ _).mp hincSpace).2 w hw) (not_lt.mpr h)
  · obtain ⟨d, hd', -⟩ := delay_derived hd
    exact absurd (hr.symm.trans hd') (Option.some_ne_none d).symm
  · exact absurd (delay_given 0 h) (lt_irrefl 0)
  · obtain ⟨d', hd', hlong⟩ := delay_derived hd
    obtain rfl := Option.some.inj (hr.symm.trans hd')
    exact absurd hlong (not_le.mpr h)
  · exact absurd (corr_given 0 h) (lt_irrefl 0)
  · exact absurd (corr_derived hn) (not_le.mpr h)
  · exact absurd (hrx d hr) (not_lt.mpr h)

/-- Settles O11: the rows given are those of ValidConfig, and the state left is `State.configuredWith`. -/
theorem configureWritesParameters : Obligations.ConfigureWritesParameters := by
  intro s p hc hfs hbaud hmark hspace hne hpre htail exact_inc held_inc delay_given delay_derived corr_given corr_derived hrx
  have incMark_lt_one := (quantise_lt_one_iff s.build.phaseWidth (p.fMark / p.fs)).mpr
    ⟨fun h => (div_lt_one hfs).mpr (exact_inc h).1, fun w h => (held_inc w h).1⟩
  have incSpace_lt_one := (quantise_lt_one_iff s.build.phaseWidth (p.fSpace / p.fs)).mpr
    ⟨fun h => (div_lt_one hfs).mpr (exact_inc h).2, fun w h => (held_inc w h).2⟩
  have hv : validConfig s.build p = true := (validConfig_iff _ _).mpr
    ⟨hfs, hbaud, hmark, hspace, hne, hpre, htail, incMark_lt_one, incSpace_lt_one,
      (delayLenOf_pos_iff p).mpr ⟨delay_given, delay_derived⟩, (corrLenOf_pos_iff p).mpr ⟨corr_given, corr_derived⟩, hrx⟩
  obtain ⟨delayLen_eq, corrLen_eq⟩ := deriveRegs_ring_lengths hv
  refine ⟨_, exec_configure_of_valid hc hv, rfl, rfl, rfl, rfl, rfl, rfl, rfl, rfl,
    fun h => ⟨quantise_of_none h _, quantise_of_none h _⟩, fun w h => ⟨quantise_of_some h _, quantise_of_some h _⟩,
    fun h => ⟨quantise_of_none h _, quantise_of_none h _, quantise_of_none h _, quantise_of_none h _⟩,
    fun d h => ?_, fun d h hr => ?_, fun n h => ?_, fun h => corrLen_eq.trans (corrLenOf_derived h),
    decide_eq_true_iff, rfl, rfl, rfl, rfl, rfl⟩
  · exact Int.ofNat.inj (delayLen_eq.trans (by rw [delayLenOf_given h]; rfl))
  · exact delayLen_eq.trans (by rw [delayLenOf_derived h, hr]; rfl)
  · exact Int.ofNat.inj (corrLen_eq.trans (corrLenOf_given h))

/-- Settles O13: CONFIGURE tests `configured` before it looks at the set. -/
theorem secondConfigureRefused : Obligations.SecondConfigureRefused := fun _ p hc => execConfigure_configured hc p

/-! ### RESET, and the operations before CONFIGURE -/

/-- Settles O10: RESET tests nothing, and each register it writes has its value in `State.reset`. -/
theorem resetRestoresEverything : Obligations.ResetRestoresEverything := fun _ => rfl

/-- Settles O15: each of the operations named runs behind the test of `configured`. -/
theorem unconfiguredOperationsRefused : Obligations.UnconfiguredOperationsRefused := by
  intro s i hc hi
  cases i with
  | reset | configure | txTick | txBlock | rxTick | rxBlock => rcases hi with h | ⟨_, _, h⟩ <;> cases h
  | txSchedule | oscStep | toneSel | schedPop | framerNext | framerSym | discStep | btrStep | deframeBit | deframeFail
  | deframeFlush => exact whenConfigured_false hc _

end Sys2Proof.Machine
end

section
/-! PROOF. The step answers from every state (60_exceptions.md R237): every operation ends in an answer, and a step takes its request
from the port before it runs it. With the port empty it changes no register (R245; 20_memory.md R66). -/

namespace Sys2Proof.Machine

/-- With nothing pending the step is idle (20_memory.md R66; log entry 3). -/
theorem step_of_port_nil {s : State} (hp : s.port = []) : step s = .next s.accept := by
  have hf : fetch s = .idle := by simp only [fetch, hp]
  rw [step, hf]

/-- Settles O5: nothing is accepted from an empty port. -/
theorem stepIdleChangesNothing : Obligations.StepIdleChangesNothing := by
  intro s hp
  rw [step_of_port_nil hp, State.accept, hp, List.tail_nil]

/-- Every operation ends in an answer, its status `refused` among them (60_exceptions.md R237), and leaves the straps and the requests
still pending. -/
theorem exec_eq_answer (i : Instr) (s : State) :
    ∃ a t, exec i s = answer a t ∧ t.build = s.build ∧ t.port = s.port := by
  rcases path_cases i with rfl | ⟨p, rfl⟩ | htx | hrx
  · exact ⟨.ok, s.afterReset, rfl, rfl, rfl⟩
  · rcases execConfigure_cases p s with hrefused | ⟨-, haccepted⟩
    · exact ⟨.refused, s, hrefused, rfl, rfl⟩
    · exact ⟨.ok, s.configuredWith p, haccepted, rfl, rfl⟩
  · obtain ⟨t, a, h, -⟩ := transmit_spec htx s
    exact ⟨a, s.withTx t, h s.rx s.resp, rfl, rfl⟩
  · obtain ⟨r, a, h, -⟩ := receive_spec hrx s
    exact ⟨a, s.withRx r, h s.tx s.resp, rfl, rfl⟩

/-- Settles O6: an empty port, a reserved word, or the answer of the operation decoded. -/
theorem stepAlwaysAnswers : Obligations.StepAlwaysAnswers := by
  intro s
  cases hp : s.port with
  | nil => exact ⟨s.accept, step_of_port_nil hp, rfl, by rw [State.accept_port, hp], by simp⟩
  | cons r rest =>
    cases hd : decode s.build.unitPort r with
    | error e => exact ⟨_, step_of_decode_error hp hd, rfl, rfl, by simp⟩
    | ok i =>
      obtain ⟨a, t, hexec, hbuild, hport⟩ := exec_eq_answer i { s with port := rest, resp := none }
      exact ⟨{ t with resp := some a }, (step_of_decode_ok hp hd).trans hexec, hbuild, hport, by simp⟩

end Sys2Proof.Machine
end

section
/-! PROOF. Bit Timing Recovery in Q fraction bits and one sticky bit (70_reset_and_hazards.md R262). The fraction register is read as
`phaseOfAcc` reads an accumulator: a register of `w` bits, all of them fractional. -/

namespace Sys2Proof.Machine

/-! ### The add with carry out -/

/-- The add without its carry keeps the fraction of the sum: the same add as the phase accumulator's (40_oscillator.md R112). -/
theorem phaseOfAcc_add {w : Nat} (x y : BitVec w) : phaseOfAcc (x + y) = Int.fract (phaseOfAcc x + phaseOfAcc y) := by
  obtain ⟨hx0, hx1⟩ := phaseOfAcc_range x
  obtain ⟨hy0, hy1⟩ := phaseOfAcc_range y
  calc phaseOfAcc (x + y)
      = wrapPhase (phaseOfAcc x + phaseOfAcc y) := (accumulatorMatchesPhase w x y).symm
    _ = Int.fract (phaseOfAcc x + phaseOfAcc y) := wrapPhase_eq_fract (add_nonneg hx0 hy0) (by linarith)

/-- The carry out is set exactly when the two fractions add up to 1 or more. -/
theorem carry_eq_decide_one_le {w : Nat} (x y : BitVec w) :
    BitVec.carry w x y false = decide (1 ≤ phaseOfAcc x + phaseOfAcc y) := by
  have hp : (0 : Num) < 2 ^ w := by positivity
  rw [BitVec.carry, Nat.mod_eq_of_lt x.isLt, Nat.mod_eq_of_lt y.isLt, decide_eq_decide, phaseOfAcc, phaseOfAcc, ← add_div,
    one_le_div hp]
  simp only [Bool.toNat_false, add_zero, ge_iff_le]
  exact_mod_cast Iff.rfl

/-- The top bit of a fraction register is worth 1/2. -/
theorem phaseOfAcc_twoPow_top (q : Nat) : phaseOfAcc (BitVec.twoPow (q + 1) q) = 1 / 2 := by
  have hq : (2 : Num) ^ q ≠ 0 := by positivity
  rw [phaseOfAcc, BitVec.toNat_twoPow_of_lt q.lt_succ_self, Nat.cast_pow, Nat.cast_ofNat, pow_succ, div_mul_cancel_left₀ hq, one_div]

/-! ### The two facts that BTR_STEP uses -/

/-- The floor moves in a step exactly when the fraction carries (R262, which speaks of steps of less than 1). -/
theorem floor_add_ne_floor_iff {step : Num} (h0 : 0 ≤ step) (e : Num) :
    ⌊e + step⌋ ≠ ⌊e⌋ ↔ 1 ≤ Int.fract e + step := by
  have hsplit := Int.floor_add_fract e
  have hnonneg := Int.fract_nonneg e
  rw [ne_eq, Int.floor_eq_iff, not_and_or, not_le, not_lt]
  constructor
  · rintro (hbelow | habove) <;> linarith
  · intro hcarry
    right
    linarith

/-- A non-negative number is at least 1 after a step exactly when it was so before, or the fraction carries in this step (R262). -/
theorem one_le_add_iff {e step : Num} (he : 0 ≤ e) (h0 : 0 ≤ step) :
    1 ≤ e + step ↔ 1 ≤ e ∨ 1 ≤ Int.fract e + step := by
  constructor
  · intro h
    rcases le_or_gt 1 e with hge | hlt
    · exact .inl hge
    · rw [Int.fract_eq_self.mpr ⟨he, hlt⟩]
      exact .inr h
  · rintro (h | h)
    · linarith
    · have hfloor : (0 : Num) ≤ ⌊e⌋ := by exact_mod_cast Int.floor_nonneg.mpr he
      linarith [Int.floor_add_fract e]

/-! ### The two branches of the fixed-width step -/

section Branches
variable {q : Nat} (bitStep : BitVec q) {raw : Bit} {f : BtrFixed q}

/-- No transition: the add with carry out (R262). -/
theorem btrStepFixed_of_same (h : f.prev = some raw) : btrStepFixed bitStep raw f =
    (if BitVec.carry q f.frac bitStep false = true then .cleanBit raw else .nothing,
      { f with frac := f.frac + bitStep, ge1 := f.ge1 || BitVec.carry q f.frac bitStep false }) :=
  if_pos h

/-- A transition: the sticky bit decides, and the fraction starts again at 1/2 (R262). -/
theorem btrStepFixed_of_transition (h : f.prev ≠ some raw) : btrStepFixed bitStep raw f =
    (if (!f.ge1) = true then .failure else .nothing,
      { prev := some raw, frac := BitVec.twoPow q (q - 1), ge1 := false }) :=
  if_neg h

end Branches

/-- `F = 0` and `ge1 = false` stand for the reset bank. -/
theorem BtrFixed.cleared_standsFor (q d k : Nat) : (BtrFixed.cleared q).StandsFor (RxBank.cleared d k) := by
  refine ⟨rfl, ?_, ?_⟩
  · simp [BtrFixed.cleared]
  · norm_num [BtrFixed.cleared]

section StandsFor
variable {q : Nat} {bitStep : BitVec (q + 1)} {c : ParamRegs} {raw : Bit} {f : BtrFixed (q + 1)} {r : RxBank}

/-- No transition: the carry is the step of the floor, and with the sticky bit it says whether 1 is reached. -/
theorem btrStepFixed_standsFor_of_same (hs : c.bitStep = phaseOfAcc bitStep) (he : 0 ≤ r.emittedBits) (hf : f.StandsFor r)
    (hp : r.prevBit = some raw) :
    (btrStepFixed bitStep raw f).1 = (btrStep c raw r).1 ∧ (btrStepFixed bitStep raw f).2.StandsFor (btrStep c raw r).2 := by
  obtain ⟨hprev, hfrac, hge⟩ := hf
  have hfrac : phaseOfAcc f.frac = Int.fract r.emittedBits := hfrac
  have h0 := (phaseOfAcc_range bitStep).1
  have hcarry : BitVec.carry (q + 1) f.frac bitStep false = decide (1 ≤ Int.fract r.emittedBits + phaseOfAcc bitStep) := by
    rw [carry_eq_decide_one_le, hfrac]
  rw [btrStepFixed_of_same bitStep (hprev.trans hp), btrStep_of_same c hp, hs, hcarry]
  refine ⟨?_, hprev, ?_, ?_⟩
  · simp only [decide_eq_true_eq, floor_add_ne_floor_iff h0]
  · exact (phaseOfAcc_add f.frac bitStep).trans (by rw [hfrac, fract_fract_add])
  · simp only [hge, ← Bool.decide_or, one_le_add_iff he h0]

/-- A transition: the sticky bit is the failure test, and both sides start again at 1/2. -/
theorem btrStepFixed_standsFor_of_transition (hf : f.StandsFor r) (hp : r.prevBit ≠ some raw) :
    (btrStepFixed bitStep raw f).1 = (btrStep c raw r).1 ∧ (btrStepFixed bitStep raw f).2.StandsFor (btrStep c raw r).2 := by
  obtain ⟨hprev, -, hge⟩ := hf
  rw [btrStepFixed_of_transition bitStep (hprev ▸ hp), btrStep_of_transition c hp]
  refine ⟨?_, rfl, (phaseOfAcc_twoPow_top q).trans ?_, ?_⟩
  · simp [hge]
  · exact (Int.fract_eq_self.mpr ⟨by norm_num, by norm_num⟩).symm
  · norm_num

end StandsFor

/-- Settles O56: the reset registers, and the two branches of BTR_STEP. -/
theorem fixedTimingMatches : Obligations.FixedTimingMatches := by
  refine ⟨BtrFixed.cleared_standsFor, fun q bitStep c f r raw hs he hf => ?_⟩
  by_cases hp : r.prevBit = some raw
  · exact btrStepFixed_standsFor_of_same hs he hf hp
  · exact btrStepFixed_standsFor_of_transition hf hp

end Sys2Proof.Machine
end
